-- ==== Sys2Proof/Word.lean ====
section
/-! DEFINITION. The word types: a byte of SRC, DST or WIN, and a 32-bit host register (10_state section 2). -/

namespace Sys2Proof

/-- A byte of the buffers and of the window (20_memory R56). -/
abbrev Byte := BitVec 8

/-- A host register, 32 bits (10_state section 2). -/
abbrev Word := BitVec 32

end Sys2Proof
end

