-- ==== Sys2Proof/Config.lean ====
section
/-! DEFINITION. What a build of the hardware fixes (00_scope R9), the runtime parameter set (00_scope R7), and the
values the spec leaves unspecified, as constants with no body: nothing can be proved of them but that they are what
they are. -/

namespace Sys2Proof

/-- BITORDER, the order of the stream's bits within a byte (00_scope R9, 30_encoding R73). -/
inductive BitOrder where
  | lsb
  | msb
deriving DecidableEq, Repr

/-- The elaboration parameters, "fixed when the hardware is built and are not writable by the host" (00_scope R9).
They stand in State as constant data, so that the model covers every build (log entry 1, DESIGN CHOICE). -/
structure Hardware where
  /-- EI_MAX, the largest legal EI; WIN has 2^EI_MAX entries. -/
  eiMax : Nat
  /-- EJ_MAX, the largest legal EJ. -/
  ejMax : Nat
  /-- BITORDER. -/
  order : BitOrder
  /-- FILL, what every window entry holds after WIN_INIT. -/
  fill  : Byte
deriving DecidableEq, Repr

/-- The values this spec takes (00_scope R9, last column of the table). -/
def Hardware.spec : Hardware := { eiMax := 16, ejMax := 8, order := .lsb, fill := 0x00#8 }

/-- The runtime parameter set EI, EJ, P, RLESS (00_scope R7), as numbers. -/
structure Params where
  ei    : Nat
  ej    : Nat
  p     : Nat
  rless : Bool
deriving DecidableEq, Repr

namespace Config

/-- A 32-bit value the spec leaves unspecified: SRC_USED after a failure, OUT_COUNT and SRC_USED read before the host has
seen the command complete (20_memory R63, 93_implementation_defined U3, U4; log entry 8). The argument numbers the draw. -/
opaque freeWord : Nat → Word

/-- An unspecified DST byte: the draw that left it so, and its index (93 U2, U3, U9; log entry 9). -/
opaque freeDst : Nat → Nat → Byte

/-- An unspecified WIN entry: the draw that left it so, and its index (93 U1, U7; log entry 6). -/
opaque freeWin : Nat → Nat → Byte

/-- The unspecified WCUR after a command (93 U7; log entry 7), before it is cut to WCUR's width. -/
opaque freeCursor : Nat → Nat

/-- What the SRC byte of an index holds before anything wrote it (log entry 10). -/
opaque unwrittenSrc : Nat → Byte

/-- What the DST byte of an index holds before anything wrote it (log entry 10). -/
opaque unwrittenDst : Nat → Byte

end Config

end Sys2Proof
end

