-- ==== Sys2Proof/Syntax.lean ====
section
/-! DEFINITION. The instructions: one constructor for each row of spec/opcode_table.json. The two stream tokens carry
their operands (00_scope R17), not their fields; the command words carry nothing, but for the reserved ones. -/

namespace Sys2Proof

inductive Instr where
  /-- LIT c: the literal token carrying byte c (30_encoding R75). -/
  | lit (c : Byte)
  /-- MATCH off, len: the match token (30_encoding R76, operands as R77 decodes them). -/
  | matchTok (off len : Nat)
  /-- NOP: command word 0x0000_0000 (30_encoding R84). -/
  | nop
  /-- COMPRESS: command word 0x0000_0001 (30_encoding R84). -/
  | compress
  /-- DECOMPRESS: command word 0x0000_0002 (30_encoding R84). -/
  | decompress
  /-- A reserved command word, 0x0000_0003 to 0xFFFF_FFFF (30_encoding R85). -/
  | reserved (w : Word)
deriving DecidableEq, Repr

end Sys2Proof
end

