-- ==== Sys2Proof/WellFormed.lean ====
section
/-! DEFINITION. Which instruction terms have an encoding, under a parameter set; and which builds are legal. -/

namespace Sys2Proof

/-- A legal build: EI_MAX and EJ_MAX in 1..31 (00_scope R9). -/
def Hardware.legal (h : Hardware) : Bool :=
  decide (1 ≤ h.eiMax) && decide (h.eiMax ≤ 31) && decide (1 ≤ h.ejMax) && decide (h.ejMax ≤ 31)

/-- The offset of a match token has a field: 1..2^EI (30_encoding R76). -/
def offEncodable (pr : Params) (off : Nat) : Bool := decide (1 ≤ off) && decide (off ≤ 2 ^ pr.ei)

/-- The length of a match token has a field: P..P + 2^EJ - 1 with RLESS = 1, 0..2^EJ - 1 with RLESS = 0 (30_encoding
R77). With RLESS = 0 a length below P has a field too; it is the token R81 calls illegal, which DECOMPRESS ends on. -/
def lenEncodable (pr : Params) (len : Nat) : Bool :=
  if pr.rless then decide (pr.p ≤ len) && decide (len < pr.p + 2 ^ pr.ej) else decide (len < 2 ^ pr.ej)

/-- The stream tokens among the instructions (30_encoding R71). -/
def Instr.isToken : Instr → Bool
  | .lit _ => true
  | .matchTok _ _ => true
  | .nop => false
  | .compress => false
  | .decompress => false
  | .reserved _ => false

/-- An instruction that has an encoding under the parameter set. -/
def Instr.wf (pr : Params) : Instr → Bool
  | .lit _ => true
  | .matchTok off len => offEncodable pr off && lenEncodable pr len
  | .nop => true
  | .compress => true
  | .decompress => true
  | .reserved w => decide (3 ≤ w.toNat)

end Sys2Proof
end

