-- ==== Sys2Proof/Decode.lean ====
section
/-! DEFINITION. The two encodings of spec/30_encoding.md: the bits of a stream, the tokens in it, and the command
words; the decoders first, total and rejecting by name, and the encoders after them. -/

namespace Sys2Proof

/-! ## Bits in bytes and fields (R72, R73) -/

/-- pos(t), the bit position in its byte of stream bit t (R73). -/
def posIn (o : BitOrder) (t : Nat) : Nat :=
  match o with
  | .lsb => t % 8
  | .msb => 7 - t % 8

/-- The value of a field from its stream bits: the first is the least significant with LSB, the most with MSB (R72). -/
def fieldValue (o : BitOrder) (bits : List Bool) : Nat :=
  match o with
  | .lsb => bits.foldr (fun b acc => b.toNat + 2 * acc) 0
  | .msb => bits.foldl (fun acc b => 2 * acc + b.toNat) 0

/-- The eight stream bits a byte holds, in stream order (R73). -/
def bitsOfByte (o : BitOrder) (b : Byte) : List Bool := (List.range 8).map fun j => b.getLsbD (posIn o j)

/-- The stream bits held by bytes (R73). -/
def unpack (o : BitOrder) (bytes : List Byte) : List Bool := bytes.flatMap (bitsOfByte o)

/-! ## Operands of a match token (R77) -/

/-- off from its field. -/
def offOperand (offm1 : Nat) : Nat := offm1 + 1

/-- len from its field. -/
def lenOperand (pr : Params) (lenf : Nat) : Nat := if pr.rless then lenf + pr.p else lenf

/-! ## Decoding -/

/-- Why bytes or bits are no instruction. -/
inductive Reject where
  /-- No bit is left for the flag (60_exceptions R242). -/
  | missingFlag
  /-- Fewer than 8 bits are left for the literal field. -/
  | missingLiteral
  /-- Fewer than EI bits are left for the offset field. -/
  | missingOffset
  /-- Fewer than EJ bits are left for the length field. -/
  | missingLength
  /-- A command word is a whole 32-bit word (20_memory R57). -/
  | notAWord
deriving DecidableEq, Repr

/-- The first w bits and the rest, if there are w. -/
def takeField (w : Nat) (bits : List Bool) : Option (List Bool × List Bool) :=
  if w ≤ bits.length then some (bits.take w, bits.drop w) else none

/-- The payload after the flag (R75, R76), and the bits left over. -/
def decodePayload (o : BitOrder) (pr : Params) (flag : Bool) (bits : List Bool) : Except Reject (Instr × List Bool) :=
  match flag with
  | true =>
    match takeField 8 bits with
    | none => .error .missingLiteral
    | some (c, rest) => .ok (.lit (BitVec.ofNat 8 (fieldValue o c)), rest)
  | false =>
    match takeField pr.ei bits with
    | none => .error .missingOffset
    | some (offBits, rest) =>
      match takeField pr.ej rest with
      | none => .error .missingLength
      | some (lenBits, rest') =>
        .ok (.matchTok (offOperand (fieldValue o offBits)) (lenOperand pr (fieldValue o lenBits)), rest')

/-- One token: its flag (R74) and its payload. -/
def decodeToken (o : BitOrder) (pr : Params) : List Bool → Except Reject (Instr × List Bool)
  | [] => .error .missingFlag
  | flag :: bits => decodePayload o pr flag bits

/-- A command word, all 32 bits compared (R84). -/
def decodeWord (w : Word) : Instr :=
  if w = 0x00000000#32 then .nop
  else if w = 0x00000001#32 then .compress
  else if w = 0x00000002#32 then .decompress
  else .reserved w

/-- The word whose byte at bus address a + k is the k-th of four (20_memory R55: little-endian). -/
def wordOfLanes (b0 b1 b2 b3 : Byte) : Word := b3 ++ b2 ++ b1 ++ b0

/-- A command from the byte lanes of a write to CMD: exactly four (20_memory R51, R57). -/
def decodeLanes : List Byte → Except Reject Instr
  | [b0, b1, b2, b3] => .ok (decodeWord (wordOfLanes b0 b1 b2 b3))
  | _ => .error .notAWord

/-! ## Encoding -/

/-- The stream bits of a field of width w holding v (R72). -/
def fieldBits (o : BitOrder) (w v : Nat) : List Bool :=
  match o with
  | .lsb => (List.range w).map fun i => v.testBit i
  | .msb => (List.range w).map fun i => v.testBit (w - 1 - i)

/-- The length field of an operand (R78). -/
def lenField (pr : Params) (len : Nat) : Nat := if pr.rless then len - pr.p else len

/-- The 9 bits of LIT c (R75). -/
def litBits (o : BitOrder) (c : Byte) : List Bool := true :: fieldBits o 8 c.toNat

/-- The 1 + EI + EJ bits of MATCH off, len (R76, R78). -/
def matchBits (o : BitOrder) (pr : Params) (off len : Nat) : List Bool :=
  false :: (fieldBits o pr.ei (off - 1) ++ fieldBits o pr.ej (lenField pr len))

/-- What an instruction is written as: bits of a stream, or a word written to CMD. -/
inductive Code where
  | stream (bits : List Bool)
  | command (w : Word)
deriving DecidableEq, Repr

def encode (o : BitOrder) (pr : Params) : Instr → Code
  | .lit c => .stream (litBits o c)
  | .matchTok off len => .stream (matchBits o pr off len)
  | .nop => .command 0x00000000#32
  | .compress => .command 0x00000001#32
  | .decompress => .command 0x00000002#32
  | .reserved w => .command w

/-- The inverse of encode: a command word, or one token and nothing after it. -/
def decode (o : BitOrder) (pr : Params) : Code → Option Instr
  | .command w => some (decodeWord w)
  | .stream bits =>
    match decodeToken o pr bits with
    | .ok (i, []) => some i
    | .ok (_, _ :: _) => none
    | .error _ => none

/-- The stream bits of a token; a command word has none. -/
def tokenBits (o : BitOrder) (pr : Params) (i : Instr) : List Bool :=
  match encode o pr i with
  | .stream bits => bits
  | .command _ => []

/-- Byte k of a stream, with zero bits after its end (R73, R80). -/
def byteAt (o : BitOrder) (bits : List Bool) (k : Nat) : Byte :=
  BitVec.ofNat 8 ((List.range 8).foldl (fun acc j => acc + (bits.getD (8 * k + j) false).toNat * 2 ^ posIn o j) 0)

/-- ceil(t / 8). -/
def bytesFor (t : Nat) : Nat := (t + 7) / 8

/-- The bytes of a stream, padded with zero bits to a byte boundary (R70, R80). -/
def pack (o : BitOrder) (bits : List Bool) : List Byte := (List.range (bytesFor bits.length)).map (byteAt o bits)

/-- A token list as a stream, `.end` and its pad included (R86). -/
def assemble (o : BitOrder) (pr : Params) (toks : List Instr) : List Byte := pack o (toks.flatMap (tokenBits o pr))

/-! ## Words as the opcode table numbers them -/

/-- The parameter set a token of the opcode table is read under: EI = 4, EJ = 2, P = 2, RLESS = 1, the one 30_encoding's
own examples use (log entry 16, DESIGN CHOICE: the table's MATCH row is parametric). -/
def tableParams : Params := { ei := 4, ej := 2, p := 2, rless := true }

/-- Four bytes, the first holding bits 7..0 of w; every bit above nbits is 0. -/
def tableBytes (nbits w : Nat) : List Byte :=
  (List.range 4).map fun k => BitVec.ofNat 8 (w % 2 ^ nbits / 2 ^ (8 * k))

/-- A row of 32 bits is a command word, written to CMD in its four byte lanes; a shorter row is a stream token, read
from stream bit 0 of its bytes. -/
def decodeTableWord (nbits w : Nat) : Option Instr :=
  if nbits = 32 then
    match decodeLanes (tableBytes nbits w) with
    | .ok i => some i
    | .error _ => none
  else
    match decodeToken Hardware.spec.order tableParams (unpack Hardware.spec.order (tableBytes nbits w)) with
    | .ok (i, _) => some i
    | .error _ => none

end Sys2Proof
end

