-- ==== Sys2Proof/Machine/State.lean ====
section
/-! DEFINITION. The state of the machine: all the spec gives it (10_state R20), as plain data; and why a step can stop. -/

namespace Sys2Proof.Machine

/-- Bytes by address, the addresses strictly rising (`Memory.wf` in Ops). A byte not listed is one nothing has written. -/
abbrev Memory := List Host.Cell

/-- CFG's fields (10_state R21); its reserved fields read 0 and hold nothing. -/
structure Cfg where
  ei    : BitVec 5
  ej    : BitVec 5
  p     : BitVec 8
  rless : Bool
deriving DecidableEq, Repr

/-- STATUS.ERR's values (60_exceptions R240). The reserved codes 7 to 15 are never produced: they have no name here. -/
inductive ErrCode where
  | ok
  | param
  | capacity
  | srcExhausted
  | badOffset
  | badLength
  | badCmd
deriving DecidableEq, Repr

/-- The host registers (10_state R21 to R28). CMD holds nothing (R24), CAPS is a constant of the build (R29). -/
structure Regs where
  cfg      : Cfg
  srcLen   : Word
  dstCap   : Word
  /-- STATUS.BUSY, DONE and ERR (R25). -/
  busy     : Bool
  done     : Bool
  err      : ErrCode
  outCount : Word
  srcUsed  : Word
  /-- CTRL.IRQ_EN (R28). -/
  irqEn    : Bool
deriving DecidableEq, Repr

/-- PHASE (10_state R32). -/
inductive Phase where
  | idle
  | init
  | cFind
  | cEmit
  | cFlush
  | dFlag
  | dLit
  | dMatch
  | dCopy
deriving DecidableEq, Repr

/-- Which command was accepted last: phase INIT is used by both (10_state R32), and what follows it differs
(log entry 4, DEDUCED). -/
inductive Command where
  | compress
  | decompress
deriving DecidableEq, Repr

/-- The engine's registers (10_state R32 to R36). Counters and indices are numbers: "no counter wraps" (92 D37); that
they keep to their widths is part of the invariant `Inv` (log entry 18). -/
structure Engine where
  phase   : Phase
  cur     : Command
  /-- POS, index in SRC of the next byte to encode (R33). -/
  pos     : Nat
  bestOff : Nat
  bestLen : Nat
  /-- OBITS, stream bits written (R34). -/
  obits   : Nat
  /-- OACC, the partial output byte (R34). -/
  oacc    : BitVec 8
  /-- IBITS, stream bits read (R35). -/
  ibits   : Nat
  /-- OUTN, bytes written to DST (R36). -/
  outn    : Nat
  tokFlag : Bool
  tokOff  : Nat
  tokLen  : Nat
  copyK   : Nat
deriving DecidableEq, Repr

/-- The window RAM and its cursor (10_state R31). An entry not listed is unspecified; `draw` numbers its free bytes. -/
structure Window where
  cells : Memory
  draw  : Nat
  cur   : Nat
deriving DecidableEq, Repr

/-- DST[0..cap) was left unspecified by the command that took this draw (60_exceptions R244, 70_reset R271). -/
structure Lost where
  cap  : Nat
  draw : Nat
deriving DecidableEq, Repr

/-- DST: the bytes written since, over the prefixes left unspecified, newest and shortest first. -/
structure Dest where
  cells : Memory
  lost  : List Lost
deriving DecidableEq, Repr

/-- Bytes of system memory that the platform has bound to both buffers: SRC[src + k] is DST[dst + k] for k < len. -/
structure Span where
  src : Nat
  dst : Nat
  len : Nat
deriving DecidableEq, Repr

/-- How the platform has bound SRC and DST to system memory (20_memory R52, R53, R60; log entry 12). -/
structure Placement where
  /-- The bytes the two share. -/
  shared : List Span
  /-- Both are plain memory: no byte of either stands on a device (R60). -/
  plain  : Bool
deriving DecidableEq, Repr

/-- The width of a bus access (20_memory R57). -/
inductive Width where
  | byte
  | half
  | word
deriving DecidableEq, Repr

/-- What the outside of the core does next (log entry 2). -/
inductive Input where
  /-- The host makes no access: the engine takes one step. -/
  | engine
  /-- A write to REG (20_memory R51). -/
  | write (off : BitVec 6) (width : Width) (v : Word)
  /-- A read of REG. -/
  | read (off : BitVec 6) (width : Width)
  /-- A byte is stored in the SRC buffer, outside the core (20_memory R52). -/
  | srcWrite (index : Word) (b : Byte)
  /-- A byte is stored in the DST buffer, outside the core (20_memory R53). -/
  | dstWrite (index : Word) (b : Byte)
  /-- The host reads a byte of the DST buffer. -/
  | dstRead (index : Word)
  /-- The platform binds SRC and DST to system memory (20_memory R52, R53). -/
  | bind (p : Placement)
  /-- WAIT_DONE by polling STATUS (30_encoding R87). -/
  | waitDone
  /-- WAIT_DONE by the irq line (30_encoding R87). -/
  | waitIrq
  /-- Reset is asserted (70_reset R270). -/
  | reset
deriving DecidableEq, Repr

/-- The outside of the core: what it does next, in order, and the data its last read returned. -/
structure Outside where
  inputs : List Input
  rdata  : Word
deriving DecidableEq, Repr

/-- The bytes DST[lo..hi). -/
structure Extent where
  lo : Nat
  hi : Nat
deriving DecidableEq, Repr

/-- What commands have left behind that the host has yet to see complete, by a read of STATUS with DONE = 1 or by the
rising edge of irq (20_memory R63; the model's own, log entry 29). -/
structure Unseen where
  /-- The last command has completed, with DST[0..w) written, and the host has not seen it. -/
  last  : Option Nat
  /-- What earlier commands wrote in DST that the host never saw complete. -/
  older : List Extent
deriving DecidableEq, Repr

/-- The whole machine. -/
structure State where
  /-- The build; no step changes it (log entry 1). -/
  hw    : Hardware
  regs  : Regs
  eng   : Engine
  win   : Window
  /-- SRC's own bytes; a byte it shares with DST stands in `dst` alone. -/
  src   : Memory
  dst   : Dest
  /-- Where the platform has put SRC and DST (log entry 12). -/
  place : Placement
  host  : Outside
  /-- What the host cannot yet rely on (20_memory R63, log entry 29). -/
  unseen : Unseen
  /-- How many draws of free values were taken (the model's own, log entry 8). -/
  draws : Nat
deriving DecidableEq, Repr

/-- Why the machine stops. Both guard indices no command ever reaches (20_memory R61, log entry 13): safe, since a state
that satisfies `Inv` never steps to one. -/
inductive Fault where
  /-- EMIT would read SRC at SRC_LEN or above (20_memory R52). Raised by `engineEmit`. Safe. -/
  | srcOutOfRange
  /-- D_LIT would write DST at DST_CAP or above (20_memory R53). Raised by `execLit`. Safe. -/
  | dstOutOfRange
deriving DecidableEq, Repr

/-- Why a step has no result. -/
inductive Refusal where
  /-- exec has no meaning for the instruction. Raised by exec's refused arms only (there are none). Safe. -/
  | notModelled (mnemonic : String)
  /-- SRC or DST is written while BUSY = 1: "a model refuses the run" (70_reset R283, 93 U5), at whatever index (log
  entry 11, DESIGN CHOICE). Raised by `hostStep`. Safe. -/
  | bufferHazard
  /-- A COMPRESS or DECOMPRESS would run with SRC and DST overlapping: "a model refuses the run" (70_reset R283, 93 U6).
  Raised by `start`. Safe. -/
  | bufferOverlap
  /-- A command would run on SRC or DST mapped onto a device, or the outside accesses such a buffer: "refuse" (93 U8,
  20_memory R60). Raised by `start` and `bufferAccess`. Safe. -/
  | deviceBuffer
deriving DecidableEq, Repr

/-- How a step ends. -/
abbrev Out := Host.Outcome State Fault Refusal

/-- CFG after reset: an illegal parameter set (10_state R41). -/
def Cfg.reset : Cfg := { ei := 0#5, ej := 0#5, p := 0#8, rless := false }

/-- The host registers after reset (10_state R41). -/
def Regs.reset : Regs :=
  { cfg := Cfg.reset, srcLen := 0#32, dstCap := 0#32, busy := false, done := false, err := .ok,
    outCount := 0#32, srcUsed := 0#32, irqEn := false }

/-- The engine after reset: PHASE = IDLE; the others are unspecified in the spec and zero here (10_state R41;
log entries 4 and 5, DESIGN CHOICE). -/
def Engine.reset : Engine :=
  { phase := .idle, cur := .compress, pos := 0, bestOff := 0, bestLen := 0, obits := 0, oacc := 0#8, ibits := 0,
    outn := 0, tokFlag := false, tokOff := 0, tokLen := 0, copyK := 0 }

/-- The machine after reset (10_state R41, 70_reset R270), with this spec's build, no input pending, no command unseen
(log entry 26) and nothing in SRC or DST, which the platform has bound to plain memory of their own (log entry 12, DESIGN
CHOICE). WIN is unspecified: no entry is listed, and draw 0 names its bytes, so the first draw of a run is draw 1 and ties
no later value to them (log entry 26, DESIGN CHOICE). WCUR is zero (log entry 5, DESIGN CHOICE). -/
def State.reset : State :=
  { hw := Hardware.spec, regs := Regs.reset, eng := Engine.reset, win := { cells := [], draw := 0, cur := 0 },
    src := [], dst := { cells := [], lost := [] }, place := { shared := [], plain := true },
    host := { inputs := [], rdata := 0#32 },
    unseen := { last := none, older := [] }, draws := 1 }

end Sys2Proof.Machine
end

