-- ==== Sys2Proof/Machine/Operands.lean ====
section
/-! DEFINITION. The operands of the commands: the register words, the parameter set of CFG, and the quantities derived
from it (00_scope R10). -/

namespace Sys2Proof.Machine

/-- CFG as the host reads it: reserved fields 0 (10_state R21). -/
def Cfg.word (c : Cfg) : Word :=
  (0#7 ++ BitVec.ofBool c.rless ++ c.p ++ 0#3 ++ c.ej ++ 0#3 ++ c.ei : BitVec 32)

/-- The fields of a word written to CFG, stored as written (10_state R21). -/
def Cfg.ofWord (v : Word) : Cfg :=
  { ei := v.extractLsb' 0 5, ej := v.extractLsb' 8 5, p := v.extractLsb' 16 8, rless := v.getLsbD 24 }

/-- The parameter set CFG holds (00_scope R7). -/
def Cfg.params (c : Cfg) : Params := { ei := c.ei.toNat, ej := c.ej.toNat, p := c.p.toNat, rless := c.rless }

/-- N = 2^EI (00_scope R10). -/
def winSize (pr : Params) : Nat := 2 ^ pr.ei

/-- LMAX, the longest match a length field can carry (00_scope R10, 90_conflicts C1). -/
def lmax (pr : Params) : Nat := if pr.rless then pr.p + 2 ^ pr.ej - 1 else 2 ^ pr.ej - 1

/-- TLIT, bits in a literal token (00_scope R10). -/
def tlit : Nat := 9

/-- TMAT, bits in a match token (00_scope R10). -/
def tmat (pr : Params) : Nat := 1 + pr.ei + pr.ej

/-- WORST(n), an upper bound of the bytes COMPRESS writes for n input bytes (30_encoding R83, 90_conflicts C5). -/
def worst (pr : Params) (n : Nat) : Nat := (n * max (9 * pr.p) (1 + pr.ei + pr.ej) + (8 * pr.p - 1)) / (8 * pr.p)

/-- LEGAL(CFG) under a build (44_host R210). -/
def legalParams (h : Hardware) (pr : Params) : Bool :=
  decide (1 ≤ pr.ei) && decide (pr.ei ≤ h.eiMax) && decide (1 ≤ pr.ej) && decide (pr.ej ≤ h.ejMax) &&
    decide (1 ≤ pr.p) && decide (pr.p ≤ 255)

/-- The parameter set of the machine's CFG. -/
def State.params (s : State) : Params := s.regs.cfg.params

/-- LEGAL(CFG) of the machine (44_host R210). -/
def State.legal (s : State) : Bool := legalParams s.hw s.params

/-- CAPS, a constant of the build (10_state R29). -/
def capsWord (h : Hardware) : Word :=
  (h.fill ++ 0#7 ++ BitVec.ofBool (h.order == .msb) ++ 0#3 ++ BitVec.ofNat 5 h.ejMax ++ 0#3 ++ BitVec.ofNat 5 h.eiMax
    : BitVec 32)

/-- The registers of REG (10_state R21 to R30). -/
inductive Reg where
  | cfg
  | srcLen
  | dstCap
  | cmd
  | status
  | outCount
  | srcUsed
  | ctrl
  | caps
  | reserved
deriving DecidableEq, Repr

/-- The register a word offset names (10_state R21 to R30). -/
def regOfIndex (k : Nat) : Reg :=
  match k with
  | 0 => .cfg
  | 1 => .srcLen
  | 2 => .dstCap
  | 3 => .cmd
  | 4 => .status
  | 5 => .outCount
  | 6 => .srcUsed
  | 7 => .ctrl
  | 8 => .caps
  | _ => .reserved

/-- The register an access reaches: a whole 32-bit word at a word-aligned offset, or none (20_memory R51, R57). -/
def accessReg (off : BitVec 6) (width : Width) : Option Reg :=
  if width = .word ∧ off.toNat % 4 = 0 then some (regOfIndex (off.toNat / 4)) else none

/-- The byte of a register at bus byte address a + k (20_memory R55). -/
def lane (w : Word) (k : Nat) : Byte := w.extractLsb' (8 * k) 8

end Sys2Proof.Machine
end

