-- ==== Sys2Proof/Machine/Flags.lean ====
section
/-! DEFINITION. The one-bit states the host sees. The core has no condition codes (10_state R39): STATUS, CTRL and irq
are all there is. -/

namespace Sys2Proof.Machine

/-- The value of an error code in STATUS.ERR (60_exceptions R240). -/
def ErrCode.code : ErrCode → BitVec 4
  | .ok => 0#4
  | .param => 1#4
  | .capacity => 2#4
  | .srcExhausted => 3#4
  | .badOffset => 4#4
  | .badLength => 5#4
  | .badCmd => 6#4

/-- STATUS as the host reads it (10_state R25). -/
def statusWord (r : Regs) : Word :=
  (0#20 ++ r.err.code ++ 0#6 ++ BitVec.ofBool r.done ++ BitVec.ofBool r.busy : BitVec 32)

/-- CTRL as the host reads it (10_state R28). -/
def ctrlWord (r : Regs) : Word := (0#31 ++ BitVec.ofBool r.irqEn : BitVec 32)

/-- The output line irq = STATUS.DONE AND CTRL.IRQ_EN (60_exceptions R248). -/
def State.irq (s : State) : Bool := s.regs.done && s.regs.irqEn

end Sys2Proof.Machine
end

