-- ==== Sys2Proof/Machine/Ops.lean ====
section
/-! DEFINITION. The named operations over memory and registers, and how a command ends: `complete` and `abort` are the
core's whole exception entry (60_exceptions R243, R246, R249). -/

namespace Sys2Proof.Machine

/-! ## Memory -/

/-- The canonical form: addresses strictly rising. -/
def Memory.wf : Memory → Bool
  | [] => true
  | [_] => true
  | a :: b :: m => decide (a.1 < b.1) && Memory.wf (b :: m)

/-- The listed byte at an address, if there is one. -/
def Memory.lookup : Memory → Nat → Option Byte
  | [], _ => none
  | c :: m, a => if a = c.1 then some c.2 else if a < c.1 then none else Memory.lookup m a

/-- Store a byte, keeping the canonical form. -/
def Memory.write : Memory → Nat → Byte → Memory
  | [], a, v => [(a, v)]
  | c :: m, a, v => if a < c.1 then (a, v) :: c :: m else if a = c.1 then (a, v) :: m else c :: Memory.write m a v

/-- The bytes at n and above. -/
def Memory.dropBelow (m : Memory) (n : Nat) : Memory := m.filter fun c => decide (n ≤ c.1)

/-- n entries from address a, each holding v. -/
def Memory.filled (v : Byte) : Nat → Nat → Memory
  | _, 0 => []
  | a, n + 1 => (a, v) :: Memory.filled v (a + 1) n

/-- DST[i] (20_memory R53): the byte written last; else what the newest command that left it unspecified left; else
what it held before anything wrote it. -/
def Dest.read (d : Dest) (i : Nat) : Byte :=
  match d.cells.lookup i with
  | some b => b
  | none =>
    match d.lost.find? fun l => decide (i < l.cap) with
    | some l => Config.freeDst l.draw i
    | none => Config.unwrittenDst i

/-- MemWrite(DST, i, 1, v). -/
def State.putDst (i : Nat) (v : Byte) (s : State) : State := { s with dst.cells := s.dst.cells.write i v }

/-- The DST index of the system byte SRC[i] stands on, where the platform has bound that byte to DST as well. -/
def Span.home (sp : Span) (i : Nat) : Option Nat :=
  if sp.src ≤ i ∧ i < sp.src + sp.len then some (sp.dst + (i - sp.src)) else none

/-- The same over all the shared bytes; none where SRC[i] is SRC's alone. -/
def Placement.home (p : Placement) (i : Nat) : Option Nat := p.shared.findSome? fun sp => sp.home i

/-- SRC[i] (20_memory R52): a byte shared with DST reads as DST's; a byte nobody wrote is a free byte (log entry 10). -/
def State.srcByte (s : State) (i : Nat) : Byte :=
  match s.place.home i with
  | some j => s.dst.read j
  | none => (s.src.lookup i).getD (Config.unwrittenSrc i)

/-- A byte stored in SRC from outside the core: a byte shared with DST has its one home there. -/
def State.putSrc (i : Nat) (v : Byte) (s : State) : State :=
  match s.place.home i with
  | some j => s.putDst j v
  | none => { s with src := s.src.write i v }

/-- Every byte of DST[0..cap) takes a free value (60_exceptions R244, 70_reset R271). -/
def Dest.lose (d : Dest) (cap draw : Nat) : Dest :=
  { cells := d.cells.dropBelow cap,
    lost := if cap = 0 then d.lost else ⟨cap, draw⟩ :: d.lost.filter fun l => decide (cap < l.cap) }

/-- An entry of WIN (10_state R31); one not listed is unspecified. -/
def Window.entry (w : Window) (i : Nat) : Byte := (w.cells.lookup i).getD (Config.freeWin w.draw i)

/-! ## Where the buffers stand -/

/-- SRC[0..srcLen) and DST[0..dstCap) have a system byte in common (70_reset R283). -/
def Placement.overlaps (p : Placement) (srcLen dstCap : Nat) : Bool :=
  p.shared.any fun sp => decide (0 < sp.len) && decide (sp.src < srcLen) && decide (sp.dst < dstCap)

/-- The buffers SRC_LEN and DST_CAP give overlap. -/
def State.overlaps (s : State) : Bool := s.place.overlaps s.regs.srcLen.toNat s.regs.dstCap.toNat

/-- Why no command may run on the buffers as they are placed, if one may not (70_reset R283, 20_memory R60). -/
def State.misplaced (s : State) : Option Refusal :=
  if s.place.plain = false then some .deviceBuffer else if s.overlaps then some .bufferOverlap else none

/-! ## What a command leaves unspecified -/

/-- DST[0..DST_CAP) becomes unspecified (60_exceptions R244). -/
def State.loseDst (s : State) : State :=
  { s with dst := s.dst.lose s.regs.dstCap.toNat s.draws, draws := s.draws + 1 }

/-- SRC_USED becomes unspecified (10_state R27, 93 U4). -/
def State.loseSrcUsed (s : State) : State :=
  { s with regs.srcUsed := Config.freeWord s.draws, draws := s.draws + 1 }

/-- WIN and WCUR become unspecified (40_window R107, 93 U7); WCUR keeps its EI_MAX bits (log entry 7). -/
def State.loseWin (s : State) : State :=
  { s with win := { cells := [], draw := s.draws, cur := Config.freeCursor s.draws % 2 ^ s.hw.eiMax },
           draws := s.draws + 1 }

/-! ## What the host has seen -/

/-- The last command gives way to the next: what it wrote stays unseen if its completion was (20_memory R63 makes it
visible by that alone; log entry 29). -/
def Unseen.supersede (u : Unseen) : Unseen :=
  match u.last with
  | none => u
  | some w => { last := none, older := if w = 0 then u.older else ⟨0, w⟩ :: u.older.filter fun e => decide (w < e.hi) }

/-- The host sees the last command complete: the bytes that one wrote are visible, whatever hid them (R63). -/
def Unseen.see (u : Unseen) : Unseen :=
  match u.last with
  | none => u
  | some w =>
    { last := none, older := (u.older.map fun e => { e with lo := max e.lo w }).filter fun e => decide (e.lo < e.hi) }

/-- The host sees it if it looks and finds DONE = 1, or if irq rises (R63). -/
def Unseen.seeIf (b : Bool) (u : Unseen) : Unseen := if b then u.see else u

/-- A command completes with DST[0..wrote) written. -/
def Unseen.record (wrote : Nat) (u : Unseen) : Unseen := { u.supersede with last := some wrote }

/-- The host may not rely on DST[i] (R63). -/
def Unseen.hides (u : Unseen) (i : Nat) : Bool :=
  u.last.any (fun w => decide (i < w)) || u.older.any fun e => decide (e.lo ≤ i) && decide (i < e.hi)

/-! ## Completion: the core's exception entry -/

/-- -1 as a 32-bit pattern, OUT_COUNT of a failed command (10_state R26). -/
def errorCount : Word := 0xFFFFFFFF#32

/-- complete(code) (60_exceptions R246) of a command that wrote DST[0..wrote). The host has yet to see it, unless irq
rises: it does where IRQ_EN = 1 and DONE was 0 (R248, 20_memory R63). -/
def complete (code : ErrCode) (wrote : Nat) (s : State) : State :=
  { s with
    regs.err := code
    regs.outCount := if code = .ok then s.regs.outCount else errorCount
    regs.busy := false
    regs.done := true
    eng.phase := .idle
    unseen := (s.unseen.record wrote).seeIf (s.regs.irqEn && !s.regs.done) }

/-- A command ends without error: its results are written, then complete(ERR_OK); the window is discarded (R246,
40_window R107). It wrote OUT_COUNT bytes (10_state R26). -/
def succeed (outCount srcUsed : Word) (s : State) : State :=
  complete .ok outCount.toNat ({ s with regs.outCount := outCount, regs.srcUsed := srcUsed }).loseWin

/-- raise Error(code) once a command runs: it ends at once (60_exceptions R243) and leaves DST[0..DST_CAP), SRC_USED and
the window unspecified (R244). Which of those DST bytes it wrote the spec does not say (R245): all count (log entry 22). -/
def abort (code : ErrCode) (s : State) : State := complete code s.regs.dstCap.toNat s.loseDst.loseSrcUsed.loseWin

/-- raise Error(code) before the command touched SRC, DST or WIN (60_exceptions R241, R244): only the registers of the
outcome change, SRC_USED among them (log entry 15). -/
def reject (code : ErrCode) (s : State) : State := complete code 0 s.loseSrcUsed

/-- What an operation gives that may raise Error(code): its value and the state, or the code and the state it was raised
in. -/
abbrev Raise (α : Type) := Except (ErrCode × State) α

/-- The step a phase takes: on to the state reached, or the command's end. -/
def settle : Raise State → Out
  | .ok s => .next s
  | .error (code, s) => .next (abort code s)

end Sys2Proof.Machine
end

