-- ==== Sys2Proof/Machine/Window.lean ====
section
/-! DEFINITION. The window buffer (spec/40_window.md). -/

namespace Sys2Proof.Machine

/-- N of the running command (40_window R100). -/
def State.n (s : State) : Nat := winSize s.params

/-- WIN_INIT (R101): WIN[0..N) <- FILL, WCUR <- 0; entries at N and above keep what they held. -/
def winInit (s : State) : State :=
  { s with win.cells := Memory.filled s.hw.fill 0 s.n ++ s.win.cells.dropBelow s.n, win.cur := 0 }

/-- WIN_WRITE(b) (R102). -/
def winWrite (b : Byte) (s : State) : State :=
  { s with win.cells := s.win.cells.write s.win.cur b, win.cur := (s.win.cur + 1) % s.n }

/-- WIN_READBACK(off) (R103): the offset is checked before any entry is read (R104); no state changes. -/
def winReadback (off : Nat) (s : State) : Raise Byte :=
  if off < 1 ∨ s.n < off then .error (.badOffset, s) else .ok (s.win.entry ((s.win.cur + s.n - off) % s.n))

/-- WIN_WRITE of SRC[i], SRC[i + 1], ..., the bytes a token consumes (42_match R157). -/
def winConsume : Nat → Nat → State → State
  | _, 0, s => s
  | i, k + 1, s => winConsume (i + 1) k (winWrite (s.srcByte i) s)

end Sys2Proof.Machine
end

