-- ==== Sys2Proof/Machine/Framer.lean ====
section
/-! DEFINITION. The bitstream framer (spec/41_framer.md). -/

namespace Sys2Proof.Machine

/-! ## Writer -/

/-- BW_INIT (R121). -/
def bwInit (s : State) : State := { s with eng.obits := 0, eng.oacc := 0#8 }

/-- STORE_BYTE(k, v) (R123). -/
def storeByte (k : Nat) (v : Byte) (s : State) : Raise State :=
  if s.regs.dstCap.toNat ≤ k then .error (.capacity, s) else .ok (s.putDst k v)

/-- A byte with one bit set to b. -/
def setBit (a : Byte) (p : Nat) (b : Bool) : Byte :=
  if b then a ||| (1#8 <<< p) else a &&& ~~~(1#8 <<< p)

/-- PUT_BIT(b), first half (R122): the bit into OACC at its position, OBITS on by one. With DST_CAP = 0xFFFF_FFFF the
bit whose byte does not fit takes OBITS to 2^35, one more than its 35 bits hold: the model does not wrap, and the failed
command keeps that number (log entry 18, DESIGN CHOICE). -/
def accBit (b : Bool) (s : State) : State :=
  { s with eng.oacc := setBit s.eng.oacc (posIn s.hw.order s.eng.obits) b, eng.obits := s.eng.obits + 1 }

/-- PUT_BIT(b), second half (R122): a byte just completed is stored, and OACC cleared. -/
def storeFull (s : State) : Raise State :=
  if s.eng.obits % 8 = 0 then
    match storeByte (s.eng.obits / 8 - 1) s.eng.oacc s with
    | .ok t => .ok { t with eng.oacc := 0#8 }
    | .error e => .error e
  else .ok s

/-- PUT_BIT(b) (R122). -/
def putBit (b : Bool) (s : State) : Raise State := storeFull (accBit b s)

/-- PUT_BIT of each bit in turn: PUT_FLAG, PUT_LIT and PUT_MATCH of a token put the bits of its encoding (R124 to
R127). -/
def putBits : List Bool → State → Raise State
  | [], s => .ok s
  | b :: bits, s =>
    match putBit b s with
    | .ok t => putBits bits t
    | .error e => .error e

/-- FLUSH (R128): the partial byte is stored, OBITS is not advanced. -/
def flush (s : State) : Raise State :=
  if s.eng.obits % 8 = 0 then .ok s else storeByte (s.eng.obits / 8) s.eng.oacc s

/-! ## Reader -/

/-- BR_INIT (R130). -/
def brInit (s : State) : State := { s with eng.ibits := 0 }

/-- Stream bit t of SRC (30_encoding R73). -/
def State.streamBit (s : State) (t : Nat) : Bool := (s.srcByte (t / 8)).getLsbD (posIn s.hw.order t)

/-- The w stream bits from t on. -/
def State.streamBits (s : State) (t w : Nat) : List Bool := (List.range w).map fun i => s.streamBit (t + i)

/-- GET_BITS(w) (R131), giving the field's stream bits: all lie inside SRC, or none is read. -/
def getBits (w : Nat) (s : State) : Raise (List Bool × State) :=
  if 8 * s.regs.srcLen.toNat < s.eng.ibits + w then .error (.srcExhausted, s)
  else .ok (s.streamBits s.eng.ibits w, { s with eng.ibits := s.eng.ibits + w })

/-- GET_FLAG (R132): the flag, also in TOK_FLAG. -/
def getFlag (s : State) : Raise (Bool × State) :=
  match getBits 1 s with
  | .error e => .error e
  | .ok (bits, t) => .ok (bits.headD false, { t with eng.tokFlag := bits.headD false })

/-- The payload bits of a token: GET_LIT's one field (R133), or GET_MATCH's two, the offset first (R134). -/
def getPayload (flag : Bool) (s : State) : Raise (List Bool × State) :=
  match flag with
  | true => getBits 8 s
  | false =>
    match getBits s.params.ei s with
    | .error e => .error e
    | .ok (offBits, t) =>
      match getBits s.params.ej t with
      | .error e => .error e
      | .ok (lenBits, u) => .ok (offBits ++ lenBits, u)

/-- The token after its flag, decoded from the stream at IBITS. A token cut off by the end of SRC is not a token
(30_encoding R81). -/
def fetchToken (flag : Bool) (s : State) : Raise (Instr × State) :=
  match getPayload flag s with
  | .error e => .error e
  | .ok (bits, t) =>
    match decodePayload s.hw.order s.params flag bits with
    | .ok (i, _) => .ok (i, t)
    | .error _ => .error (.srcExhausted, t)

end Sys2Proof.Machine
end

