-- ==== Sys2Proof/Machine/MatchEngine.lean ====
section
/-! DEFINITION. The match engine (spec/42_match_engine.md sections 1 and 2). -/

namespace Sys2Proof.Machine

/-- How far the bytes from a and from b agree, up to a cap (R150). The comparison runs on into the bytes being matched. -/
def commonPrefix (f : Nat → Byte) : Nat → Nat → Nat → Nat
  | _, _, 0 => 0
  | a, b, cap + 1 => if f a = f b then commonPrefix f (a + 1) (b + 1) cap + 1 else 0

/-- CAP(pos) (R150). -/
def matchCap (pr : Params) (n pos : Nat) : Nat := min (lmax pr) (n - pos)

/-- ML(pos, off) (R150), of n input bytes f. The bytes behind pos are taken from SRC, which R151 allows. -/
def matchLength (pr : Params) (f : Nat → Byte) (n pos off : Nat) : Nat :=
  commonPrefix f (pos - off) pos (matchCap pr n pos)

/-- The match found so far. -/
structure Best where
  len : Nat
  off : Nat
deriving DecidableEq, Repr

/-- k offsets from off on, ascending; a strictly longer match replaces the best (R153, R154). -/
def scanOffsets (ml : Nat → Nat) : Nat → Nat → Best → Best
  | _, 0, best => best
  | off, k + 1, best =>
    scanOffsets ml (off + 1) k (if best.len < ml off then { len := ml off, off := off } else best)

/-- FIND at pos (R153): offsets 1..min(N, pos), skipped when no match of P bytes is possible. -/
def findMatch (pr : Params) (f : Nat → Byte) (n pos : Nat) : Best :=
  if pr.p ≤ matchCap pr n pos then
    scanOffsets (matchLength pr f n pos) 1 (min (winSize pr) pos) { len := 0, off := 0 }
  else { len := 0, off := 0 }

/-- The token EMIT chooses: greedy (R156). -/
def chooseToken (pr : Params) (f : Nat → Byte) (pos : Nat) (best : Best) : Instr :=
  if pr.p ≤ best.len then .matchTok best.off best.len else .lit (f pos)

/-- How many input bytes that token consumes (R157). -/
def consumed (pr : Params) (best : Best) : Nat := if pr.p ≤ best.len then best.len else 1

/-- Phase C_FIND: while POS < n search (R153), then flush (R160). R160 names no phase for its loop's test: that C_FIND is
visited at POS = n too, to make it and go on to C_FLUSH, is the model's choice (log entry 30, DESIGN CHOICE). -/
def engineFind (s : State) : Out :=
  if s.eng.pos < s.regs.srcLen.toNat then
    let best := findMatch s.params s.srcByte s.regs.srcLen.toNat s.eng.pos
    .next { s with eng.bestLen := best.len, eng.bestOff := best.off, eng.phase := .cEmit }
  else .next { s with eng.phase := .cFlush }

/-- EMIT (R157): the token's bits, its bytes into the window, POS on. -/
def emit (s : State) : Raise State :=
  let best : Best := { len := s.eng.bestLen, off := s.eng.bestOff }
  match putBits (tokenBits s.hw.order s.params (chooseToken s.params s.srcByte s.eng.pos best)) s with
  | .error e => .error e
  | .ok t =>
    let u := winConsume s.eng.pos (consumed s.params best) t
    .ok { u with eng.pos := s.eng.pos + consumed s.params best, eng.phase := .cFind }

/-- Phase C_EMIT. No run has POS + the bytes consumed above SRC_LEN; the guard is the model's (log entry 13). -/
def engineEmit (s : State) : Out :=
  if s.eng.pos + consumed s.params { len := s.eng.bestLen, off := s.eng.bestOff } ≤ s.regs.srcLen.toNat then
    settle (emit s)
  else .fault .srcOutOfRange

/-- Phase C_FLUSH (41_framer R128), and the results of ENCODE (R160). -/
def engineFlush (s : State) : Out :=
  match flush s with
  | .error e => settle (.error e)
  | .ok t => .next (succeed (BitVec.ofNat 32 (bytesFor t.eng.obits)) t.regs.srcLen t)

end Sys2Proof.Machine
end

