-- ==== Sys2Proof/Machine/Codec.lean ====
section
/-! DEFINITION. ENCODE and DECODE as functions of the parameters and the bytes, "the normative content of a command"
(00_scope R12), written from their pure-function forms (42_match_engine R160, 43_decoder R190). No command's step
calls them: statements compare the engine with them. Bus.lean asks ENCODE which DST bytes a running COMPRESS writes. -/

namespace Sys2Proof.Machine

/-- TOKS(S) from pos on: the tokens FIND and EMIT choose (42_match R160). fuel bounds their number; n is enough. -/
def greedyTokens (pr : Params) (f : Nat → Byte) (n : Nat) : Nat → Nat → List Instr
  | 0, _ => []
  | fuel + 1, pos =>
    if pos < n then
      let best := findMatch pr f n pos
      chooseToken pr f pos best :: greedyTokens pr f n fuel (pos + consumed pr best)
    else []

/-- BITS(S) (42_match R160). -/
def encodeStream (o : BitOrder) (pr : Params) (f : Nat → Byte) (n : Nat) : List Bool :=
  (greedyTokens pr f n n 0).flatMap (tokenBits o pr)

/-- ENCODE (42_match R160): the DST bytes, or ERR_CAPACITY when they do not fit. -/
def encodeBytes (o : BitOrder) (pr : Params) (f : Nat → Byte) (n cap : Nat) : Except ErrCode (List Byte) :=
  let bits := encodeStream o pr f n
  if bytesFor bits.length ≤ cap then .ok (pack o bits) else .error .capacity

/-- H[|H| - off], with H[j] for j < 0 read as FILL (43_decoder R190). -/
def histByte (fill : Byte) (h : List Byte) (off : Nat) : Byte :=
  if off ≤ h.length then h.getD (h.length - off) fill else fill

/-- A match appended to the history, cut at dstlen (43_decoder R185, R190). -/
def appendMatch (fill : Byte) (dstlen off : Nat) : Nat → List Byte → List Byte
  | 0, h => h
  | k + 1, h => if h.length < dstlen then appendMatch fill dstlen off k (h ++ [histByte fill h off]) else h

/-- What a token does to the history, or the error it raises (43_decoder R183, R186, R190; 60_exceptions R242). -/
def applyToken (fill : Byte) (pr : Params) (dstlen : Nat) (i : Instr) (h : List Byte) : Except ErrCode (List Byte) :=
  match i with
  | .lit c => .ok (h ++ [c])
  | .matchTok off len =>
    if off < 1 ∨ winSize pr < off then .error .badOffset
    else if pr.rless = false ∧ len < pr.p then .error .badLength
    else .ok (appendMatch fill dstlen off len h)
  | .nop => .ok h
  | .compress => .ok h
  | .decompress => .ok h
  | .reserved _ => .ok h

/-- The parse of DECODE from a history h and the bits left: the whole history and the bits left when its length is
dstlen. fuel bounds the tokens read; one more than the bits is enough, since every token takes bits. -/
def decodeFrom (o : BitOrder) (fill : Byte) (pr : Params) (dstlen : Nat) :
    Nat → List Byte → List Bool → Except ErrCode (List Byte × List Bool)
  | 0, _, _ => .error .srcExhausted
  | fuel + 1, h, bits =>
    if h.length = dstlen then .ok (h, bits)
    else
      match decodeToken o pr bits with
      | .error _ => .error .srcExhausted
      | .ok (i, rest) =>
        match applyToken fill pr dstlen i h with
        | .error e => .error e
        | .ok h' => decodeFrom o fill pr dstlen fuel h' rest

/-- What a DECOMPRESS gives: the DST bytes and how many SRC bytes were used. -/
structure Decoded where
  bytes   : List Byte
  srcUsed : Nat
deriving DecidableEq, Repr

/-- DECODE (43_decoder R190) of the SRC bytes given. -/
def decodeBytes (o : BitOrder) (fill : Byte) (pr : Params) (src : List Byte) (dstlen : Nat) :
    Except ErrCode Decoded :=
  let bits := unpack o src
  match decodeFrom o fill pr dstlen (bits.length + 1) [] bits with
  | .error e => .error e
  | .ok (h, rest) => .ok { bytes := h, srcUsed := bytesFor (bits.length - rest.length) }

end Sys2Proof.Machine
end

