-- ==== Sys2Proof/Machine/Tokens.lean ====
section
/-! DEFINITION. The stream tokens' meanings (spec/43_decoder.md): what D_LIT and D_MATCH do once the token is read, and
the copy D_COPY that ends a match. -/

namespace Sys2Proof.Machine

/-- One byte out: to DST at OUTN and into the window (R182, R184). -/
def emitByte (c : Byte) (s : State) : State :=
  let t := winWrite c (s.putDst s.eng.outn c)
  { t with eng.outn := s.eng.outn + 1 }

/-- LIT c (R182). OUTN < DST_CAP holds on entry in every run (R181); the guard is the model's (log entry 13). -/
def execLit (c : Byte) (s : State) : Out :=
  if s.eng.outn < s.regs.dstCap.toNat then
    let t := emitByte c s
    .next { t with eng.phase := .dFlag }
  else .fault .dstOutOfRange

/-- MATCH off, len, first half (R183): the operands are checked before any byte is written; D_COPY follows. -/
def execMatchTok (off len : Nat) (s : State) : Out :=
  let t : State := { s with eng.tokOff := off, eng.tokLen := len }
  if off < 1 ∨ t.n < off then .next (abort .badOffset t)
  else if t.params.rless = false ∧ len < t.params.p then .next (abort .badLength t)
  else .next { t with eng.copyK := 0, eng.phase := .dCopy }

/-- The loop of D_COPY (R184), at most k bytes: one read-back and one write per byte (40_window R106). -/
def copyLoop : Nat → State → Raise State
  | 0, s => .ok s
  | k + 1, s =>
    if s.eng.outn < s.regs.dstCap.toNat then
      match winReadback s.eng.tokOff s with
      | .error e => .error e
      | .ok c =>
        let t := emitByte c s
        copyLoop k { t with eng.copyK := s.eng.copyK + 1 }
    else .ok s

/-- Phase D_COPY (R184), the second half of MATCH off, len. -/
def engineCopy (s : State) : Out :=
  match copyLoop (s.eng.tokLen - s.eng.copyK) s with
  | .error e => settle (.error e)
  | .ok t => .next { t with eng.phase := .dFlag }

/-- Phase D_FLAG (R181): stop by count (R185), else read the flag. -/
def engineFlag (s : State) : Out :=
  if s.eng.outn = s.regs.dstCap.toNat then
    .next (succeed s.regs.dstCap (BitVec.ofNat 32 (bytesFor s.eng.ibits)) s)
  else
    match getFlag s with
    | .error e => settle (.error e)
    | .ok (flag, t) => .next { t with eng.phase := if flag then .dLit else .dMatch }

end Sys2Proof.Machine
end

