-- ==== Sys2Proof/Machine/Commands.lean ====
section
/-! DEFINITION. The command words' meanings (spec/44_host_commands.md section 2). -/

namespace Sys2Proof.Machine

/-- Acceptance (R212), in one step. -/
def accept (c : Command) (s : State) : State :=
  { s with regs.done := false, regs.err := .ok, regs.busy := true, eng.phase := .init, eng.cur := c,
           unseen := s.unseen.supersede }

/-- Acceptance of COMPRESS or DECOMPRESS, and the check of LEGAL(CFG) at it (R214, R215, 60_exceptions R241). A command
that goes on to access buffers that overlap or stand on a device is a run a model refuses (70_reset R283, 93 U6, U8); one
that ends with ERR_PARAM accesses none (log entry 12, DESIGN CHOICE). -/
def start (c : Command) (s : State) : Out :=
  let t := accept c s
  if t.legal then
    match t.misplaced with
    | some r => .refused r
    | none => .next t
  else .next (reject .param t)

/-- While BUSY = 1 a command word is ignored (R211, 70_reset R281). -/
def unlessBusy (s : State) (o : Out) : Out := if s.regs.busy then .next s else o

/-- NOP (R213): nothing. -/
def execNop (s : State) : Out := unlessBusy s (.next s)

/-- COMPRESS (R214): accepted here; phases INIT, C_FIND, C_EMIT and C_FLUSH run ENCODE. -/
def execCompress (s : State) : Out := unlessBusy s (start .compress s)

/-- DECOMPRESS (R215): accepted here; phases INIT, D_FLAG, D_LIT, D_MATCH and D_COPY run DECODE. -/
def execDecompress (s : State) : Out := unlessBusy s (start .decompress s)

/-- A reserved command word (R217): completes at once with ERR_BAD_CMD, whatever the word. -/
def execReserved (_w : Word) (s : State) : Out := unlessBusy s (.next (reject .badCmd s))

/-- Phase INIT (R214, R215): the window, the framer and the cursor of the command accepted. -/
def engineInit (s : State) : Out :=
  let t := winInit s
  match s.eng.cur with
  | .compress =>
    let u := bwInit t
    .next { u with eng.pos := 0, eng.phase := .cFind }
  | .decompress =>
    let u := brInit t
    .next { u with eng.outn := 0, eng.phase := .dFlag }

end Sys2Proof.Machine
end

