-- ==== Sys2Proof/Machine/Dispatch.lean ====
section
/-! DEFINITION. The meaning of each instruction, one arm per constructor. -/

namespace Sys2Proof.Machine

def exec (i : Instr) (s : State) : Host.Outcome State Fault Refusal :=
  match i with
  | .lit c => Sys2Proof.Machine.execLit c s
  | .matchTok off len => Sys2Proof.Machine.execMatchTok off len s
  | .nop => Sys2Proof.Machine.execNop s
  | .compress => Sys2Proof.Machine.execCompress s
  | .decompress => Sys2Proof.Machine.execDecompress s
  | .reserved w => Sys2Proof.Machine.execReserved w s

end Sys2Proof.Machine
end

