-- ==== Sys2Proof/Machine/Bus.lean ====
section
/-! DEFINITION. The host's side: register accesses (spec/44_host_commands.md section 3), the buffers, the waits, reset
(spec/70_reset_and_hazards.md section 1), and the pseudo-instructions of the host notation (30_encoding R87). -/

namespace Sys2Proof.Machine

/-- The effect of a write to a register (R211, R216, R219). CMD runs the command word; the rest change registers only.
IRQ_EN set while DONE = 1 makes irq rise, which the host sees (60_exceptions R248, 20_memory R63). -/
def writeReg (r : Reg) (v : Word) (s : State) : Out :=
  match r with
  | .cfg => if s.regs.busy then .next s else .next { s with regs.cfg := Cfg.ofWord v }
  | .srcLen => if s.regs.busy then .next s else .next { s with regs.srcLen := v }
  | .dstCap => if s.regs.busy then .next s else .next { s with regs.dstCap := v }
  | .cmd => exec (decodeWord v) s
  | .status => if v.getLsbD 1 then .next { s with regs.done := false } else .next s
  | .ctrl =>
    let rises := !s.irq && (s.regs.done && v.getLsbD 0)
    .next { s with regs.irqEn := v.getLsbD 0, unseen := s.unseen.seeIf rises }
  | .outCount => .next s
  | .srcUsed => .next s
  | .caps => .next s
  | .reserved => .next s

/-- A write on the register bus; one that is not a whole aligned word has no effect (20_memory R57). -/
def busWrite (off : BitVec 6) (width : Width) (v : Word) (s : State) : Out :=
  match accessReg off width with
  | some r => writeReg r v s
  | none => .next s

/-- The host's read returns v. -/
def returnData (v : Word) (s : State) : State := { s with host.rdata := v }

/-- The host's read returns an unspecified value. -/
def returnFree (s : State) : State := { s with host.rdata := Config.freeWord s.draws, draws := s.draws + 1 }

/-- A read of STATUS; the host sees DONE = 1 by it (20_memory R63). -/
def readStatus (s : State) : State :=
  { returnData (statusWord s.regs) s with unseen := s.unseen.seeIf s.regs.done }

/-- OUT_COUNT and SRC_USED are unspecified: a command runs (93 U3), or the host has not seen the last one complete
(20_memory R63). -/
def State.hidesResults (s : State) : Bool := s.regs.busy || s.unseen.last.isSome

/-- What a read of a register returns (R218). -/
def readReg (r : Reg) (s : State) : State :=
  match r with
  | .cfg => returnData s.regs.cfg.word s
  | .srcLen => returnData s.regs.srcLen s
  | .dstCap => returnData s.regs.dstCap s
  | .cmd => returnData 0#32 s
  | .status => readStatus s
  | .outCount => if s.hidesResults then returnFree s else returnData s.regs.outCount s
  | .srcUsed => if s.hidesResults then returnFree s else returnData s.regs.srcUsed s
  | .ctrl => returnData (ctrlWord s.regs) s
  | .caps => returnData (capsWord s.hw) s
  | .reserved => returnData 0#32 s

/-- A read on the register bus; one that is not a whole aligned word returns 0 (20_memory R57). -/
def busRead (off : BitVec 6) (width : Width) (s : State) : State :=
  match accessReg off width with
  | some r => readReg r s
  | none => returnData 0#32 s

/-- Whether DST[i] is a byte the running command writes: with DECOMPRESS every byte below DST_CAP; with a COMPRESS that
is to succeed, the bytes ENCODE gives (20_memory R61, 93 U10). A command that is to fail writes no byte at DST_CAP or
above, and which of the others it writes the spec does not say (60_exceptions R245; log entry 22). -/
def State.writesDst (s : State) (i : Nat) : Bool :=
  match s.eng.cur with
  | .compress =>
    match encodeBytes s.hw.order s.params s.srcByte s.regs.srcLen.toNat s.regs.dstCap.toNat with
    | .ok bytes => decide (i < bytes.length)
    | .error _ => decide (i < s.regs.dstCap.toNat)
  | .decompress => decide (i < s.regs.dstCap.toNat)

/-- DST[i] is unspecified to the host: a command that writes it runs (93 U3), or one that wrote it has not been seen to
complete (20_memory R63). -/
def State.hidesDst (s : State) (i : Nat) : Bool := s.regs.busy && s.writesDst i || s.unseen.hides i

/-- A host read of DST[i]: unspecified where the host may not rely on it, the byte as it stands otherwise. -/
def readDst (i : Nat) (s : State) : State :=
  if s.hidesDst i then
    { s with host.rdata := (Config.freeDst s.draws i).setWidth 32, draws := s.draws + 1 }
  else returnData ((s.dst.read i).setWidth 32) s

/-- Reset (70_reset R270, R271): the registers and the engine as after reset, WIN unspecified; if a command ran, its
DST[0..DST_CAP) becomes unspecified. SRC, the build and what the outside does next stay. What an earlier command wrote
in DST that the host never saw complete stays unseen (20_memory R63). -/
def applyReset (s : State) : State :=
  let t := if s.regs.busy then s.loseDst else s
  { t with
    regs := Regs.reset
    eng := Engine.reset
    win := { cells := [], draw := t.draws, cur := 0 }
    unseen := s.unseen.supersede
    draws := t.draws + 1 }

/-- `WAIT_DONE`. -/
def pseudoWaitDone : List Input := [.waitDone]

/-- `CLEAR_DONE` is `WR STATUS, 0x0000_0002`. -/
def pseudoClearDone : List Input := [.write 0x10#6 .word 0x00000002#32]

/-- `SETCFG ei, ej, p, r` is `WR CFG, (r << 24) | (p << 16) | (ej << 8) | ei`. -/
def pseudoSetCfg (ei ej p r : Word) : List Input :=
  [.write 0x00#6 .word ((r <<< 24) ||| (p <<< 16) ||| (ej <<< 8) ||| ei)]

/-- `RUNC n, cap`. -/
def pseudoRunC (n cap : Word) : List Input :=
  [.write 0x04#6 .word n, .write 0x08#6 .word cap, .write 0x0C#6 .word 0x00000001#32] ++ pseudoWaitDone

/-- `RUND n, dstlen`. -/
def pseudoRunD (n dstlen : Word) : List Input :=
  [.write 0x04#6 .word n, .write 0x08#6 .word dstlen, .write 0x0C#6 .word 0x00000002#32] ++ pseudoWaitDone

end Sys2Proof.Machine
end

