-- ==== Sys2Proof/Machine/Engine.lean ====
section
/-! DEFINITION. The engine's step, one phase of 10_state R32 at a time, and the step the outside takes. -/

namespace Sys2Proof.Machine

/-- Phases D_LIT and D_MATCH: the token after its flag is read and executed (43_decoder R182, R183). -/
def engineToken (flag : Bool) (s : State) : Out :=
  match fetchToken flag s with
  | .error e => settle (.error e)
  | .ok (i, t) => exec i t

/-- One step of the engine. IDLE waits (60_exceptions R255). -/
def engineStep (s : State) : Out :=
  match s.eng.phase with
  | .idle => .next s
  | .init => engineInit s
  | .cFind => engineFind s
  | .cEmit => engineEmit s
  | .cFlush => engineFlush s
  | .dFlag => engineFlag s
  | .dLit => engineToken true s
  | .dMatch => engineToken false s
  | .dCopy => engineCopy s

/-- What an access of the outside to a buffer gives: one on a device the spec does not describe (93 U8). -/
def bufferAccess (s : State) (o : Out) : Out := if s.place.plain then o else .refused .deviceBuffer

/-- What the outside does to a buffer while no command may run on it (70_reset R283, 20_memory R60, 93 U5). -/
def unlessRunning (s : State) (o : Out) : Out := if s.regs.busy then .refused .bufferHazard else o

/-- What an input does; s has it taken off the list. A wait that is not over stays on the list, and the engine takes the
step (log entry 20). A byte stored in SRC or DST while BUSY = 1 refuses the run (70_reset R283), at whatever index: that
indices at SRC_LEN or DST_CAP and above count too is the model's choice (log entry 11, DESIGN CHOICE). So does binding a
buffer elsewhere while BUSY = 1 (log entry 12, DESIGN CHOICE). -/
def hostStep (i : Input) (s : State) : Out :=
  match i with
  | .engine => engineStep s
  | .write off width v => busWrite off width v s
  | .read off width => .next (busRead off width s)
  | .srcWrite index b => unlessRunning s (bufferAccess s (.next (s.putSrc index.toNat b)))
  | .dstWrite index b => unlessRunning s (bufferAccess s (.next (s.putDst index.toNat b)))
  | .dstRead index => bufferAccess s (.next (readDst index.toNat s))
  | .bind p => unlessRunning s (.next { s with place := p })
  | .waitDone =>
    let t := readStatus s
    if s.regs.done then .next t else engineStep { t with host.inputs := .waitDone :: s.host.inputs }
  | .waitIrq => if s.irq then .next s else engineStep { s with host.inputs := .waitIrq :: s.host.inputs }
  | .reset => .next (applyReset s)

/-- The next command word or token, given the machine's place for it: a CMD write while IDLE, or the payload of a token
in a DECOMPRESS whose flag was just read, under CFG = `tableParams` (log entry 16). -/
def placeCommand (w : Word) (s : State) : State :=
  { s with host.inputs := .write 0x0C#6 .word w :: s.host.inputs, regs.busy := false, eng.phase := .idle }

/-- Bytes stored in SRC from index a on. -/
def storeSrc : Nat → List Byte → Memory → Memory
  | _, [], m => m
  | a, b :: bytes, m => storeSrc (a + 1) bytes (m.write a b)

/-- A DECOMPRESS in progress, one flag read, over the bytes given, in a SRC of its own. -/
def placeToken (bytes : List Byte) (s : State) : State :=
  let flag := ((unpack s.hw.order bytes).headD false)
  let t : State :=
    { s with
      src := storeSrc 0 bytes s.src
      place := { shared := [], plain := true }
      regs.cfg := { ei := 4#5, ej := 2#5, p := 2#8, rless := true }
      regs.srcLen := BitVec.ofNat 32 bytes.length
      regs.dstCap := 0xFFFFFFFF#32
      regs.busy := true
      regs.done := false
      regs.err := .ok
      eng.cur := .decompress
      unseen := s.unseen.supersede
      eng.phase := if flag then .dLit else .dMatch
      eng.tokFlag := flag
      eng.ibits := 1
      eng.outn := 0
      host.inputs := .engine :: s.host.inputs }
  winInit t

end Sys2Proof.Machine
end

