-- ==== Sys2Proof/Machine/Step.lean ====
section
/-! DEFINITION. The step, and the placing of one instruction where it fetches its next. -/

namespace Sys2Proof.Machine

/-- The next input acts; when none is left, the engine does (70_reset R286: an accepted command's engine keeps taking
steps until it completes). -/
def step (s : State) : Host.Outcome State Fault Refusal :=
  match s.host.inputs with
  | [] => engineStep s
  | i :: rest => hostStep i { s with host.inputs := rest }

/-- s with the instruction stored where step fetches its next (log entry 16). -/
def State.withFetchWord (s : State) (nbits w : Nat) : State :=
  if nbits = 32 then placeCommand (BitVec.ofNat 32 w) s else placeToken (tableBytes nbits w) s

end Sys2Proof.Machine
end

