-- ==== Sys2Proof/Safety.lean ====
section
/-! DEFINITION. What counts as a good state of the machine (10_state R42 and what R42 leaves to the phases), and the
terms the claims use: what the window holds, and the stream written so far. -/

namespace Sys2Proof.Machine

/-- A step that does not stop. -/
def Runs (s : State) : Prop := ∃ t, step s = .next t

/-- The lost prefixes of DST in canonical form: none empty, lengths strictly rising. -/
def lostWf : List Lost → Bool
  | [] => true
  | [l] => decide (0 < l.cap)
  | l :: m :: rest => decide (0 < l.cap) && decide (l.cap < m.cap) && lostWf (m :: rest)

/-- The first n bytes of SRC. -/
def State.srcList (s : State) (n : Nat) : List Byte := (List.range n).map s.srcByte

/-- The window holds a history: read back at any legal offset it gives the history's bytes, and FILL before them
(40_window R105). -/
def WindowHolds (s : State) (h : List Byte) : Prop :=
  ∀ off, 1 ≤ off → off ≤ s.n → s.win.entry ((s.win.cur + s.n - off) % s.n) = histByte s.hw.fill h off

/-- Stream bit t of what the writer has written: in DST once its byte is complete, in OACC before (10_state R34). -/
def State.writtenBit (s : State) (t : Nat) : Bool :=
  if t / 8 < s.eng.obits / 8 then (s.dst.read (t / 8)).getLsbD (posIn s.hw.order t)
  else s.eng.oacc.getLsbD (posIn s.hw.order t)

/-- The stream the writer has written so far. -/
def State.written (s : State) : List Bool := (List.range s.eng.obits).map s.writtenBit

/-- The bit writer is sound: its complete bytes fit DST, and OACC holds only the bits of the partial byte, "with
unwritten positions 0" (10_state R34, R42). -/
structure WriterOk (s : State) : Prop where
  stored : s.eng.obits / 8 ≤ s.regs.dstCap.toNat
  clear  : ∀ j, s.eng.obits % 8 ≤ j → j < 8 → s.eng.oacc.getLsbD (posIn s.hw.order j) = false

/-- The encoder runs (10_state R42 for COMPRESS). -/
structure EncoderOk (s : State) : Prop where
  cur    : s.eng.cur = .compress
  cursor : s.win.cur < s.n
  pos    : s.eng.pos ≤ s.regs.srcLen.toNat
  writer : WriterOk s

/-- The decoder runs (10_state R42 for DECOMPRESS). -/
structure DecoderOk (s : State) : Prop where
  cur    : s.eng.cur = .decompress
  cursor : s.win.cur < s.n
  outn   : s.eng.outn ≤ s.regs.dstCap.toNat
  ibits  : s.eng.ibits ≤ 8 * s.regs.srcLen.toNat

/-- What FIND has left for EMIT (42_match R153, R155). -/
structure FoundOk (s : State) : Prop where
  more : s.eng.pos < s.regs.srcLen.toNat
  len  : s.eng.bestLen ≤ matchCap s.params s.regs.srcLen.toNat s.eng.pos
  off  : s.params.p ≤ s.eng.bestLen → 1 ≤ s.eng.bestOff ∧ s.eng.bestOff ≤ min s.n s.eng.pos

/-- What D_MATCH has left for D_COPY (43_decoder R183). -/
structure MatchOk (s : State) : Prop where
  off  : 1 ≤ s.eng.tokOff ∧ s.eng.tokOff ≤ s.n
  len  : s.params.p ≤ s.eng.tokLen ∧ s.eng.tokLen ≤ lmax s.params
  copy : s.eng.copyK ≤ s.eng.tokLen

/-- What holds in each phase (log entry 17: R42's lines, each for the phases that use its register). -/
def PhaseOk (s : State) : Prop :=
  match s.eng.phase with
  | .idle => True
  | .init => True
  | .cFind => EncoderOk s
  | .cEmit => EncoderOk s ∧ FoundOk s
  | .cFlush => EncoderOk s ∧ s.eng.pos = s.regs.srcLen.toNat
  | .dFlag => DecoderOk s
  | .dLit => DecoderOk s ∧ s.eng.outn < s.regs.dstCap.toNat
  | .dMatch => DecoderOk s ∧ s.eng.outn < s.regs.dstCap.toNat
  | .dCopy => DecoderOk s ∧ MatchOk s

/-- The invariant of the machine. -/
structure Inv (s : State) : Prop where
  /-- The build is legal (00_scope R9). -/
  build   : s.hw.legal = true
  /-- Memories keep their canonical form. -/
  srcWf   : s.src.wf = true
  dstWf   : s.dst.cells.wf = true
  lostOk  : lostWf s.dst.lost = true
  winWf   : s.win.cells.wf = true
  /-- WIN has 2^EI_MAX entries (10_state R31). -/
  winSize : ∀ c ∈ s.win.cells, c.1 < 2 ^ s.hw.eiMax
  /-- BUSY = 1 exactly when PHASE is not IDLE (10_state R32). -/
  busy    : s.regs.busy = true ↔ s.eng.phase ≠ .idle
  /-- BUSY and DONE are never both 1 (10_state R25). -/
  notBoth : ¬ (s.regs.busy = true ∧ s.regs.done = true)
  /-- ERR is 0 while a command runs (44_host R218). -/
  noErr   : s.regs.busy = true → s.regs.err = .ok
  /-- A running command's parameter set is legal (44_host R212, R214). -/
  legal   : s.regs.busy = true → s.legal = true
  /-- Its buffers are plain memory and do not overlap (70_reset R283, 20_memory R60). -/
  placed  : s.regs.busy = true → s.misplaced = none
  /-- A command the host has not seen complete runs no more; on success it wrote OUT_COUNT bytes (20_memory R63, 10_state
  R26). -/
  wrote   : ∀ w, s.unseen.last = some w → s.regs.busy = false ∧ (s.regs.err = .ok → w = s.regs.outCount.toNat)
  /-- No extent an earlier command left unseen is empty. -/
  extents : ∀ e ∈ s.unseen.older, e.lo < e.hi
  phase   : PhaseOk s

/-- The command running in s has ended in t with an error raised while it ran (60_exceptions R243, R244, R246):
DST[0..DST_CAP), SRC_USED, WIN and the working registers are left out, as the spec leaves them unspecified. -/
structure Failed (code : ErrCode) (s t : State) : Prop where
  phase    : t.eng.phase = .idle
  status   : t.regs.busy = false ∧ t.regs.done = true ∧ t.regs.err = code
  outCount : t.regs.outCount = 0xFFFFFFFF#32
  args     : t.regs.cfg = s.regs.cfg ∧ t.regs.srcLen = s.regs.srcLen ∧ t.regs.dstCap = s.regs.dstCap
  irqEn    : t.regs.irqEn = s.regs.irqEn
  hw       : t.hw = s.hw
  src      : t.src = s.src ∧ t.place = s.place
  host     : t.host = s.host
  /-- The host has not seen it, unless irq rose; DST[0..DST_CAP) counts as written (20_memory R63; log entries 22, 29). -/
  unseen   : t.unseen = (s.unseen.record s.regs.dstCap.toNat).seeIf (s.regs.irqEn && !s.regs.done)
  dst      : ∀ a, s.regs.dstCap.toNat ≤ a → t.dst.read a = s.dst.read a
  /-- "SRC is unchanged" (R244), of buffers that do not overlap. -/
  srcBytes : s.overlaps = false → ∀ i, i < s.regs.srcLen.toNat → t.srcByte i = s.srcByte i

/-- A command word has ended in t before it touched SRC, DST or WIN (60_exceptions R241, 44_host R217): only STATUS,
OUT_COUNT, the unspecified SRC_USED and PHASE may differ. -/
structure Rejected (code : ErrCode) (s t : State) : Prop where
  phase    : t.eng.phase = .idle
  status   : t.regs.busy = false ∧ t.regs.done = true ∧ t.regs.err = code
  outCount : t.regs.outCount = 0xFFFFFFFF#32
  args     : t.regs.cfg = s.regs.cfg ∧ t.regs.srcLen = s.regs.srcLen ∧ t.regs.dstCap = s.regs.dstCap
  irqEn    : t.regs.irqEn = s.regs.irqEn
  hw       : t.hw = s.hw
  src      : t.src = s.src ∧ t.place = s.place
  dst      : t.dst = s.dst
  win      : t.win = s.win
  host     : t.host = s.host
  /-- The host has not seen it, unless irq rose at its end; no byte of DST is written (20_memory R63; log entry 29). -/
  unseen   : t.unseen = (s.unseen.record 0).seeIf s.regs.irqEn

/-- The command running in s has ended in t without error (60_exceptions R246), with these results. What the last step
leaves of DST is said where this is used. -/
structure Succeeded (outCount srcUsed : Word) (s t : State) : Prop where
  phase    : t.eng.phase = .idle
  status   : t.regs.busy = false ∧ t.regs.done = true ∧ t.regs.err = .ok
  results  : t.regs.outCount = outCount ∧ t.regs.srcUsed = srcUsed
  args     : t.regs.cfg = s.regs.cfg ∧ t.regs.srcLen = s.regs.srcLen ∧ t.regs.dstCap = s.regs.dstCap
  irqEn    : t.regs.irqEn = s.regs.irqEn
  hw       : t.hw = s.hw
  src      : t.src = s.src ∧ t.place = s.place
  host     : t.host = s.host
  /-- The host has not seen it, unless irq rose (20_memory R63; log entry 29). -/
  unseen   : t.unseen = (s.unseen.record outCount.toNat).seeIf (s.regs.irqEn && !s.regs.done)
  /-- SRC is never written (20_memory R52), of buffers that do not overlap. -/
  srcBytes : s.overlaps = false → ∀ i, i < s.regs.srcLen.toNat → t.srcByte i = s.srcByte i

/-- The parse of a number of tokens, and the bits left (41_framer R135). -/
def decodeTokens (o : BitOrder) (pr : Params) : Nat → List Bool → Except Reject (List Instr × List Bool)
  | 0, bits => .ok ([], bits)
  | k + 1, bits =>
    match decodeToken o pr bits with
    | .error e => .error e
    | .ok (i, rest) =>
      match decodeTokens o pr k rest with
      | .error e => .error e
      | .ok (is, rest') => .ok (i :: is, rest')

end Sys2Proof.Machine
end

