-- ==== Sys2Proof/Certificates/Slice0/Obligations.lean ====
section
/-! DEFINITION. The statements for the provers, from the numbered rules of spec/. Where a statement says "the engine's
step", no input is pending: step is then the engine's (EngineTurn). -/

open Sys2Proof Sys2Proof.Machine

/-! ## The encodings (30_encoding) -/

/-- Every well-formed instruction's code decodes to it, in both bit orders and under every parameter set. -/
def Obligations.DecodeInvertsEncode : Prop :=
  ∀ (o : BitOrder) (pr : Params) (i : Instr), i.wf pr = true → decode o pr (encode o pr i) = some i

/-- What the token decoder accepts is the encoding of the well-formed token it answers, followed by the bits it leaves:
no bit is read twice or dropped (R75, R76, R77). -/
def Obligations.DecodedTokenReencodes : Prop :=
  ∀ (o : BitOrder) (pr : Params) (bits rest : List Bool) (i : Instr),
    decodeToken o pr bits = .ok (i, rest) →
      i.isToken = true ∧ i.wf pr = true ∧ bits = tokenBits o pr i ++ rest

/-- R79: the flag alone gives a token's length, 9 or 1 + EI + EJ bits; with fewer bits there is no token. -/
def Obligations.TokenLengthFromFlag : Prop :=
  ∀ (o : BitOrder) (pr : Params) (flag : Bool) (bits : List Bool),
    let len := if flag then 9 else 1 + pr.ei + pr.ej
    (len ≤ (flag :: bits).length → ∃ i, decodeToken o pr (flag :: bits) = .ok (i, (flag :: bits).drop len)) ∧
      ((flag :: bits).length < len → ∃ e, decodeToken o pr (flag :: bits) = .error e)

/-- R72: where the bits of a field lie in each bit order, and the value read back from them; a flag is a field of
width 1. -/
def Obligations.FieldLayout : Prop :=
  ∀ (w v : Nat), v < 2 ^ w →
    (∀ o, (fieldBits o w v).length = w ∧ fieldValue o (fieldBits o w v) = v ∧
      ∀ b : Bool, fieldBits o 1 b.toNat = [b]) ∧
    (∀ i, i < w → (fieldBits .lsb w v).getD i false = v.testBit i) ∧
    (∀ i, i < w → (fieldBits .msb w v).getD i false = v.testBit (w - 1 - i)) ∧
    (∀ s : List Bool, s.length = w →
      fieldValue .lsb s = ∑ i ∈ Finset.range w, (s.getD i false).toNat * 2 ^ i ∧
      fieldValue .msb s = ∑ i ∈ Finset.range w, (s.getD i false).toNat * 2 ^ (w - 1 - i))

/-- R73: T stream bits take ceil(T/8) bytes, stream bit t lies in byte floor(t/8) at pos(t), the bits after the last are
0, and a byte is the sum of its bits; a literal field at a byte boundary is stored unchanged; this spec's build is LSB;
and the rule's own examples. -/
def Obligations.StreamBitsLieAtTheirPositions : Prop :=
  (∀ (o : BitOrder) (bits : List Bool), (pack o bits).length = (bits.length + 7) / 8 ∧
    (∀ t, t / 8 < (pack o bits).length →
      ((pack o bits).getD (t / 8) 0#8).getLsbD (posIn o t) = bits.getD t false) ∧
    (∀ k, k < (pack o bits).length → ((pack o bits).getD k 0#8).toNat =
      ∑ j ∈ Finset.range 8, (bits.getD (8 * k + j) false).toNat * 2 ^ posIn o (8 * k + j))) ∧
  (∀ t, posIn .lsb t = t % 8 ∧ posIn .msb t = 7 - t % 8) ∧
  (∀ (o : BitOrder) (before after : List Bool) (c : Byte), before.length % 8 = 0 →
    (pack o (before ++ fieldBits o 8 c.toNat ++ after)).getD (before.length / 8) 0#8 = c) ∧
  Hardware.spec.order = .lsb ∧
  pack .lsb (litBits .lsb 0x41#8) = [0x83#8, 0x00#8] ∧ pack .msb (litBits .msb 0x41#8) = [0xA0#8, 0x80#8]

/-- R135: the stored bytes of a token list, read token by token, give the same tokens, and what is left is pad. -/
def Obligations.StreamSymmetry : Prop :=
  ∀ (o : BitOrder) (pr : Params) (toks : List Instr),
    (∀ i ∈ toks, i.isToken = true ∧ i.wf pr = true) →
      ∃ k, k < 8 ∧ decodeTokens o pr toks.length (unpack o (assemble o pr toks)) = .ok (toks, List.replicate k false)

/-- R84: a command word is decoded by all of its 32 bits; and 20_memory R55: the four byte lanes of a write to CMD,
lowest address first, are bits 7..0, 15..8, 23..16 and 31..24 of that word. -/
def Obligations.CommandWordsDecode : Prop :=
  ∀ w : Word,
    (w = 0x00000000#32 → decodeWord w = .nop) ∧ (w = 0x00000001#32 → decodeWord w = .compress) ∧
    (w = 0x00000002#32 → decodeWord w = .decompress) ∧ (3 ≤ w.toNat → decodeWord w = .reserved w) ∧
    (∀ k j, k < 4 → j < 8 → (lane w k).getLsbD j = w.getLsbD (8 * k + j)) ∧
    decodeLanes [lane w 0, lane w 1, lane w 2, lane w 3] = .ok (decodeWord w)

/-- Words written out from 30_encoding R75, R76 and R84 decode to their instructions (a sanity statement). -/
def Obligations.WrittenOutWordsDecode : Prop :=
  decodeToken .lsb tableParams [true, true, false, false, false, false, false, true, false] = .ok (.lit 0x41#8, []) ∧
  decodeToken .lsb tableParams [false, true, false, false, false, true, false] = .ok (.matchTok 2 3, []) ∧
  decodeToken .msb tableParams [false, false, false, false, true, false, true] = .ok (.matchTok 2 3, []) ∧
  decodeTableWord 32 0x00000000 = some .nop ∧ decodeTableWord 32 0x00000001 = some .compress ∧
  decodeTableWord 32 0x00000002 = some .decompress ∧ decodeTableWord 32 0x80000001 = some (.reserved 0x80000001#32)

/-! ## What a step is -/

/-- A step is the engine's when no input is pending or the next one is its turn; IDLE waits (60_exceptions R255). The
list of inputs is the model's (log entry 2). -/
def Obligations.EngineTurn : Prop :=
  ∀ s : State,
    (s.host.inputs = [] → step s = engineStep s) ∧
    (∀ rest, s.host.inputs = .engine :: rest → step s = engineStep { s with host.inputs := rest }) ∧
    (s.host.inputs = [] → s.eng.phase = .idle → step s = .next s)

/-- A step runs the decoded command word: a whole-word write to CMD is exec of what the word decodes to (R211). -/
def Obligations.StepRunsCommandWord : Prop :=
  ∀ (s : State) (v : Word) (rest : List Input), s.host.inputs = .write 0x0C#6 .word v :: rest →
    step s = exec (decodeWord v) { s with host.inputs := rest }

/-- A step runs the decoded token. When the bits at IBITS decode to i in phase D_FLAG with more to produce, the flag's
step goes to D_LIT or D_MATCH, and the step there is exec of i, IBITS past the token (R181 to R183). -/
def Obligations.StepRunsDecodedToken : Prop :=
  ∀ (s : State) (w : Nat) (i : Instr), s.host.inputs = [] → s.eng.phase = .dFlag →
    s.eng.outn ≠ s.regs.dstCap.toNat → s.eng.ibits + w ≤ 8 * s.regs.srcLen.toNat →
    decodeToken s.hw.order s.params (s.streamBits s.eng.ibits w) = .ok (i, []) →
      let flag := s.streamBit s.eng.ibits
      ∃ t, step s = .next t ∧
        t = { s with eng.tokFlag := flag, eng.ibits := s.eng.ibits + 1,
                     eng.phase := if flag then .dLit else .dMatch } ∧
        step t = exec i { t with eng.ibits := s.eng.ibits + w }

/-! ## The window (40_window) -/

/-- R101, R121, R130: WIN_INIT fills WIN[0..N), keeps the entries above, and sets WCUR to 0; nothing else changes. The
engine's step in phase INIT is WIN_INIT with BW_INIT and POS = 0 for COMPRESS, or with BR_INIT and OUTN = 0 for
DECOMPRESS. -/
def Obligations.WindowInitFills : Prop :=
  ∀ s : State,
    let t := winInit s
    (∀ i, i < s.n → t.win.entry i = s.hw.fill) ∧ (∀ i, s.n ≤ i → t.win.entry i = s.win.entry i) ∧
    t.win.cur = 0 ∧ t = { s with win := t.win } ∧
    (s.host.inputs = [] → s.eng.phase = .init → s.eng.cur = .compress →
      step s = .next { t with eng.obits := 0, eng.oacc := 0#8, eng.pos := 0, eng.phase := .cFind }) ∧
    (s.host.inputs = [] → s.eng.phase = .init → s.eng.cur = .decompress →
      step s = .next { t with eng.ibits := 0, eng.outn := 0, eng.phase := .dFlag })

/-- R102: WIN_WRITE stores at the cursor and moves it modulo N; at N - 1 it wraps to 0; the byte replaced is the one
WIN_READBACK(N) returned. -/
def Obligations.WindowWriteStores : Prop :=
  ∀ (b : Byte) (s : State),
    let t := winWrite b s
    t.win.entry s.win.cur = b ∧ (∀ i, i ≠ s.win.cur → t.win.entry i = s.win.entry i) ∧
    t.win.cur = (s.win.cur + 1) % s.n ∧ (s.win.cur = s.n - 1 → t.win.cur = 0) ∧
    (s.win.cur < s.n → winReadback s.n s = .ok (s.win.entry s.win.cur)) ∧ t = { s with win := t.win }

/-- R105: after WIN_INIT and the writes of a history h, an offset reads h[k - off], or FILL beyond it. -/
def Obligations.WindowHoldsHistory : Prop :=
  ∀ (s : State) (h : List Byte) (off : Nat), 1 ≤ off → off ≤ s.n →
    winReadback off (h.foldl (fun t b => winWrite b t) (winInit s)) =
      .ok (if off ≤ h.length then h.getD (h.length - off) 0#8 else s.hw.fill)

/-- R104: an offset of 0 or above N is refused before any entry is read, and a match with such an offset ends the
command with ERR_BAD_OFFSET. -/
def Obligations.OffsetGuard : Prop :=
  ∀ (s : State) (off len : Nat), off < 1 ∨ s.n < off →
    winReadback off s = .error (.badOffset, s) ∧
    ∃ t, exec (.matchTok off len) s = .next t ∧ Failed .badOffset s t

/-! ## The framer (41_framer) -/

/-- R122, R124, R129: putting bits appends exactly those bits to the stream written so far, and changes nothing but the
writer and the DST bytes they complete. -/
def Obligations.PutBitsAppends : Prop :=
  ∀ (bits : List Bool) (s t : State), WriterOk s → putBits bits s = .ok t →
    t.written = s.written ++ bits ∧ WriterOk t ∧
    t = { s with dst := t.dst, eng.obits := s.eng.obits + bits.length, eng.oacc := t.eng.oacc } ∧
    ∀ a, a < s.eng.obits / 8 ∨ (s.eng.obits + bits.length) / 8 ≤ a → t.dst.read a = s.dst.read a

/-- R123: putting bits fails exactly when they complete a byte at DST_CAP or above, and then with ERR_CAPACITY. -/
def Obligations.PutBitsFailsAtCapacity : Prop :=
  ∀ (bits : List Bool) (s : State), s.eng.obits / 8 ≤ s.regs.dstCap.toNat →
    ((∃ t, putBits bits s = .ok t) ↔ (s.eng.obits + bits.length) / 8 ≤ s.regs.dstCap.toNat) ∧
    ∀ code t, putBits bits s = .error (code, t) → code = .capacity

/-- R131: a field is read whole or not at all; the bits read are the stream bits at IBITS, all in bytes below SRC_LEN,
and IBITS moves past them; the field's value has them as its bits, in the build's order. -/
def Obligations.GetBitsReadsField : Prop :=
  ∀ (w : Nat) (s : State),
    (8 * s.regs.srcLen.toNat < s.eng.ibits + w → getBits w s = .error (.srcExhausted, s)) ∧
    (s.eng.ibits + w ≤ 8 * s.regs.srcLen.toNat →
      ∃ bits, getBits w s = .ok (bits, { s with eng.ibits := s.eng.ibits + w }) ∧ bits.length = w ∧
        fieldValue s.hw.order bits < 2 ^ w ∧
        ∀ i, i < w → (s.eng.ibits + i) / 8 < s.regs.srcLen.toNat ∧
          bits.getD i false = (s.srcByte ((s.eng.ibits + i) / 8)).getLsbD (posIn s.hw.order (s.eng.ibits + i)) ∧
          (s.hw.order = .lsb → (fieldValue s.hw.order bits).testBit i = bits.getD i false) ∧
          (s.hw.order = .msb → (fieldValue s.hw.order bits).testBit (w - 1 - i) = bits.getD i false))

/-! ## The match engine (42_match_engine) -/

/-- R150: the match length is the longest common run within CAP(pos), self-overlap included. -/
def Obligations.MatchLengthIsLongestRun : Prop :=
  ∀ (pr : Params) (f : Nat → Byte) (n pos off : Nat), pos < n → 1 ≤ off → off ≤ min (winSize pr) pos →
    let l := matchLength pr f n pos off
    l ≤ min (lmax pr) (n - pos) ∧ (∀ i, i < l → f (pos - off + i) = f (pos + i)) ∧
    ∀ l', l' ≤ min (lmax pr) (n - pos) → (∀ i, i < l' → f (pos - off + i) = f (pos + i)) → l' ≤ l

/-- R153, R154: the engine's step in C_FIND leaves in BEST_LEN the longest match of the offsets 1..min(N, POS) and in
BEST_OFF the smallest offset that has it; with fewer than P bytes possible, or no common byte, it leaves 0 and 0. -/
def Obligations.FindLeavesLongestAtSmallestOffset : Prop :=
  ∀ s : State, s.host.inputs = [] → s.eng.phase = .cFind → s.eng.pos < s.regs.srcLen.toNat →
    let ml := matchLength s.params s.srcByte s.regs.srcLen.toNat s.eng.pos
    let cap := min (lmax s.params) (s.regs.srcLen.toNat - s.eng.pos)
    ∃ len off, step s = .next { s with eng.bestLen := len, eng.bestOff := off, eng.phase := .cEmit } ∧
      (cap < s.params.p → len = 0 ∧ off = 0) ∧
      (s.params.p ≤ cap →
        (∀ x, 1 ≤ x → x ≤ min s.n s.eng.pos → ml x ≤ len) ∧
        ((len = 0 ∧ off = 0) ∨
          (0 < len ∧ 1 ≤ off ∧ off ≤ min s.n s.eng.pos ∧ ml off = len ∧ ∀ x, 1 ≤ x → x < off → ml x < len)))

/-- R155: a match token the encoder chooses has an offset in 1..min(N, POS) and a length in P..LMAX within the input;
where LMAX < P every token is a literal. -/
def Obligations.EmittedMatchIsLegal : Prop :=
  ∀ (pr : Params) (f : Nat → Byte) (n pos : Nat), 1 ≤ pr.p → pos < n →
    (∀ off len, chooseToken pr f pos (findMatch pr f n pos) = .matchTok off len →
      1 ≤ off ∧ off ≤ min (winSize pr) pos ∧ pr.p ≤ len ∧ len ≤ lmax pr ∧ len ≤ n - pos) ∧
    (lmax pr < pr.p → chooseToken pr f pos (findMatch pr f n pos) = .lit (f pos))

/-- R157, R108: the engine's step in C_EMIT. The token is a match when BEST_LEN ≥ P and a literal otherwise; its bits
are appended to the stream, its bytes to the window, and POS moves past them; or DST is full and ERR_CAPACITY ends the
command. -/
def Obligations.EmitWritesTokenAndConsumes : Prop :=
  ∀ (s : State) (h : List Byte), Inv s → s.host.inputs = [] → s.eng.phase = .cEmit → WindowHolds s h →
    let isMatch := s.params.p ≤ s.eng.bestLen
    let k := if isMatch then s.eng.bestLen else 1
    let bits := if isMatch then matchBits s.hw.order s.params s.eng.bestOff s.eng.bestLen
      else litBits s.hw.order (s.srcByte s.eng.pos)
    let fits := (s.eng.obits + bits.length) / 8 ≤ s.regs.dstCap.toNat
    (fits → ∃ t, step s = .next t ∧ t.written = s.written ++ bits ∧
      WindowHolds t (h ++ (List.range k).map fun i => s.srcByte (s.eng.pos + i)) ∧
      t = { s with dst := t.dst, win := t.win, eng.pos := s.eng.pos + k, eng.phase := .cFind,
                   eng.obits := s.eng.obits + bits.length, eng.oacc := t.eng.oacc } ∧
      ∀ a, a < s.eng.obits / 8 ∨ (s.eng.obits + bits.length) / 8 ≤ a → t.dst.read a = s.dst.read a) ∧
    (¬ fits → ∃ t, step s = .next t ∧ Failed .capacity s t)

/-- R128, R160: the engine's step in C_FLUSH stores the partial byte, if there is one, and completes the command with
OUT_COUNT = ceil(OBITS/8) and SRC_USED = SRC_LEN; or DST is full and ERR_CAPACITY ends it. -/
def Obligations.FlushCompletesCompress : Prop :=
  ∀ s : State, s.host.inputs = [] → s.eng.phase = .cFlush →
    let k := s.eng.obits / 8
    let partialByte := s.eng.obits % 8 ≠ 0
    (partialByte → s.regs.dstCap.toNat ≤ k → ∃ t, step s = .next t ∧ Failed .capacity s t) ∧
    (¬ (partialByte ∧ s.regs.dstCap.toNat ≤ k) → ∃ t, step s = .next t ∧
      Succeeded (BitVec.ofNat 32 (bytesFor s.eng.obits)) s.regs.srcLen s t ∧
      ∀ a, t.dst.read a = if partialByte ∧ a = k then s.eng.oacc else s.dst.read a)

/-! ## The decoder (43_decoder) -/

/-- R181: the engine's step in D_FLAG. At OUTN = DST_CAP it completes without reading a bit; else it reads the flag into
TOK_FLAG and goes to D_LIT or D_MATCH, or ends with ERR_SRC_EXHAUSTED when no bit is left. -/
def Obligations.FlagPhase : Prop :=
  ∀ s : State, s.host.inputs = [] → s.eng.phase = .dFlag →
    let flag := s.streamBit s.eng.ibits
    (s.eng.outn = s.regs.dstCap.toNat → ∃ t, step s = .next t ∧
      Succeeded s.regs.dstCap (BitVec.ofNat 32 (bytesFor s.eng.ibits)) s t ∧ t.dst = s.dst) ∧
    (s.eng.outn ≠ s.regs.dstCap.toNat → s.eng.ibits < 8 * s.regs.srcLen.toNat →
      step s = .next { s with eng.tokFlag := flag, eng.ibits := s.eng.ibits + 1,
                              eng.phase := if flag then .dLit else .dMatch }) ∧
    (s.eng.outn ≠ s.regs.dstCap.toNat → 8 * s.regs.srcLen.toNat ≤ s.eng.ibits →
      ∃ t, step s = .next t ∧ Failed .srcExhausted s t)

/-- LIT c completes (R182): the byte goes to DST[OUTN] and into the window, OUTN moves by one and the phase is D_FLAG;
every other byte and register is unchanged. In the states no run reaches, OUTN at DST_CAP or above, it stops on the
model's guard (log entry 13). -/
def Obligations.LitCompletes : Prop :=
  ∀ (s : State) (c : Byte),
    (s.eng.outn < s.regs.dstCap.toNat → ∃ t, exec (.lit c) s = .next t ∧
      t.dst.read s.eng.outn = c ∧ (∀ a, a ≠ s.eng.outn → t.dst.read a = s.dst.read a) ∧
      t.win.entry s.win.cur = c ∧ (∀ i, i ≠ s.win.cur → t.win.entry i = s.win.entry i) ∧
      t.win.cur = (s.win.cur + 1) % s.n ∧
      t = { s with dst := t.dst, win := t.win, eng.outn := s.eng.outn + 1, eng.phase := .dFlag }) ∧
    (s.regs.dstCap.toNat ≤ s.eng.outn → exec (.lit c) s = .fault .dstOutOfRange)

/-- R182, R133: the engine's step in D_LIT. With 8 bits left it reads the literal field, writes the byte to DST[OUTN]
and to the window, and goes to D_FLAG; with fewer it ends with ERR_SRC_EXHAUSTED. -/
def Obligations.LiteralPhase : Prop :=
  ∀ s : State, s.host.inputs = [] → s.eng.phase = .dLit → s.eng.outn < s.regs.dstCap.toNat →
    let c : Byte := BitVec.ofNat 8 (fieldValue s.hw.order (s.streamBits s.eng.ibits 8))
    (s.eng.ibits + 8 ≤ 8 * s.regs.srcLen.toNat →
      step s = .next { s with dst.cells := s.dst.cells.write s.eng.outn c,
                              win.cells := s.win.cells.write s.win.cur c,
                              win.cur := (s.win.cur + 1) % s.n,
                              eng.outn := s.eng.outn + 1, eng.ibits := s.eng.ibits + 8, eng.phase := .dFlag }) ∧
    (8 * s.regs.srcLen.toNat < s.eng.ibits + 8 → ∃ t, step s = .next t ∧ Failed .srcExhausted s t)

/-- MATCH off, len completes its first half (R183): with off in 1..N and a length its RLESS allows, TOK_OFF, TOK_LEN and
COPY_K are set and the phase is D_COPY; nothing else changes. With RLESS = 0 and a length below P the command ends with
ERR_BAD_LENGTH instead (R186). -/
def Obligations.MatchReadsOperands : Prop :=
  ∀ (s : State) (off len : Nat), 1 ≤ off → off ≤ s.n →
    ((s.params.rless = false → s.params.p ≤ len) →
      exec (.matchTok off len) s =
        .next { s with eng.tokOff := off, eng.tokLen := len, eng.copyK := 0, eng.phase := .dCopy }) ∧
    (s.params.rless = false → len < s.params.p → ∃ t, exec (.matchTok off len) s = .next t ∧ Failed .badLength s t)

/-- R106, R184: a match of length len at offset off over a history h, expanded: exec and the engine's next step write
the min(len, DST_CAP - OUTN) bytes whose j-th is the byte off back from it, the bytes just written among them, and
FILL before the history (R187); nothing else changes. -/
def Obligations.MatchCopiesOverlapping : Prop :=
  ∀ (s : State) (h : List Byte) (off len : Nat), s.host.inputs = [] → s.win.cur < s.n → WindowHolds s h →
    s.eng.outn ≤ s.regs.dstCap.toNat → 1 ≤ off → off ≤ s.n → (s.params.rless = false → s.params.p ≤ len) →
    let k := min len (s.regs.dstCap.toNat - s.eng.outn)
    ∃ t u bytes, exec (.matchTok off len) s = .next t ∧ step t = .next u ∧
      bytes.length = k ∧
      (∀ j, j < k → bytes.getD j 0#8 =
        if j < off then histByte s.hw.fill h (off - j) else bytes.getD (j - off) 0#8) ∧
      (∀ j, j < k → u.dst.read (s.eng.outn + j) = bytes.getD j 0#8) ∧
      (∀ a, a < s.eng.outn ∨ s.eng.outn + k ≤ a → u.dst.read a = s.dst.read a) ∧
      WindowHolds u (h ++ bytes) ∧
      u = { s with dst := u.dst, win := u.win, eng.tokOff := off, eng.tokLen := len, eng.copyK := k,
                   eng.outn := s.eng.outn + k, eng.phase := .dFlag }

/-- R183, R186, R192: the engine's step in D_MATCH. With both fields in SRC it is exec of the match they decode to: a
length below P with RLESS = 0 ends the command with ERR_BAD_LENGTH, any other goes to D_COPY; with a field cut off it
ends with ERR_SRC_EXHAUSTED. -/
def Obligations.MatchPhase : Prop :=
  ∀ s : State, s.host.inputs = [] → s.eng.phase = .dMatch →
    let pr := s.params
    let off := fieldValue s.hw.order (s.streamBits s.eng.ibits pr.ei) + 1
    let lenf := fieldValue s.hw.order (s.streamBits (s.eng.ibits + pr.ei) pr.ej)
    let len := if pr.rless then lenf + pr.p else lenf
    let whole := s.eng.ibits + pr.ei + pr.ej ≤ 8 * s.regs.srcLen.toNat
    (whole → pr.rless = false ∧ len < pr.p → ∃ t, step s = .next t ∧ Failed .badLength s t) ∧
    (whole → ¬ (pr.rless = false ∧ len < pr.p) →
      step s = .next { s with eng.ibits := s.eng.ibits + pr.ei + pr.ej, eng.tokOff := off, eng.tokLen := len,
                              eng.copyK := 0, eng.phase := .dCopy }) ∧
    (¬ whole → ∃ t, step s = .next t ∧ Failed .srcExhausted s t)

/-- R185: DECOMPRESS completes without error in phase D_FLAG with OUTN = DST_CAP, and at no other point. -/
def Obligations.DecompressSucceedsOnlyByCount : Prop :=
  ∀ s t : State, Inv s → s.regs.busy = true → s.eng.cur = .decompress → step s = .next t →
    t.regs.done = true → t.regs.err = .ok →
      s.eng.phase = .dFlag ∧ s.eng.outn = s.regs.dstCap.toNat ∧ t.regs.outCount = s.regs.dstCap ∧ t.dst = s.dst

/-! ## The host's commands (44_host_commands) -/

/-- R213: NOP completes and changes nothing, whatever the state. -/
def Obligations.NopChangesNothing : Prop := ∀ s : State, exec .nop s = .next s

/-- R212, R210: COMPRESS and DECOMPRESS with EI, EJ and P in their legal ranges are accepted in one step: DONE and ERR
are cleared, BUSY is set and PHASE is INIT; no other register and no byte changes. (cur is the model's, log entry 4;
what the host has not seen of the last command stays unseen, log entry 29. On buffers that overlap or stand
on a device the run is refused: BufferHazardRefused.) -/
def Obligations.CommandsAreAccepted : Prop :=
  ∀ s : State, s.regs.busy = false → s.misplaced = none →
    1 ≤ s.regs.cfg.ei.toNat → s.regs.cfg.ei.toNat ≤ s.hw.eiMax →
    1 ≤ s.regs.cfg.ej.toNat → s.regs.cfg.ej.toNat ≤ s.hw.ejMax → 1 ≤ s.regs.cfg.p.toNat →
      exec .compress s = .next { s with regs.done := false, regs.err := .ok, regs.busy := true,
                                        eng.phase := .init, eng.cur := .compress,
                                        unseen := s.unseen.supersede } ∧
      exec .decompress s = .next { s with regs.done := false, regs.err := .ok, regs.busy := true,
                                          eng.phase := .init, eng.cur := .decompress,
                                          unseen := s.unseen.supersede }

/-- R241, R210: COMPRESS and DECOMPRESS with EI, EJ or P outside its legal range complete at acceptance with ERR_PARAM,
and SRC, DST and WIN are not accessed. That the command completes, BUSY = 0, in the very step that accepts it is log
entry 14 (DEDUCED); that DST and the window stay as they were is log entry 15 (DEDUCED); that it is so on
buffers that overlap too is log entry 12 (DESIGN CHOICE). -/
def Obligations.IllegalParametersAreRejected : Prop :=
  ∀ s : State, s.regs.busy = false →
    (s.regs.cfg.ei.toNat < 1 ∨ s.hw.eiMax < s.regs.cfg.ei.toNat ∨ s.regs.cfg.ej.toNat < 1 ∨
      s.hw.ejMax < s.regs.cfg.ej.toNat ∨ s.regs.cfg.p.toNat < 1) →
      (∃ t, exec .compress s = .next t ∧ Rejected .param s t) ∧
      (∃ t, exec .decompress s = .next t ∧ Rejected .param s t)

/-- R217: a reserved command word completes at once with ERR_BAD_CMD; BUSY stays 0, CFG is not examined, and nothing but
ERR, OUT_COUNT, DONE and the unspecified SRC_USED changes. The host has then to see it complete, unless irq rises (20_memory
R63, log entry 29). -/
def Obligations.ReservedWordCompletes : Prop :=
  ∀ (s : State) (w : Word), 3 ≤ w.toNat → s.regs.busy = false → s.eng.phase = .idle →
    ∃ used, exec (.reserved w) s =
      .next { s with regs.err := .badCmd, regs.outCount := 0xFFFFFFFF#32, regs.done := true,
                     regs.srcUsed := used, draws := s.draws + 1,
                     unseen := (s.unseen.record 0).seeIf (s.regs.irqEn && !s.regs.done) }

/-- R281: while BUSY = 1, writes to CFG, SRC_LEN, DST_CAP and CMD change nothing, whatever is written; the meaning of
each command word is then to change nothing. -/
def Obligations.WritesIgnoredWhileBusy : Prop :=
  ∀ s : State, s.regs.busy = true →
    (∀ (off : BitVec 6) (v : Word) (rest : List Input),
      (off = 0x00#6 ∨ off = 0x04#6 ∨ off = 0x08#6 ∨ off = 0x0C#6) → s.host.inputs = .write off .word v :: rest →
        step s = .next { s with host.inputs := rest }) ∧
    exec .compress s = .next s ∧ exec .decompress s = .next s ∧ ∀ w, exec (.reserved w) s = .next s

/-- R216, R219: what a whole-word write to each register but CMD does. STATUS: bit 1 clears DONE, so that irq falls, and
nothing else is written. CFG, SRC_LEN, DST_CAP: written while BUSY = 0, ignored while BUSY = 1. CTRL: IRQ_EN at any
time, and irq with it, whose rising edge shows the host that the command is complete (20_memory R63). The rest:
ignored. -/
def Obligations.RegisterWrites : Prop :=
  ∀ (s : State) (off : BitVec 6) (v : Word) (rest : List Input), s.host.inputs = .write off .word v :: rest →
    (off = 0x10#6 → ∃ t, step s = .next t ∧
      t = { s with host.inputs := rest, regs.done := s.regs.done && !v.getLsbD 1 } ∧
      (v.getLsbD 1 = true → t.irq = false) ∧ (Inv s → s.regs.busy = true → t = { s with host.inputs := rest })) ∧
    (s.regs.busy = false → off = 0x00#6 →
      step s = .next { s with host.inputs := rest,
                              regs.cfg := { ei := v.extractLsb' 0 5, ej := v.extractLsb' 8 5,
                                            p := v.extractLsb' 16 8, rless := v.getLsbD 24 } }) ∧
    (s.regs.busy = false → off = 0x04#6 → step s = .next { s with host.inputs := rest, regs.srcLen := v }) ∧
    (s.regs.busy = false → off = 0x08#6 → step s = .next { s with host.inputs := rest, regs.dstCap := v }) ∧
    (s.regs.busy = true → off = 0x00#6 ∨ off = 0x04#6 ∨ off = 0x08#6 →
      step s = .next { s with host.inputs := rest }) ∧
    (off = 0x1C#6 → ∃ t, step s = .next t ∧
      t = { s with host.inputs := rest, regs.irqEn := v.getLsbD 0, unseen := s.unseen.seeIf (!s.irq && t.irq) } ∧
      t.irq = (s.regs.done && v.getLsbD 0)) ∧
    (off = 0x14#6 ∨ off = 0x18#6 ∨ (0x20 ≤ off.toNat ∧ off.toNat % 4 = 0) →
      step s = .next { s with host.inputs := rest })

/-- R218, 20_memory R63: what a whole-word read of each register returns, STATUS being 0x0000_0001 while BUSY = 1.
OUT_COUNT and SRC_USED return their values once the host has seen the command complete, and unspecified values while it
runs and until then. A read changes nothing but the data returned, the model's count of draws for an unspecified value,
and, for STATUS with DONE = 1, what the host has seen: nothing of the last command is then unseen (log entry 29). -/
def Obligations.RegisterReads : Prop :=
  ∀ (s : State) (off : BitVec 6) (rest : List Input), s.host.inputs = .read off .word :: rest →
    let gives := fun v : Word => step s = .next { s with host.inputs := rest, host.rdata := v }
    (off = 0x00#6 → gives s.regs.cfg.word) ∧ (off = 0x04#6 → gives s.regs.srcLen) ∧
    (off = 0x08#6 → gives s.regs.dstCap) ∧ (off = 0x0C#6 → gives 0#32) ∧
    (off = 0x10#6 → ∃ t, step s = .next t ∧
      t = { s with host.inputs := rest, host.rdata := statusWord s.regs, unseen := t.unseen } ∧
      (s.regs.done = true → t.unseen.last = none ∧ ∀ i, t.unseen.hides i = true ↔ s.unseen.hides i = true ∧
        ∀ w, s.unseen.last = some w → w ≤ i) ∧
      (s.regs.done = false → t.unseen = s.unseen)) ∧
    (Inv s → s.regs.busy = true → off = 0x10#6 → gives 0x00000001#32) ∧
    (s.regs.busy = false → s.unseen.last = none → off = 0x14#6 → gives s.regs.outCount) ∧
    (s.regs.busy = false → s.unseen.last = none → off = 0x18#6 → gives s.regs.srcUsed) ∧
    (s.regs.busy = true ∨ s.unseen.last ≠ none → off = 0x14#6 ∨ off = 0x18#6 →
      ∃ v, step s = .next { s with host.inputs := rest, host.rdata := v, draws := s.draws + 1 }) ∧
    (off = 0x1C#6 → gives (if s.regs.irqEn then 1#32 else 0#32)) ∧ (off = 0x20#6 → gives (capsWord s.hw)) ∧
    (0x24 ≤ off.toNat → off.toNat % 4 = 0 → gives 0#32)

/-- 20_memory R57: an access that is not a whole 32-bit word at a word-aligned offset has no effect as a write and
returns 0 as a read; no status bit changes. -/
def Obligations.NarrowAndMisalignedAccesses : Prop :=
  ∀ (s : State) (off : BitVec 6) (width : Width) (v : Word) (rest : List Input), width ≠ .word ∨ off.toNat % 4 ≠ 0 →
    (s.host.inputs = .write off width v :: rest → step s = .next { s with host.inputs := rest }) ∧
    (s.host.inputs = .read off width :: rest → step s = .next { s with host.inputs := rest, host.rdata := 0#32 })

/-- 10_state R21: CFG's fields lie where the table says, every value can be written and reads back as written, and the
reserved bits read 0. -/
def Obligations.CfgReadsBackAsWritten : Prop :=
  ∀ v : Word,
    (Cfg.ofWord v).word = v &&& 0x01FF1F1F#32 ∧
    (Cfg.ofWord v).ei.toNat = v.toNat % 32 ∧ (Cfg.ofWord v).ej.toNat = v.toNat / 2 ^ 8 % 32 ∧
    (Cfg.ofWord v).p.toNat = v.toNat / 2 ^ 16 % 256 ∧ (Cfg.ofWord v).rless = v.getLsbD 24

/-- 10_state R25, R29, 60_exceptions R240: the words STATUS and CAPS read. STATUS: BUSY in bit 0, DONE in bit 1, the
error's code in bits 11..8, every other bit 0. CAPS: the build's parameters in its fields, 0x0000_0810 for this spec's. -/
def Obligations.StatusAndCapsLayout : Prop :=
  (∀ r : Regs,
    (statusWord r).getLsbD 0 = r.busy ∧ (statusWord r).getLsbD 1 = r.done ∧
    (statusWord r).extractLsb' 8 4 = r.err.code ∧
    (∀ i, (2 ≤ i ∧ i < 8) ∨ 12 ≤ i → (statusWord r).getLsbD i = false)) ∧
  ErrCode.ok.code = 0#4 ∧ ErrCode.param.code = 1#4 ∧ ErrCode.capacity.code = 2#4 ∧
  ErrCode.srcExhausted.code = 3#4 ∧ ErrCode.badOffset.code = 4#4 ∧ ErrCode.badLength.code = 5#4 ∧
  ErrCode.badCmd.code = 6#4 ∧
  (∀ h : Hardware, h.legal = true →
    ((capsWord h).extractLsb' 0 5).toNat = h.eiMax ∧ ((capsWord h).extractLsb' 8 5).toNat = h.ejMax ∧
    (capsWord h).getLsbD 16 = (h.order == .msb) ∧ (capsWord h).extractLsb' 24 8 = h.fill ∧
    (∀ i, (5 ≤ i ∧ i < 8) ∨ (13 ≤ i ∧ i < 16) ∨ (17 ≤ i ∧ i < 24) → (capsWord h).getLsbD i = false)) ∧
  capsWord Hardware.spec = 0x00000810#32

/-! ## Completion, errors, the interrupt and reset (60_exceptions, 70_reset_and_hazards) -/

/-- R246, R243: a command that stops running, other than by reset, has completed in one step: PHASE = IDLE, BUSY = 0,
DONE = 1, and OUT_COUNT = 0xFFFF_FFFF unless ERR is ERR_OK. 20_memory R63: with IRQ_EN = 1 irq rises, and the host may
rely on the results; with IRQ_EN = 0 it has yet to see them and the DST bytes the command wrote, OUT_COUNT of them, or
DST[0..DST_CAP) where it failed (log entries 22 and 29). -/
def Obligations.CompletionSetsDone : Prop :=
  ∀ s t : State, Inv s → s.regs.busy = true → step s = .next t → t.regs.busy = false →
    (∀ rest, s.host.inputs ≠ .reset :: rest) →
      t.eng.phase = .idle ∧ t.regs.done = true ∧ (t.regs.err ≠ .ok → t.regs.outCount = 0xFFFFFFFF#32) ∧
      (s.regs.irqEn = true → t.irq = true ∧ t.unseen.last = none) ∧
      (s.regs.irqEn = false → ∃ w, t.unseen.last = some w ∧ (∀ i, i < w → t.unseen.hides i = true) ∧
        (t.regs.err = .ok → w = t.regs.outCount.toNat) ∧ (t.regs.err ≠ .ok → w = s.regs.dstCap.toNat))

/-- R244: a command that ends with an error while it runs leaves SRC and the DST bytes at DST_CAP and above as they
were, and OUT_COUNT = 0xFFFF_FFFF; a command word that ends with an error at once writes no DST byte at all. -/
def Obligations.StateAfterError : Prop :=
  ∀ s t : State, Inv s → step s = .next t → t.regs.err ≠ .ok → t.regs.done = true →
    (s.regs.busy = true → t.regs.outCount = 0xFFFFFFFF#32 ∧ t.src = s.src ∧ t.place = s.place ∧
      (∀ i, i < s.regs.srcLen.toNat → t.srcByte i = s.srcByte i) ∧
      ∀ a, s.regs.dstCap.toNat ≤ a → t.dst.read a = s.dst.read a) ∧
    (s.regs.busy = false → (∃ off v rest, s.host.inputs = .write off .word v :: rest) →
      t.dst = s.dst ∧ t.src = s.src ∧ t.place = s.place)

/-- 20_memory R61, R52: while a command runs no step changes SRC[0..SRC_LEN), where the buffers do not overlap, nor any
byte that is SRC's alone, nor any DST byte at DST_CAP or above. -/
def Obligations.WritesStayInsideDst : Prop :=
  ∀ s t : State, s.regs.busy = true → step s = .next t →
    t.src = s.src ∧ t.place = s.place ∧ (∀ a, s.regs.dstCap.toNat ≤ a → t.dst.read a = s.dst.read a) ∧
      (s.overlaps = false → ∀ i, i < s.regs.srcLen.toNat → t.srcByte i = s.srcByte i)

/-- 20_memory R61: a running command does not see SRC at SRC_LEN or above, nor where its buffers stand: with any other
bytes there, and the buffers in any other place where they do not overlap, it takes the same step. -/
def Obligations.ReadsStayInsideSrc : Prop :=
  ∀ (s t : State) (other : Memory) (elsewhere : Placement), Inv s → s.regs.busy = true →
    ({ s with src := other, place := elsewhere } : State).misplaced = none →
    (∀ i, i < s.regs.srcLen.toNat →
      ({ s with src := other, place := elsewhere } : State).srcByte i = s.srcByte i) →
    step s = .next t →
      step { s with src := other, place := elsewhere } = .next { t with src := other, place := elsewhere }

/-- R212, 10_state R31: while a command goes on, CFG, SRC_LEN and DST_CAP cannot change (of the host registers only
CTRL.IRQ_EN can), its buffers stay where they are (log entry 12), the WIN entries at N and above keep what they hold, and WCUR is below N once INIT has set it. -/
def Obligations.RunningCommandKeepsItsArguments : Prop :=
  ∀ s t : State, Inv s → s.regs.busy = true → step s = .next t → t.regs.busy = true →
    t.regs = { s.regs with irqEn := t.regs.irqEn } ∧ t.place = s.place ∧
    (∀ i, s.n ≤ i → t.win.entry i = s.win.entry i) ∧ (t.eng.phase ≠ .init → t.win.cur < s.n)

/-- R280: with no command running, ERR, OUT_COUNT and SRC_USED change only by a write to CMD or by reset; and once the
host may rely on them, or on a byte of DST, it may until then (20_memory R63, log entry 29). -/
def Obligations.ResultsHoldUntilNextCommand : Prop :=
  ∀ s t : State, Inv s → s.regs.busy = false → step s = .next t →
    (∀ v rest, s.host.inputs ≠ .write 0x0C#6 .word v :: rest) → (∀ rest, s.host.inputs ≠ .reset :: rest) →
      t.regs.err = s.regs.err ∧ t.regs.outCount = s.regs.outCount ∧ t.regs.srcUsed = s.regs.srcUsed ∧
      t.regs.busy = false ∧ (s.unseen.last = none → t.unseen = s.unseen) ∧
      ∀ i, t.unseen.hides i = true → s.unseen.hides i = true

/-- R248: irq is the level DONE AND IRQ_EN: a write of 1 to STATUS bit 1, the acceptance of a command and reset clear
it; IRQ_EN = 0 masks it and does not clear DONE. -/
def Obligations.IrqIsDoneAndEnabled : Prop :=
  ∀ s : State,
    s.irq = (s.regs.done && s.regs.irqEn) ∧
    (∀ v rest, s.host.inputs = .write 0x10#6 .word v :: rest → v.getLsbD 1 = true →
      ∃ t, step s = .next t ∧ t.irq = false) ∧
    (∀ v rest, s.host.inputs = .write 0x1C#6 .word v :: rest →
      ∃ t, step s = .next t ∧ t.irq = (s.regs.done && v.getLsbD 0) ∧ t.regs.done = s.regs.done) ∧
    (∀ rest, s.host.inputs = .reset :: rest → ∃ t, step s = .next t ∧ t.irq = false) ∧
    (s.regs.busy = false → s.legal = true → s.misplaced = none →
      ∃ t u, exec .compress s = .next t ∧ t.irq = false ∧ exec .decompress s = .next u ∧ u.irq = false)

/-- R270, R271, 10_state R41: reset sets the host registers and PHASE to their reset values and starts nothing; DONE is
0; SRC is unchanged, and of DST only DST[0..DST_CAP) of a command that was running may differ. That the rest of DST, and
SRC where no command ran, survive a reset is the model's choice (log entry 25, DESIGN CHOICE); that the DST bytes of a
command the host never saw complete stay unseen is log entry 29. -/
def Obligations.ResetAbandons : Prop :=
  ∀ (s : State) (rest : List Input), s.host.inputs = .reset :: rest →
    ∃ t, step s = .next t ∧
      t.regs = { cfg := { ei := 0#5, ej := 0#5, p := 0#8, rless := false }, srcLen := 0#32, dstCap := 0#32,
                 busy := false, done := false, err := .ok, outCount := 0#32, srcUsed := 0#32, irqEn := false } ∧
      t.eng.phase = .idle ∧ t.irq = false ∧ t.hw = s.hw ∧ t.src = s.src ∧ t.place = s.place ∧
      (s.overlaps = false → ∀ i, i < s.regs.srcLen.toNat → t.srcByte i = s.srcByte i) ∧
      (s.regs.busy = false → t.dst = s.dst) ∧
      t.unseen.last = none ∧ (∀ i, t.unseen.hides i = s.unseen.hides i) ∧
      (∀ a, s.regs.dstCap.toNat ≤ a → t.dst.read a = s.dst.read a)

/-- 10_state R41: the state after reset, where the spec gives it: the host registers are 0, PHASE is IDLE, irq is 0,
CAPS reads 0x0000_0810, CMD reads 0, and the parameter set is illegal. -/
def Obligations.ResetValues : Prop :=
  State.reset.regs.cfg.word = 0#32 ∧ State.reset.regs.srcLen = 0#32 ∧ State.reset.regs.dstCap = 0#32 ∧
  statusWord State.reset.regs = 0#32 ∧ State.reset.regs.outCount = 0#32 ∧ State.reset.regs.srcUsed = 0#32 ∧
  State.reset.regs.irqEn = false ∧ capsWord State.reset.hw = 0x00000810#32 ∧ State.reset.irq = false ∧
  State.reset.eng.phase = .idle ∧ State.reset.unseen = { last := none, older := [] } ∧ State.reset.legal = false ∧ (busRead 0x0C#6 .word State.reset).host.rdata = 0#32

/-- R283, 93 U6, U8, 20_memory R60, R63: what a model refuses of the buffers, and what their accesses do otherwise.
COMPRESS and DECOMPRESS with a legal parameter set are refused where SRC[0..SRC_LEN) and DST[0..DST_CAP) share a byte of
system memory, or where a buffer stands on a device; a byte stored in SRC or DST, or a buffer bound elsewhere, while
BUSY = 1 refuses the run. While BUSY = 0 the byte is stored, in both buffers where they share it, and nothing else
changes. A host read of a DST byte returns it, but an unspecified byte while a command that writes it runs, and until the
host has seen one that wrote it complete; with a COMPRESS that is to succeed those are the bytes ENCODE gives, and never
one at DST_CAP or above. How the platform binds
the buffers, and that binding while BUSY = 1 is refused, is log entry 12 (DESIGN CHOICE); that a store is refused at every
index, log entry 11 (DESIGN CHOICE); which bytes a command that is to fail writes, log entry 22 (DEDUCED); what a command
the host never saw complete leaves unseen, log entry 29 (DEDUCED). -/
def Obligations.BufferHazardRefused : Prop :=
  ∀ (s : State) (index : Word) (b : Byte) (p : Placement) (rest : List Input),
    (s.overlaps = true ↔ ∃ sp ∈ s.place.shared, ∃ k, k < sp.len ∧ sp.src + k < s.regs.srcLen.toNat ∧
      sp.dst + k < s.regs.dstCap.toNat) ∧
    (s.regs.busy = false → s.legal = true → s.place.plain = true → s.overlaps = true →
      exec .compress s = .refused .bufferOverlap ∧ exec .decompress s = .refused .bufferOverlap) ∧
    (s.regs.busy = false → s.legal = true → s.place.plain = false →
      exec .compress s = .refused .deviceBuffer ∧ exec .decompress s = .refused .deviceBuffer) ∧
    (s.regs.busy = true → s.host.inputs = .srcWrite index b :: rest ∨ s.host.inputs = .dstWrite index b :: rest ∨
      s.host.inputs = .bind p :: rest → step s = .refused .bufferHazard) ∧
    (s.regs.busy = false → s.host.inputs = .bind p :: rest →
      step s = .next { s with host.inputs := rest, place := p }) ∧
    (s.regs.busy = false → s.place.plain = false →
      s.host.inputs = .srcWrite index b :: rest ∨ s.host.inputs = .dstWrite index b :: rest ∨
        s.host.inputs = .dstRead index :: rest → step s = .refused .deviceBuffer) ∧
    (s.regs.busy = false → s.place.plain = true → s.host.inputs = .srcWrite index b :: rest →
      ∃ t, step s = .next t ∧ t = { s with host.inputs := rest, src := t.src, dst := t.dst } ∧
        (∀ a, t.srcByte a =
          if a = index.toNat ∨ (s.place.home a = s.place.home index.toNat ∧ s.place.home index.toNat ≠ none) then b
          else s.srcByte a) ∧
        ∀ a, t.dst.read a = if s.place.home index.toNat = some a then b else s.dst.read a) ∧
    (s.regs.busy = false → s.place.plain = true → s.host.inputs = .dstWrite index b :: rest →
      ∃ t, step s = .next t ∧ t = { s with host.inputs := rest, dst := t.dst } ∧
        (∀ a, t.dst.read a = if a = index.toNat then b else s.dst.read a) ∧
        ∀ a, t.srcByte a = if s.place.home a = some index.toNat then b else s.srcByte a) ∧
    (s.place.plain = true → s.host.inputs = .dstRead index :: rest →
      ((s.regs.busy = false ∨ s.writesDst index.toNat = false) → (∀ w, s.unseen.last = some w → w ≤ index.toNat) →
        (∀ e ∈ s.unseen.older, index.toNat < e.lo ∨ e.hi ≤ index.toNat) →
        step s = .next { s with host.inputs := rest, host.rdata := (s.dst.read index.toNat).setWidth 32 }) ∧
      ((s.regs.busy = true ∧ s.writesDst index.toNat = true) ∨ (∃ w, s.unseen.last = some w ∧ index.toNat < w) ∨
          (∃ e ∈ s.unseen.older, e.lo ≤ index.toNat ∧ index.toNat < e.hi) →
        ∃ c : Byte, step s = .next { s with host.inputs := rest, host.rdata := c.setWidth 32, draws := s.draws + 1 })) ∧
    (∀ a, s.writesDst a = true → a < s.regs.dstCap.toNat) ∧
    (s.eng.cur = .decompress → ∀ a, s.writesDst a = decide (a < s.regs.dstCap.toNat)) ∧
    (s.eng.cur = .compress → ∀ bytes,
      encodeBytes s.hw.order s.params s.srcByte s.regs.srcLen.toNat s.regs.dstCap.toNat = .ok bytes →
        ∀ a, s.writesDst a = decide (a < bytes.length))

/-! ## The invariant and what never happens -/

/-- The state after reset satisfies the invariant. -/
def Obligations.ResetSatisfiesInvariant : Prop := Inv State.reset

/-- 10_state R42 and the rest of `Inv`, whatever the input: every step keeps it; and no step, from any state at all,
changes the elaboration parameters (00_scope R9). -/
def Obligations.StepKeepsInvariant : Prop :=
  ∀ s t : State, step s = .next t → (Inv s → Inv t) ∧ t.hw = s.hw

/-- A machine that satisfies the invariant never faults (no SRC byte at SRC_LEN or above is read, no DST byte at
DST_CAP or above is written), never produces ERR_BAD_OFFSET (R104, R188), and is refused only where the outside touches a
buffer while BUSY = 1 (R283), where a command would start on buffers that overlap (R283), and on a device (U8). -/
def Obligations.NoFaultUnderInvariant : Prop :=
  ∀ s : State, Inv s →
    (∀ r, step s ≠ .fault r) ∧
    (∀ t, step s = .next t → t.regs.err = .badOffset → s.regs.err = .badOffset) ∧
    (∀ r, step s = .refused r →
      (r = .bufferHazard ∧ s.regs.busy = true ∧ ∃ index b p rest, s.host.inputs = .srcWrite index b :: rest ∨
        s.host.inputs = .dstWrite index b :: rest ∨ s.host.inputs = .bind p :: rest) ∨
      (r = .bufferOverlap ∧ s.regs.busy = false ∧ s.overlaps = true ∧
        ∃ v rest, (v = 1#32 ∨ v = 2#32) ∧ s.host.inputs = .write 0x0C#6 .word v :: rest) ∨
      (r = .deviceBuffer ∧ s.regs.busy = false ∧ s.place.plain = false))

/-- 10_state R33 to R36, 92 D37: under the invariant every counter of a running command fits its register. -/
def Obligations.CountersFitTheirRegisters : Prop :=
  ∀ s : State, Inv s → s.regs.busy = true → s.eng.phase ≠ .init →
    s.win.cur < 2 ^ s.hw.eiMax ∧
    (s.eng.cur = .compress → s.eng.pos < 2 ^ 32 ∧ s.eng.obits < 2 ^ 35) ∧
    (s.eng.phase = .cEmit → s.eng.bestLen < 2 ^ (9 + s.hw.ejMax) ∧
      (s.params.p ≤ s.eng.bestLen → s.eng.bestOff < 2 ^ (s.hw.eiMax + 1))) ∧
    (s.eng.cur = .decompress → s.eng.outn < 2 ^ 32 ∧ s.eng.ibits < 2 ^ 35) ∧
    (s.eng.phase = .dCopy → s.eng.tokOff < 2 ^ (s.hw.eiMax + 1) ∧ s.eng.tokLen < 2 ^ (9 + s.hw.ejMax) ∧
      s.eng.copyK < 2 ^ (9 + s.hw.ejMax))

/-! ## Whole commands -/

/-- 42_match R160, 44_host R214: an accepted COMPRESS, left alone, completes, and with what ENCODE gives: its bytes in
DST and nothing else written, or ERR_CAPACITY. -/
def Obligations.CompressComputesEncode : Prop :=
  ∀ s : State, Inv s → s.host.inputs = [] → s.eng.phase = .init → s.eng.cur = .compress →
    ∃ k t, Sys2Proof.core.run k s = .next t ∧
      match encodeBytes s.hw.order s.params s.srcByte s.regs.srcLen.toNat s.regs.dstCap.toNat with
      | .ok bytes =>
        Succeeded (BitVec.ofNat 32 bytes.length) s.regs.srcLen s t ∧ bytes.length ≤ s.regs.dstCap.toNat ∧
          ∀ a, t.dst.read a = if a < bytes.length then bytes.getD a 0#8 else s.dst.read a
      | .error code => code = .capacity ∧ Failed .capacity s t

/-- 43_decoder R190, 44_host R215: an accepted DECOMPRESS, left alone, completes, and with what DECODE gives: exactly
DST_CAP bytes in DST and the SRC bytes used, or the first error of the parse. -/
def Obligations.DecompressComputesDecode : Prop :=
  ∀ s : State, Inv s → s.host.inputs = [] → s.eng.phase = .init → s.eng.cur = .decompress →
    ∃ k t, Sys2Proof.core.run k s = .next t ∧
      match decodeBytes s.hw.order s.hw.fill s.params (s.srcList s.regs.srcLen.toNat) s.regs.dstCap.toNat with
      | .ok d =>
        Succeeded s.regs.dstCap (BitVec.ofNat 32 d.srcUsed) s t ∧ d.bytes.length = s.regs.dstCap.toNat ∧
          ∀ a, t.dst.read a = if a < d.bytes.length then d.bytes.getD a 0#8 else s.dst.read a
      | .error code => Failed code s t

/-- 42_match R165, R159: what COMPRESS gives, DECOMPRESS turns back into the input, under every legal parameter set,
in both bit orders and for every fill byte, and uses all of it. -/
def Obligations.RoundTrip : Prop :=
  ∀ (h : Hardware) (pr : Params) (fill : Byte) (input output : List Byte) (cap : Nat), legalParams h pr = true →
    encodeBytes h.order pr (fun i => input.getD i 0#8) input.length cap = .ok output →
      decodeBytes h.order fill pr output input.length = .ok { bytes := input, srcUsed := output.length }

/-- 30_encoding R83, 70_reset R276: COMPRESS writes at most WORST(n) bytes, so a DST_CAP of WORST(n) is enough; where
1 + EI + EJ ≤ 9 P that is n + ceil(n/8). -/
def Obligations.WorstCaseBound : Prop :=
  ∀ (h : Hardware) (pr : Params) (f : Nat → Byte) (n cap : Nat), legalParams h pr = true → worst pr n ≤ cap →
    (∃ bytes, encodeBytes h.order pr f n cap = .ok bytes ∧ bytes.length ≤ worst pr n) ∧
      (1 + pr.ei + pr.ej ≤ 9 * pr.p → worst pr n = n + (n + 7) / 8)

/-- 44_host R220: the result of a command depends on the registers at acceptance, the SRC bytes and the build alone:
two machines that agree on those complete with the same STATUS.ERR and OUT_COUNT and, on success, the same SRC_USED and
the same DST bytes. -/
def Obligations.CommandsAreIndependent : Prop :=
  ∀ s s' : State, Inv s → Inv s' → s.host.inputs = [] → s'.host.inputs = [] →
    s.eng.phase = .init → s'.eng.phase = .init → s.eng.cur = s'.eng.cur → s.hw = s'.hw → s.regs = s'.regs →
    (∀ i, i < s.regs.srcLen.toNat → s.srcByte i = s'.srcByte i) →
      ∃ k t k' t', Sys2Proof.core.run k s = .next t ∧ Sys2Proof.core.run k' s' = .next t' ∧
        t.regs.done = true ∧ t'.regs.done = true ∧ t.regs.err = t'.regs.err ∧ t.regs.outCount = t'.regs.outCount ∧
        (t.regs.err = .ok → t.regs.srcUsed = t'.regs.srcUsed ∧
          ∀ a, a < t.regs.outCount.toNat → t.dst.read a = t'.dst.read a)

/-- R193, R157, R286: every running command completes: from any state that satisfies the invariant, left alone, the
machine reaches DONE = 1. -/
def Obligations.CommandsComplete : Prop :=
  ∀ s : State, Inv s → s.host.inputs = [] → s.regs.busy = true →
    ∃ k t, Sys2Proof.core.run k s = .next t ∧ t.regs.busy = false ∧ t.regs.done = true ∧ t.eng.phase = .idle
end

