-- ==== Sys2Proof/Laws/Memory.lean ====
section
/-! SUPPORT. The laws of Memory and of DST: read after write, and that every operation keeps the canonical form. -/

namespace Sys2Proof.Machine

theorem Memory.lookup_write (m : Memory) (a b : Nat) (v : Byte) :
    (m.write a v).lookup b = if b = a then some v else m.lookup b := by
  induction m with
  | nil =>
    simp only [Memory.write, Memory.lookup]
    split <;> simp
  | cons c m ih =>
    simp only [Memory.write]
    split
    · simp only [Memory.lookup]
      split
      · rfl
      · split
        · rw [if_neg (by omega), if_pos (by omega)]
        · rfl
    · split
      · rename_i h
        subst h
        simp only [Memory.lookup]
        split <;> rfl
      · simp only [Memory.lookup, ih]
        split
        · rw [if_neg (by omega)]
        · split
          · rw [if_neg (by omega)]
          · rfl

@[simp] theorem Memory.lookup_write_same (m : Memory) (a : Nat) (v : Byte) : (m.write a v).lookup a = some v := by
  simp [Memory.lookup_write]

theorem Memory.lookup_write_other (m : Memory) {a b : Nat} (v : Byte) (h : b ≠ a) :
    (m.write a v).lookup b = m.lookup b := by simp [Memory.lookup_write, h]

theorem Memory.lookup_dropBelow (m : Memory) (n a : Nat) :
    (m.dropBelow n).lookup a = if a < n then none else m.lookup a := by
  induction m with
  | nil => simp [Memory.dropBelow, Memory.lookup]
  | cons c m ih =>
    simp only [Memory.dropBelow] at ih ⊢
    by_cases hc : n ≤ c.1
    · rw [List.filter_cons_of_pos (by simpa using hc)]
      simp only [Memory.lookup, ih]
      split
      · rw [if_neg (by omega)]
      · split
        · split <;> rfl
        · rfl
    · rw [List.filter_cons_of_neg (by simpa using hc), ih]
      split
      · rfl
      · simp only [Memory.lookup]
        rw [if_neg (by omega), if_neg (by omega)]

theorem Memory.lookup_filled_append (v : Byte) (n : Nat) (m : Memory) (s a : Nat) :
    (Memory.filled v s n ++ m).lookup a =
      if a < s then (if n = 0 then m.lookup a else none) else if a < s + n then some v else m.lookup a := by
  induction n generalizing s with
  | zero =>
    simp only [Memory.filled, List.nil_append, if_true, Nat.add_zero]
    by_cases h : a < s <;> simp [h]
  | succ n ih =>
    simp only [Memory.filled, List.cons_append, Memory.lookup, ih]
    by_cases h1 : a < s
    · simp [h1, Nat.ne_of_lt h1]
    · by_cases h2 : a = s
      · simp [h2]
      · have h3 : ¬ a < s + 1 := by omega
        rw [if_neg h2, if_neg h1, if_neg h3, if_neg h1]
        by_cases h4 : a < s + 1 + n
        · rw [if_pos h4, if_pos (by omega)]
        · rw [if_neg h4, if_neg (by omega)]

/-- The canonical form, said without recursion: every address is below those after it. -/
theorem Memory.wf_iff (m : Memory) : m.wf = true ↔ m.Pairwise fun a b => a.1 < b.1 := by
  induction m with
  | nil => simp [Memory.wf]
  | cons a m ih =>
    cases m with
    | nil => simp [Memory.wf]
    | cons b m =>
      simp only [Memory.wf, Bool.and_eq_true, decide_eq_true_eq, ih, List.pairwise_cons, List.mem_cons]
      constructor
      · rintro ⟨hab, hb, hm⟩
        refine ⟨?_, hb, hm⟩
        rintro c (rfl | hc)
        · exact hab
        · exact Nat.lt_trans hab (hb c hc)
      · rintro ⟨ha, hb, hm⟩
        exact ⟨ha b (.inl rfl), hb, hm⟩

theorem Memory.mem_write (m : Memory) (a : Nat) (v : Byte) {c : Host.Cell} (h : c ∈ m.write a v) :
    c = (a, v) ∨ c ∈ m := by
  induction m with
  | nil => simpa [Memory.write] using h
  | cons d m ih =>
    simp only [Memory.write] at h
    split at h
    · simpa using h
    · split at h
      · rcases List.mem_cons.1 h with h | h
        · exact .inl h
        · exact .inr (List.mem_cons_of_mem _ h)
      · rcases List.mem_cons.1 h with h | h
        · exact .inr (h ▸ List.mem_cons_self)
        · exact (ih h).imp_right (List.mem_cons_of_mem _)

theorem Memory.write_wf (m : Memory) (a : Nat) (v : Byte) (h : m.wf = true) : (m.write a v).wf = true := by
  rw [Memory.wf_iff] at *
  induction m with
  | nil => simp [Memory.write]
  | cons c m ih =>
    have hc := List.pairwise_cons.1 h
    simp only [Memory.write]
    split
    · rename_i hac
      refine List.pairwise_cons.2 ⟨?_, h⟩
      intro d hd
      rcases List.mem_cons.1 hd with rfl | hd
      · exact hac
      · exact Nat.lt_trans hac (hc.1 d hd)
    · split
      · rename_i hac
        refine List.pairwise_cons.2 ⟨?_, hc.2⟩
        intro d hd
        exact hac ▸ hc.1 d hd
      · refine List.pairwise_cons.2 ⟨?_, ih hc.2⟩
        intro d hd
        rcases Memory.mem_write m a v hd with rfl | hd
        · show c.1 < a
          omega
        · exact hc.1 d hd

theorem Memory.dropBelow_wf (m : Memory) (n : Nat) (h : m.wf = true) : (m.dropBelow n).wf = true := by
  rw [Memory.wf_iff] at *
  exact h.sublist List.filter_sublist

theorem Memory.mem_filled (v : Byte) (s n : Nat) {c : Host.Cell} (h : c ∈ Memory.filled v s n) :
    s ≤ c.1 ∧ c.1 < s + n := by
  induction n generalizing s with
  | zero => simp [Memory.filled] at h
  | succ n ih =>
    rcases List.mem_cons.1 h with rfl | h
    · exact ⟨Nat.le_refl _, by show s < s + (n + 1); omega⟩
    · have := ih (s + 1) h
      omega

theorem Memory.filled_append_wf (v : Byte) (n : Nat) (m : Memory) (h : m.wf = true) :
    (Memory.filled v 0 n ++ m.dropBelow n).wf = true := by
  have hd := Memory.dropBelow_wf m n h
  rw [Memory.wf_iff] at *
  have hf : ∀ s k, (Memory.filled v s k).Pairwise fun a b => a.1 < b.1 := by
    intro s k
    induction k generalizing s with
    | zero => simp [Memory.filled]
    | succ k ih =>
      refine List.pairwise_cons.2 ⟨?_, ih (s + 1)⟩
      intro c hc
      have := Memory.mem_filled v (s + 1) k hc
      show s < c.1
      omega
  refine List.pairwise_append.2 ⟨hf 0 n, hd, ?_⟩
  intro a ha b hb
  have h1 := Memory.mem_filled v 0 n ha
  have h2 : n ≤ b.1 := by simpa using (List.mem_filter.1 hb).2
  omega

/-! ## DST -/

@[simp] theorem Dest.read_write (d : Dest) (i j : Nat) (v : Byte) :
    ({ d with cells := d.cells.write i v } : Dest).read j = if j = i then v else d.read j := by
  simp only [Dest.read, Memory.lookup_write]
  by_cases h : j = i <;> simp [h]

@[simp] theorem Dest.read_lose (d : Dest) (cap draw i : Nat) :
    (d.lose cap draw).read i = if i < cap then Config.freeDst draw i else d.read i := by
  simp only [Dest.read, Dest.lose, Memory.lookup_dropBelow]
  by_cases h : i < cap
  · have : cap ≠ 0 := by omega
    simp [h, this]
  · simp only [h, if_false]
    have hf : (d.lost.filter fun l => decide (cap < l.cap)).find? (fun l => decide (i < l.cap)) =
        d.lost.find? fun l => decide (i < l.cap) := by
      rw [List.find?_filter]
      congr 1
      funext l
      simp only [decide_eq_true_eq]
      exact decide_eq_decide.2 ⟨And.right, fun hi => ⟨by omega, hi⟩⟩
    by_cases h0 : cap = 0
    · simp [h0]
    · simp [h0, h, hf]

theorem State.putDst_read (i j : Nat) (v : Byte) (s : State) :
    (s.putDst i v).dst.read j = if j = i then v else s.dst.read j := Dest.read_write s.dst i j v

theorem State.loseDst_read (s : State) (i : Nat) :
    s.loseDst.dst.read i = if i < s.regs.dstCap.toNat then Config.freeDst s.draws i else s.dst.read i :=
  Dest.read_lose s.dst _ _ i

/-! ## WIN -/

@[simp] theorem winInit_entry (s : State) (i : Nat) :
    (winInit s).win.entry i = if i < s.n then s.hw.fill else s.win.entry i := by
  simp only [winInit, Window.entry, Memory.lookup_filled_append, Memory.lookup_dropBelow]
  by_cases h : i < s.n <;> simp [h]

@[simp] theorem winWrite_entry (b : Byte) (s : State) (i : Nat) :
    (winWrite b s).win.entry i = if i = s.win.cur then b else s.win.entry i := by
  simp only [winWrite, Window.entry, Memory.lookup_write]
  by_cases h : i = s.win.cur <;> simp [h]

end Sys2Proof.Machine
end

