-- ==== Sys2Proof/Laws/State.lean ====
section
/-! SUPPORT. What each named operation leaves in each part of the state, true by rfl, so that no later proof unfolds a
record update; and that N and the parameter set depend on CFG alone. -/

namespace Sys2Proof.Machine

/-! ### putDst -/

@[simp] theorem putDst_hw (i : Nat) (v : Byte) (s : State) : (State.putDst i v s).hw = s.hw := rfl
@[simp] theorem putDst_place (i : Nat) (v : Byte) (s : State) : (State.putDst i v s).place = s.place := rfl
@[simp] theorem putDst_regs (i : Nat) (v : Byte) (s : State) : (State.putDst i v s).regs = s.regs := rfl
@[simp] theorem putDst_eng (i : Nat) (v : Byte) (s : State) : (State.putDst i v s).eng = s.eng := rfl
@[simp] theorem putDst_win (i : Nat) (v : Byte) (s : State) : (State.putDst i v s).win = s.win := rfl
@[simp] theorem putDst_src (i : Nat) (v : Byte) (s : State) : (State.putDst i v s).src = s.src := rfl
@[simp] theorem putDst_dst (i : Nat) (v : Byte) (s : State) :
    (State.putDst i v s).dst =
      { s.dst with cells := s.dst.cells.write i v } := rfl
@[simp] theorem putDst_host (i : Nat) (v : Byte) (s : State) : (State.putDst i v s).host = s.host := rfl
@[simp] theorem putDst_unseen (i : Nat) (v : Byte) (s : State) : (State.putDst i v s).unseen = s.unseen := rfl
@[simp] theorem putDst_draws (i : Nat) (v : Byte) (s : State) : (State.putDst i v s).draws = s.draws := rfl

/-! ### loseDst -/

@[simp] theorem loseDst_hw (s : State) : (s.loseDst).hw = s.hw := rfl
@[simp] theorem loseDst_place (s : State) : (s.loseDst).place = s.place := rfl
@[simp] theorem loseDst_regs (s : State) : (s.loseDst).regs = s.regs := rfl
@[simp] theorem loseDst_eng (s : State) : (s.loseDst).eng = s.eng := rfl
@[simp] theorem loseDst_win (s : State) : (s.loseDst).win = s.win := rfl
@[simp] theorem loseDst_src (s : State) : (s.loseDst).src = s.src := rfl
@[simp] theorem loseDst_dst (s : State) : (s.loseDst).dst = s.dst.lose s.regs.dstCap.toNat s.draws := rfl
@[simp] theorem loseDst_host (s : State) : (s.loseDst).host = s.host := rfl
@[simp] theorem loseDst_unseen (s : State) : (s.loseDst).unseen = s.unseen := rfl
@[simp] theorem loseDst_draws (s : State) : (s.loseDst).draws = s.draws + 1 := rfl

/-! ### loseSrcUsed -/

@[simp] theorem loseSrcUsed_hw (s : State) : (s.loseSrcUsed).hw = s.hw := rfl
@[simp] theorem loseSrcUsed_place (s : State) : (s.loseSrcUsed).place = s.place := rfl
@[simp] theorem loseSrcUsed_regs (s : State) :
    (s.loseSrcUsed).regs =
      { s.regs with srcUsed := Config.freeWord s.draws } := rfl
@[simp] theorem loseSrcUsed_eng (s : State) : (s.loseSrcUsed).eng = s.eng := rfl
@[simp] theorem loseSrcUsed_win (s : State) : (s.loseSrcUsed).win = s.win := rfl
@[simp] theorem loseSrcUsed_src (s : State) : (s.loseSrcUsed).src = s.src := rfl
@[simp] theorem loseSrcUsed_dst (s : State) : (s.loseSrcUsed).dst = s.dst := rfl
@[simp] theorem loseSrcUsed_host (s : State) : (s.loseSrcUsed).host = s.host := rfl
@[simp] theorem loseSrcUsed_unseen (s : State) : (s.loseSrcUsed).unseen = s.unseen := rfl
@[simp] theorem loseSrcUsed_draws (s : State) : (s.loseSrcUsed).draws = s.draws + 1 := rfl

/-! ### loseWin -/

@[simp] theorem loseWin_hw (s : State) : (s.loseWin).hw = s.hw := rfl
@[simp] theorem loseWin_place (s : State) : (s.loseWin).place = s.place := rfl
@[simp] theorem loseWin_regs (s : State) : (s.loseWin).regs = s.regs := rfl
@[simp] theorem loseWin_eng (s : State) : (s.loseWin).eng = s.eng := rfl
@[simp] theorem loseWin_win (s : State) :
    (s.loseWin).win =
      { cells := [], draw := s.draws, cur := Config.freeCursor s.draws % 2 ^ s.hw.eiMax } := rfl
@[simp] theorem loseWin_src (s : State) : (s.loseWin).src = s.src := rfl
@[simp] theorem loseWin_dst (s : State) : (s.loseWin).dst = s.dst := rfl
@[simp] theorem loseWin_host (s : State) : (s.loseWin).host = s.host := rfl
@[simp] theorem loseWin_unseen (s : State) : (s.loseWin).unseen = s.unseen := rfl
@[simp] theorem loseWin_draws (s : State) : (s.loseWin).draws = s.draws + 1 := rfl

/-! ### complete -/

@[simp] theorem complete_hw (code : ErrCode) (w : Nat) (s : State) : (complete code w s).hw = s.hw := rfl
@[simp] theorem complete_place (code : ErrCode) (w : Nat) (s : State) : (complete code w s).place = s.place := rfl
@[simp] theorem complete_regs (code : ErrCode) (w : Nat) (s : State) :
    (complete code w s).regs =
      { s.regs with err := code, outCount := if code = .ok then s.regs.outCount else errorCount, busy := false, done := true } := rfl
@[simp] theorem complete_eng (code : ErrCode) (w : Nat) (s : State) :
    (complete code w s).eng =
      { s.eng with phase := .idle } := rfl
@[simp] theorem complete_win (code : ErrCode) (w : Nat) (s : State) : (complete code w s).win = s.win := rfl
@[simp] theorem complete_src (code : ErrCode) (w : Nat) (s : State) : (complete code w s).src = s.src := rfl
@[simp] theorem complete_dst (code : ErrCode) (w : Nat) (s : State) : (complete code w s).dst = s.dst := rfl
@[simp] theorem complete_host (code : ErrCode) (w : Nat) (s : State) : (complete code w s).host = s.host := rfl
@[simp] theorem complete_draws (code : ErrCode) (w : Nat) (s : State) : (complete code w s).draws = s.draws := rfl
@[simp] theorem complete_unseen (code : ErrCode) (w : Nat) (s : State) :
    (complete code w s).unseen = (s.unseen.record w).seeIf (s.regs.irqEn && !s.regs.done) := rfl

/-! ### winInit -/

@[simp] theorem winInit_hw (s : State) : (winInit s).hw = s.hw := rfl
@[simp] theorem winInit_place (s : State) : (winInit s).place = s.place := rfl
@[simp] theorem winInit_regs (s : State) : (winInit s).regs = s.regs := rfl
@[simp] theorem winInit_eng (s : State) : (winInit s).eng = s.eng := rfl
@[simp] theorem winInit_cells (s : State) :
    (winInit s).win.cells = Memory.filled s.hw.fill 0 s.n ++ s.win.cells.dropBelow s.n := rfl
@[simp] theorem winInit_draw (s : State) : (winInit s).win.draw = s.win.draw := rfl
@[simp] theorem winInit_cur (s : State) : (winInit s).win.cur = 0 := rfl
@[simp] theorem winInit_src (s : State) : (winInit s).src = s.src := rfl
@[simp] theorem winInit_dst (s : State) : (winInit s).dst = s.dst := rfl
@[simp] theorem winInit_host (s : State) : (winInit s).host = s.host := rfl
@[simp] theorem winInit_unseen (s : State) : (winInit s).unseen = s.unseen := rfl
@[simp] theorem winInit_draws (s : State) : (winInit s).draws = s.draws := rfl

/-! ### winWrite -/

@[simp] theorem winWrite_hw (b : Byte) (s : State) : (winWrite b s).hw = s.hw := rfl
@[simp] theorem winWrite_place (b : Byte) (s : State) : (winWrite b s).place = s.place := rfl
@[simp] theorem winWrite_regs (b : Byte) (s : State) : (winWrite b s).regs = s.regs := rfl
@[simp] theorem winWrite_eng (b : Byte) (s : State) : (winWrite b s).eng = s.eng := rfl
@[simp] theorem winWrite_cells (b : Byte) (s : State) :
    (winWrite b s).win.cells = s.win.cells.write s.win.cur b := rfl
@[simp] theorem winWrite_draw (b : Byte) (s : State) : (winWrite b s).win.draw = s.win.draw := rfl
@[simp] theorem winWrite_cur (b : Byte) (s : State) : (winWrite b s).win.cur = (s.win.cur + 1) % s.n := rfl
@[simp] theorem winWrite_src (b : Byte) (s : State) : (winWrite b s).src = s.src := rfl
@[simp] theorem winWrite_dst (b : Byte) (s : State) : (winWrite b s).dst = s.dst := rfl
@[simp] theorem winWrite_host (b : Byte) (s : State) : (winWrite b s).host = s.host := rfl
@[simp] theorem winWrite_unseen (b : Byte) (s : State) : (winWrite b s).unseen = s.unseen := rfl
@[simp] theorem winWrite_draws (b : Byte) (s : State) : (winWrite b s).draws = s.draws := rfl

/-! ### bwInit -/

@[simp] theorem bwInit_hw (s : State) : (bwInit s).hw = s.hw := rfl
@[simp] theorem bwInit_place (s : State) : (bwInit s).place = s.place := rfl
@[simp] theorem bwInit_regs (s : State) : (bwInit s).regs = s.regs := rfl
@[simp] theorem bwInit_eng (s : State) : (bwInit s).eng = { s.eng with obits := 0, oacc := 0#8 } := rfl
@[simp] theorem bwInit_win (s : State) : (bwInit s).win = s.win := rfl
@[simp] theorem bwInit_src (s : State) : (bwInit s).src = s.src := rfl
@[simp] theorem bwInit_dst (s : State) : (bwInit s).dst = s.dst := rfl
@[simp] theorem bwInit_host (s : State) : (bwInit s).host = s.host := rfl
@[simp] theorem bwInit_unseen (s : State) : (bwInit s).unseen = s.unseen := rfl
@[simp] theorem bwInit_draws (s : State) : (bwInit s).draws = s.draws := rfl

/-! ### brInit -/

@[simp] theorem brInit_hw (s : State) : (brInit s).hw = s.hw := rfl
@[simp] theorem brInit_place (s : State) : (brInit s).place = s.place := rfl
@[simp] theorem brInit_regs (s : State) : (brInit s).regs = s.regs := rfl
@[simp] theorem brInit_eng (s : State) : (brInit s).eng = { s.eng with ibits := 0 } := rfl
@[simp] theorem brInit_win (s : State) : (brInit s).win = s.win := rfl
@[simp] theorem brInit_src (s : State) : (brInit s).src = s.src := rfl
@[simp] theorem brInit_dst (s : State) : (brInit s).dst = s.dst := rfl
@[simp] theorem brInit_host (s : State) : (brInit s).host = s.host := rfl
@[simp] theorem brInit_unseen (s : State) : (brInit s).unseen = s.unseen := rfl
@[simp] theorem brInit_draws (s : State) : (brInit s).draws = s.draws := rfl

/-! ### accept -/

@[simp] theorem accept_hw (c : Command) (s : State) : (accept c s).hw = s.hw := rfl
@[simp] theorem accept_place (c : Command) (s : State) : (accept c s).place = s.place := rfl
@[simp] theorem accept_regs (c : Command) (s : State) :
    (accept c s).regs =
      { s.regs with done := false, err := .ok, busy := true } := rfl
@[simp] theorem accept_eng (c : Command) (s : State) :
    (accept c s).eng =
      { s.eng with phase := .init, cur := c } := rfl
@[simp] theorem accept_win (c : Command) (s : State) : (accept c s).win = s.win := rfl
@[simp] theorem accept_src (c : Command) (s : State) : (accept c s).src = s.src := rfl
@[simp] theorem accept_dst (c : Command) (s : State) : (accept c s).dst = s.dst := rfl
@[simp] theorem accept_host (c : Command) (s : State) : (accept c s).host = s.host := rfl
@[simp] theorem accept_unseen (c : Command) (s : State) : (accept c s).unseen = s.unseen.supersede := rfl
@[simp] theorem accept_draws (c : Command) (s : State) : (accept c s).draws = s.draws := rfl

/-! ### emitByte -/

@[simp] theorem emitByte_hw (b : Byte) (s : State) : (emitByte b s).hw = s.hw := rfl
@[simp] theorem emitByte_place (b : Byte) (s : State) : (emitByte b s).place = s.place := rfl
@[simp] theorem emitByte_regs (b : Byte) (s : State) : (emitByte b s).regs = s.regs := rfl
@[simp] theorem emitByte_eng (b : Byte) (s : State) :
    (emitByte b s).eng =
      { s.eng with outn := s.eng.outn + 1 } := rfl
@[simp] theorem emitByte_cells (b : Byte) (s : State) :
    (emitByte b s).win.cells = s.win.cells.write s.win.cur b := rfl
@[simp] theorem emitByte_draw (b : Byte) (s : State) : (emitByte b s).win.draw = s.win.draw := rfl
@[simp] theorem emitByte_cur (b : Byte) (s : State) : (emitByte b s).win.cur = (s.win.cur + 1) % s.n := rfl
@[simp] theorem emitByte_entry (b : Byte) (s : State) (i : Nat) :
    (emitByte b s).win.entry i = if i = s.win.cur then b else s.win.entry i :=
  winWrite_entry b (s.putDst s.eng.outn b) i
@[simp] theorem emitByte_src (b : Byte) (s : State) : (emitByte b s).src = s.src := rfl
@[simp] theorem emitByte_dst (b : Byte) (s : State) :
    (emitByte b s).dst =
      { s.dst with cells := s.dst.cells.write s.eng.outn b } := rfl
@[simp] theorem emitByte_host (b : Byte) (s : State) : (emitByte b s).host = s.host := rfl
@[simp] theorem emitByte_unseen (b : Byte) (s : State) : (emitByte b s).unseen = s.unseen := rfl
@[simp] theorem emitByte_draws (b : Byte) (s : State) : (emitByte b s).draws = s.draws := rfl

/-! ### returnData -/

@[simp] theorem returnData_hw (v : Word) (s : State) : (returnData v s).hw = s.hw := rfl
@[simp] theorem returnData_place (v : Word) (s : State) : (returnData v s).place = s.place := rfl
@[simp] theorem returnData_regs (v : Word) (s : State) : (returnData v s).regs = s.regs := rfl
@[simp] theorem returnData_eng (v : Word) (s : State) : (returnData v s).eng = s.eng := rfl
@[simp] theorem returnData_win (v : Word) (s : State) : (returnData v s).win = s.win := rfl
@[simp] theorem returnData_src (v : Word) (s : State) : (returnData v s).src = s.src := rfl
@[simp] theorem returnData_dst (v : Word) (s : State) : (returnData v s).dst = s.dst := rfl
@[simp] theorem returnData_host (v : Word) (s : State) : (returnData v s).host = { s.host with rdata := v } := rfl
@[simp] theorem returnData_unseen (v : Word) (s : State) : (returnData v s).unseen = s.unseen := rfl
@[simp] theorem returnData_draws (v : Word) (s : State) : (returnData v s).draws = s.draws := rfl

/-! ### readStatus -/

@[simp] theorem readStatus_eq (s : State) :
    readStatus s = { s with host.rdata := statusWord s.regs, unseen := s.unseen.seeIf s.regs.done } := rfl

/-! ### What depends on CFG alone -/

theorem State.params_eq {s t : State} (h : t.regs.cfg = s.regs.cfg) : t.params = s.params := by
  simp [State.params, h]

theorem State.n_eq {s t : State} (h : t.regs.cfg = s.regs.cfg) : t.n = s.n := by
  simp [State.n, State.params_eq h]

theorem State.legal_eq {s t : State} (h : t.regs.cfg = s.regs.cfg) (hh : t.hw = s.hw) : t.legal = s.legal := by
  simp [State.legal, State.params_eq h, hh]

theorem State.n_pos (s : State) : 0 < s.n := Nat.two_pow_pos _

/-! ### readDst -/

/-- Everything a host read of DST can do: it returns data, and may draw a free value. -/
theorem readDst_eq (i : Nat) (s : State) :
    readDst i s = { s with host.rdata := (readDst i s).host.rdata, draws := (readDst i s).draws } := by
  unfold readDst
  split <;> rfl

/-- A byte the host may rely on reads as it stands. -/
theorem readDst_of_not {i : Nat} {s : State} (h : s.hidesDst i = false) :
    readDst i s = returnData ((s.dst.read i).setWidth 32) s := if_neg (by simp [h])

/-- Any other reads as a free byte. -/
theorem readDst_of_hidden {i : Nat} {s : State} (h : s.hidesDst i = true) :
    readDst i s =
      { s with host.rdata := (Config.freeDst s.draws i).setWidth 32, draws := s.draws + 1 } := if_pos h

@[simp] theorem readDst_hw (i : Nat) (s : State) : (readDst i s).hw = s.hw := by rw [readDst_eq]
@[simp] theorem readDst_place (i : Nat) (s : State) : (readDst i s).place = s.place := by rw [readDst_eq]
@[simp] theorem readDst_regs (i : Nat) (s : State) : (readDst i s).regs = s.regs := by rw [readDst_eq]
@[simp] theorem readDst_eng (i : Nat) (s : State) : (readDst i s).eng = s.eng := by rw [readDst_eq]
@[simp] theorem readDst_win (i : Nat) (s : State) : (readDst i s).win = s.win := by rw [readDst_eq]
@[simp] theorem readDst_src (i : Nat) (s : State) : (readDst i s).src = s.src := by rw [readDst_eq]
@[simp] theorem readDst_unseen (i : Nat) (s : State) : (readDst i s).unseen = s.unseen := by rw [readDst_eq]
@[simp] theorem readDst_dst (i : Nat) (s : State) : (readDst i s).dst = s.dst := by rw [readDst_eq]

end Sys2Proof.Machine
end

