-- ==== Sys2Proof/Laws/Placement.lean ====
section
/-! SUPPORT. SRC and DST where the platform has put them: what a store in one leaves in the other, and that a command
whose buffers do not overlap leaves its SRC as it was. -/

namespace Sys2Proof.Machine

/-! ## The shared bytes -/

theorem Span.home_eq_some {sp : Span} {i j : Nat} :
    sp.home i = some j ↔ sp.src ≤ i ∧ i < sp.src + sp.len ∧ j = sp.dst + (i - sp.src) := by
  unfold Span.home
  split
  · simp_all [eq_comm]
  · simp
    omega

/-- Where the buffers do not overlap, a byte of SRC[0..srcLen) that DST shares stands at dstCap or above there. -/
theorem Placement.home_ge {p : Placement} {srcLen dstCap i j : Nat} (h : p.overlaps srcLen dstCap = false)
    (hi : i < srcLen) (hj : p.home i = some j) : dstCap ≤ j := by
  obtain ⟨sp, hmem, hsp⟩ := List.exists_of_findSome?_eq_some hj
  obtain ⟨h1, h2, h3⟩ := Span.home_eq_some.1 hsp
  have := (List.any_eq_false.1 h) sp hmem
  simp only [Bool.and_eq_true, decide_eq_true_eq] at this
  omega

/-! ## When a command may run -/

theorem State.misplaced_eq_none {s : State} :
    s.misplaced = none ↔ s.place.plain = true ∧ s.overlaps = false := by
  unfold State.misplaced
  cases s.place.plain <;> cases s.overlaps <;> simp

theorem State.overlaps_eq {s t : State} (hp : t.place = s.place) (hl : t.regs.srcLen = s.regs.srcLen)
    (hc : t.regs.dstCap = s.regs.dstCap) : t.overlaps = s.overlaps := by
  simp [State.overlaps, hp, hl, hc]

theorem State.misplaced_eq {s t : State} (hp : t.place = s.place) (hl : t.regs.srcLen = s.regs.srcLen)
    (hc : t.regs.dstCap = s.regs.dstCap) : t.misplaced = s.misplaced := by
  simp [State.misplaced, hp, State.overlaps_eq hp hl hc]

/-- Everything an acceptance can do. -/
theorem start_eq (c : Command) (s : State) :
    start c s =
      if s.legal then
        match s.misplaced with
        | some r => .refused r
        | none => .next (accept c s)
      else .next (reject .param (accept c s)) := by
  have hl : (accept c s).legal = s.legal := State.legal_eq rfl rfl
  have hm : (accept c s).misplaced = s.misplaced := State.misplaced_eq rfl rfl rfl
  cases h1 : s.legal <;> cases h2 : s.misplaced <;> simp [start, hl, hm, h1, h2]

/-! ## SRC's bytes -/

theorem State.srcByte_eq {s t : State} (hs : t.src = s.src) (hp : t.place = s.place) (hd : t.dst = s.dst) (i : Nat) :
    t.srcByte i = s.srcByte i := by
  simp [State.srcByte, hs, hp, hd]

/-- A change of DST below DST_CAP leaves SRC[0..SRC_LEN) as it was, where the two do not overlap. -/
theorem State.srcByte_kept {s t : State} (hs : t.src = s.src) (hp : t.place = s.place)
    (hd : ∀ a, s.regs.dstCap.toNat ≤ a → t.dst.read a = s.dst.read a) (ho : s.overlaps = false) {i : Nat}
    (hi : i < s.regs.srcLen.toNat) : t.srcByte i = s.srcByte i := by
  unfold State.srcByte
  rw [hp]
  cases h : s.place.home i with
  | none => simp [hs]
  | some j => exact hd j (Placement.home_ge ho hi h)

/-- A byte stored in DST is the byte of SRC that shares its place. -/
theorem putDst_srcByte (i a : Nat) (v : Byte) (s : State) :
    (s.putDst i v).srcByte a = if s.place.home a = some i then v else s.srcByte a := by
  unfold State.srcByte
  simp only [putDst_place]
  cases h : s.place.home a with
  | none => simp
  | some j => simp [eq_comm]

/-- A byte stored in SRC is the byte of DST that shares its place. -/
theorem putSrc_read (i a : Nat) (v : Byte) (s : State) :
    (s.putSrc i v).dst.read a = if s.place.home i = some a then v else s.dst.read a := by
  unfold State.putSrc
  cases h : s.place.home i with
  | none => simp
  | some j => simp [eq_comm]

/-- A byte stored in SRC is read back there, and at whatever SRC index shares its place. -/
theorem putSrc_srcByte (i a : Nat) (v : Byte) (s : State) :
    (s.putSrc i v).srcByte a =
      if a = i ∨ (s.place.home a = s.place.home i ∧ s.place.home i ≠ none) then v else s.srcByte a := by
  unfold State.putSrc
  cases h : s.place.home i with
  | none =>
    by_cases ha : a = i
    · subst ha
      simp [State.srcByte, h]
    · simp [State.srcByte, Memory.lookup_write, ha]
  | some j =>
    simp only [putDst_srcByte]
    by_cases ha : a = i
    · subst ha
      simp [h]
    · simp [ha]

/-- A store in SRC changes nothing but SRC's own bytes and the DST byte that shares its place. -/
theorem putSrc_eq (i : Nat) (v : Byte) (s : State) :
    s.putSrc i v = { s with src := (s.putSrc i v).src, dst := (s.putSrc i v).dst } := by
  unfold State.putSrc
  split <;> rfl

@[simp] theorem putSrc_hw (i : Nat) (v : Byte) (s : State) : (s.putSrc i v).hw = s.hw := by rw [putSrc_eq]
@[simp] theorem putSrc_regs (i : Nat) (v : Byte) (s : State) : (s.putSrc i v).regs = s.regs := by rw [putSrc_eq]
@[simp] theorem putSrc_eng (i : Nat) (v : Byte) (s : State) : (s.putSrc i v).eng = s.eng := by rw [putSrc_eq]
@[simp] theorem putSrc_win (i : Nat) (v : Byte) (s : State) : (s.putSrc i v).win = s.win := by rw [putSrc_eq]
@[simp] theorem putSrc_place (i : Nat) (v : Byte) (s : State) : (s.putSrc i v).place = s.place := by rw [putSrc_eq]
@[simp] theorem putSrc_host (i : Nat) (v : Byte) (s : State) : (s.putSrc i v).host = s.host := by rw [putSrc_eq]
@[simp] theorem putSrc_unseen (i : Nat) (v : Byte) (s : State) : (s.putSrc i v).unseen = s.unseen := by rw [putSrc_eq]
@[simp] theorem putSrc_draws (i : Nat) (v : Byte) (s : State) : (s.putSrc i v).draws = s.draws := by rw [putSrc_eq]

theorem putSrc_wf (i : Nat) (v : Byte) (s : State) (hs : s.src.wf = true) (hd : s.dst.cells.wf = true) :
    (s.putSrc i v).src.wf = true ∧ (s.putSrc i v).dst.cells.wf = true ∧ (s.putSrc i v).dst.lost = s.dst.lost := by
  unfold State.putSrc
  split
  · exact ⟨hs, Memory.write_wf _ _ _ hd, rfl⟩
  · exact ⟨Memory.write_wf _ _ _ hs, hd, rfl⟩

end Sys2Proof.Machine
end

