-- ==== Sys2Proof/Laws/Unseen.lean ====
section
/-! SUPPORT. What the host may rely on: which DST bytes each operation on `Unseen` hides, and what it leaves of the last
command. -/

namespace Sys2Proof.Machine

/-! ## The last command -/

@[simp] theorem Unseen.supersede_last (u : Unseen) : u.supersede.last = none := by
  unfold Unseen.supersede
  split <;> simp_all

@[simp] theorem Unseen.see_last (u : Unseen) : u.see.last = none := by
  unfold Unseen.see
  split <;> simp_all

@[simp] theorem Unseen.record_last (w : Nat) (u : Unseen) : (u.record w).last = some w := rfl

@[simp] theorem Unseen.seeIf_last (b : Bool) (u : Unseen) : (u.seeIf b).last = if b then none else u.last := by
  cases b <;> simp [Unseen.seeIf]

theorem Unseen.supersede_of_none {u : Unseen} (h : u.last = none) : u.supersede = u := by
  simp [Unseen.supersede, h]

theorem Unseen.see_of_none {u : Unseen} (h : u.last = none) : u.see = u := by
  simp [Unseen.see, h]

@[simp] theorem Unseen.supersede_supersede (u : Unseen) : u.supersede.supersede = u.supersede :=
  Unseen.supersede_of_none u.supersede_last

@[simp] theorem Unseen.record_supersede (w : Nat) (u : Unseen) : u.supersede.record w = u.record w := by
  simp [Unseen.record]

/-! ## The bytes hidden -/

theorem Unseen.hides_iff {u : Unseen} {i : Nat} :
    u.hides i = true ↔ (∃ w, u.last = some w ∧ i < w) ∨ ∃ e ∈ u.older, e.lo ≤ i ∧ i < e.hi := by
  simp [Unseen.hides, Option.any_eq_true, List.any_eq_true]

/-- Nothing comes into sight, and nothing more is hidden, when the next command is accepted. -/
@[simp] theorem Unseen.supersede_hides (u : Unseen) (i : Nat) : u.supersede.hides i = u.hides i := by
  rw [Bool.eq_iff_iff, Unseen.hides_iff, Unseen.hides_iff]
  unfold Unseen.supersede
  cases hw : u.last with
  | none => simp [hw]
  | some w =>
    by_cases h0 : w = 0
    · simp [h0]
    · simp only [h0, if_false, reduceCtorEq, false_and, exists_false, false_or, List.mem_cons, List.mem_filter,
        decide_eq_true_eq, Option.some.injEq]
      constructor
      · rintro ⟨e, rfl | ⟨he, -⟩, h1, h2⟩
        · exact .inl ⟨w, rfl, h2⟩
        · exact .inr ⟨e, he, h1, h2⟩
      · rintro (⟨w', rfl, h⟩ | ⟨e, he, h1, h2⟩)
        · exact ⟨⟨0, w⟩, .inl rfl, Nat.zero_le _, h⟩
        · by_cases hc : w < e.hi
          · exact ⟨e, .inr ⟨he, hc⟩, h1, h2⟩
          · exact ⟨⟨0, w⟩, .inl rfl, Nat.zero_le _, by show i < w; omega⟩

/-- A completion hides what the command wrote. -/
@[simp] theorem Unseen.record_hides (w : Nat) (u : Unseen) (i : Nat) :
    (u.record w).hides i = (decide (i < w) || u.hides i) := by
  rw [← u.supersede_hides i]
  simp [Unseen.record, Unseen.hides]

/-- What the command the host sees complete wrote comes into sight, and nothing else does (20_memory R63). -/
theorem Unseen.see_hides {u : Unseen} {w : Nat} (h : u.last = some w) (i : Nat) :
    u.see.hides i = (decide (w ≤ i) && u.hides i) := by
  rw [Bool.eq_iff_iff, Bool.and_eq_true, Unseen.hides_iff, Unseen.hides_iff]
  simp only [Unseen.see, h, reduceCtorEq, false_and, exists_false, false_or, List.mem_filter, List.mem_map,
    decide_eq_true_eq, Option.some.injEq]
  constructor
  · rintro ⟨_, ⟨⟨e, he, rfl⟩, -⟩, h1, h2⟩
    have h1 : max e.lo w ≤ i := h1
    exact ⟨by omega, .inr ⟨e, he, by omega, h2⟩⟩
  · rintro ⟨hi, ⟨w', rfl, hlt⟩ | ⟨e, he, h1, h2⟩⟩
    · omega
    · exact ⟨_, ⟨⟨e, he, rfl⟩, by show max e.lo w < e.hi; omega⟩, by show max e.lo w ≤ i; omega, h2⟩

/-! ## The form of the older extents: none is empty -/

theorem Unseen.supersede_extents {u : Unseen} (h : ∀ e ∈ u.older, e.lo < e.hi) :
    ∀ e ∈ u.supersede.older, e.lo < e.hi := by
  unfold Unseen.supersede
  cases u.last with
  | none => exact h
  | some w =>
    by_cases h0 : w = 0
    · simpa [h0] using h
    · simp only [h0, if_false, List.mem_cons, List.mem_filter]
      rintro e (rfl | ⟨he, -⟩)
      · exact Nat.pos_of_ne_zero h0
      · exact h e he

theorem Unseen.see_extents {u : Unseen} (h : ∀ e ∈ u.older, e.lo < e.hi) : ∀ e ∈ u.see.older, e.lo < e.hi := by
  unfold Unseen.see
  cases u.last with
  | none => exact h
  | some w => simp

theorem Unseen.seeIf_extents {u : Unseen} (b : Bool) (h : ∀ e ∈ u.older, e.lo < e.hi) :
    ∀ e ∈ (u.seeIf b).older, e.lo < e.hi := by
  cases b
  · exact h
  · exact Unseen.see_extents h

theorem Unseen.record_extents {u : Unseen} (w : Nat) (h : ∀ e ∈ u.older, e.lo < e.hi) :
    ∀ e ∈ (u.record w).older, e.lo < e.hi := Unseen.supersede_extents h

end Sys2Proof.Machine
end

