-- ==== Sys2Proof/Laws/Ops.lean ====
section
/-! SUPPORT. One lemma for each shared operation that says all it can do: its value where it answers, the error and the
state where it raises, and what it leaves alone. -/

namespace Sys2Proof.Machine

/-! ## How a command ends -/

/-- abort leaves DST at DST_CAP and above. -/
theorem abort_read (code : ErrCode) {s u : State} (hregs : u.regs = s.regs)
    (hdst : ∀ a, s.regs.dstCap.toNat ≤ a → u.dst.read a = s.dst.read a) (a : Nat) (ha : s.regs.dstCap.toNat ≤ a) :
    (abort code u).dst.read a = s.dst.read a := by
  have : ¬ a < s.regs.dstCap.toNat := by omega
  show u.loseDst.dst.read a = _
  rw [State.loseDst_read, hregs, if_neg this, hdst a ha]

/-- abort ends the command of any state that agrees with s on what a failed command keeps. -/
theorem abort_failed (code : ErrCode) {s u : State} (hcode : code ≠ .ok)
    (hregs : u.regs = s.regs) (hhw : u.hw = s.hw) (hsrc : u.src = s.src) (hplace : u.place = s.place)
    (hhost : u.host = s.host) (hunseen : u.unseen = s.unseen)
    (hdst : ∀ a, s.regs.dstCap.toNat ≤ a → u.dst.read a = s.dst.read a) : Failed code s (abort code u) where
  phase := rfl
  status := ⟨rfl, rfl, rfl⟩
  outCount := by simp [abort, hcode, errorCount]
  args := by simp [abort, hregs]
  irqEn := by simp [abort, hregs]
  hw := by simp [abort, hhw]
  src := by simp [abort, hsrc, hplace]
  host := by simp [abort, hhost]
  unseen := by simp [abort, hunseen, hregs]
  dst := abort_read code hregs hdst
  srcBytes := fun ho _ hi =>
    State.srcByte_kept (by simp [abort, hsrc]) (by simp [abort, hplace]) (abort_read code hregs hdst) ho hi

theorem reject_rejected (code : ErrCode) (c : Command) (s : State) (hcode : code ≠ .ok) :
    Rejected code s (reject code (accept c s)) where
  phase := rfl
  status := ⟨rfl, rfl, rfl⟩
  outCount := by simp [reject, hcode, errorCount]
  args := ⟨rfl, rfl, rfl⟩
  irqEn := rfl
  hw := rfl
  src := ⟨rfl, rfl⟩
  dst := rfl
  win := rfl
  host := rfl
  unseen := by simp [reject]

theorem succeed_succeeded (out used : Word) {s u : State} (hregs : u.regs = s.regs) (hhw : u.hw = s.hw)
    (hsrc : u.src = s.src) (hplace : u.place = s.place) (hhost : u.host = s.host)
    (hunseen : u.unseen = s.unseen)
    (hdst : ∀ a, s.regs.dstCap.toNat ≤ a → u.dst.read a = s.dst.read a) :
    Succeeded out used s (succeed out used u) where
  phase := rfl
  status := ⟨rfl, rfl, rfl⟩
  results := ⟨rfl, rfl⟩
  args := by simp [succeed, hregs]
  irqEn := by simp [succeed, hregs]
  hw := by simp [succeed, hhw]
  src := by simp [succeed, hsrc, hplace]
  host := by simp [succeed, hhost]
  unseen := by simp [succeed, hunseen, hregs]
  srcBytes := fun ho _ hi => State.srcByte_kept hsrc hplace hdst ho hi

@[simp] theorem succeed_dst (out used : Word) (s : State) : (succeed out used s).dst = s.dst := rfl

/-! ## The writer -/

theorem storeByte_error {k : Nat} {v : Byte} {s : State} {e : ErrCode × State} (h : storeByte k v s = .error e) :
    s.regs.dstCap.toNat ≤ k ∧ e = (.capacity, s) := by
  unfold storeByte at h
  split at h
  · exact ⟨‹_›, by simpa using h.symm⟩
  · cases h

theorem storeByte_ok {k : Nat} {v : Byte} {s t : State} (h : storeByte k v s = .ok t) :
    k < s.regs.dstCap.toNat ∧ t = s.putDst k v := by
  unfold storeByte at h
  split at h
  · cases h
  · exact ⟨by omega, by simpa using h.symm⟩

theorem storeFull_ok {s t : State} (h : storeFull s = .ok t) :
    (s.eng.obits % 8 ≠ 0 ∧ t = s) ∨
    (s.eng.obits % 8 = 0 ∧ s.eng.obits / 8 - 1 < s.regs.dstCap.toNat ∧
      t = { s.putDst (s.eng.obits / 8 - 1) s.eng.oacc with eng.oacc := 0#8 }) := by
  unfold storeFull at h
  split at h
  · split at h
    · rename_i u hu
      obtain ⟨hk, rfl⟩ := storeByte_ok hu
      exact .inr ⟨‹_›, hk, by simpa using h.symm⟩
    · cases h
  · exact .inl ⟨‹_›, by simpa using h.symm⟩

theorem storeFull_error {s : State} {e : ErrCode × State} (h : storeFull s = .error e) :
    s.eng.obits % 8 = 0 ∧ s.regs.dstCap.toNat ≤ s.eng.obits / 8 - 1 ∧ e = (.capacity, s) := by
  unfold storeFull at h
  split at h
  · split at h
    · cases h
    · rename_i e' he
      obtain ⟨hk, rfl⟩ := storeByte_error he
      exact ⟨‹_›, hk, by simpa using h.symm⟩
  · cases h

/-- A bit that fits: into OACC, or with it into DST. -/
theorem putBit_ok {b : Bool} {s t : State} (h : putBit b s = .ok t) :
    ((s.eng.obits + 1) % 8 ≠ 0 ∧ t = accBit b s) ∨
    ((s.eng.obits + 1) % 8 = 0 ∧ s.eng.obits / 8 < s.regs.dstCap.toNat ∧
      t = { s with
        dst.cells := s.dst.cells.write (s.eng.obits / 8) (accBit b s).eng.oacc
        eng.oacc := 0#8
        eng.obits := s.eng.obits + 1 }) := by
  rcases storeFull_ok h with ⟨h8, rfl⟩ | ⟨h8, hk, rfl⟩
  · exact .inl ⟨h8, rfl⟩
  · have h8' : (s.eng.obits + 1) % 8 = 0 := h8
    have hdiv : (s.eng.obits + 1) / 8 - 1 = s.eng.obits / 8 := by omega
    refine .inr ⟨h8, ?_, ?_⟩
    · exact hdiv ▸ hk
    · rw [← hdiv]
      rfl

/-- A bit that does not fit: it completes a byte at DST_CAP or above. -/
theorem putBit_error {b : Bool} {s : State} {e : ErrCode × State} (h : putBit b s = .error e) :
    (s.eng.obits + 1) % 8 = 0 ∧ s.regs.dstCap.toNat ≤ s.eng.obits / 8 ∧ e = (.capacity, accBit b s) := by
  obtain ⟨h8, hk, rfl⟩ := storeFull_error h
  have h8' : (s.eng.obits + 1) % 8 = 0 := h8
  have hk' : s.regs.dstCap.toNat ≤ (s.eng.obits + 1) / 8 - 1 := hk
  exact ⟨h8, by omega, rfl⟩

/-- Bits put without error change the writer and DST below DST_CAP only. -/
theorem putBits_frame {bits : List Bool} {s t : State} (h : putBits bits s = .ok t) :
    t = { s with dst := t.dst, eng.obits := s.eng.obits + bits.length, eng.oacc := t.eng.oacc } ∧
      t.dst.lost = s.dst.lost ∧
      (∀ a, a < s.eng.obits / 8 ∨ (s.eng.obits + bits.length) / 8 ≤ a → t.dst.read a = s.dst.read a) ∧
      (s.dst.cells.wf = true → t.dst.cells.wf = true) ∧
      (s.eng.obits / 8 ≤ s.regs.dstCap.toNat → (s.eng.obits + bits.length) / 8 ≤ s.regs.dstCap.toNat) := by
  induction bits generalizing s with
  | nil =>
    obtain rfl : s = t := by simpa [putBits] using h
    simp
  | cons b bits ih =>
    simp only [putBits] at h
    split at h
    · rename_i u hu
      obtain ⟨h1, h2, h3, h4, h5⟩ := ih h
      rcases putBit_ok hu with ⟨h8, rfl⟩ | ⟨h8, hk, rfl⟩
      · have ho : (accBit b s).eng.obits = s.eng.obits + 1 := rfl
        rw [ho] at h1 h3 h5
        simp only [List.length_cons]
        refine ⟨?_, h2, fun a ha => h3 a (by omega), h4, fun hs => ?_⟩
        · rw [h1, Nat.add_assoc, Nat.add_comm 1]
          rfl
        · have : (s.eng.obits + 1 + bits.length) / 8 ≤ s.regs.dstCap.toNat := h5 (by
            show (s.eng.obits + 1) / 8 ≤ s.regs.dstCap.toNat
            omega)
          omega
      · refine ⟨?_, h2, ?_, ?_, ?_⟩
        · rw [h1]
          simp [Nat.add_assoc, Nat.add_comm 1]
        · intro a ha
          simp only [List.length_cons] at ha
          rw [h3 a (by show a < (s.eng.obits + 1) / 8 ∨ (s.eng.obits + 1 + bits.length) / 8 ≤ a; omega)]
          exact (Dest.read_write s.dst _ _ _).trans (if_neg (by omega))
        · intro hs
          exact h4 (Memory.write_wf _ _ _ hs)
        · intro hs
          simp only [List.length_cons] at h5 ⊢
          have := h5 (by show (s.eng.obits + 1) / 8 ≤ s.regs.dstCap.toNat; omega)
          omega
    · cases h

/-- Bits that do not fit: ERR_CAPACITY, in a state that differs from s in the writer and in DST below DST_CAP only. -/
theorem putBits_error {bits : List Bool} {s u : State} {code : ErrCode} (h : putBits bits s = .error (code, u)) :
    code = .capacity ∧ u.regs = s.regs ∧ u.hw = s.hw ∧ u.src = s.src ∧ u.place = s.place ∧ u.host = s.host ∧
      u = { s with dst := u.dst, eng.obits := u.eng.obits, eng.oacc := u.eng.oacc } ∧ u.dst.lost = s.dst.lost ∧
      (∀ a, s.regs.dstCap.toNat ≤ a → u.dst.read a = s.dst.read a) ∧
      (s.dst.cells.wf = true → u.dst.cells.wf = true) := by
  induction bits generalizing s with
  | nil => simp [putBits] at h
  | cons b bits ih =>
    simp only [putBits] at h
    split at h
    · rename_i v hv
      obtain ⟨h1, h2, h3, h4, hp, h5, h6, h7, h8, h9⟩ := ih h
      rcases putBit_ok hv with ⟨_, rfl⟩ | ⟨_, hk, rfl⟩
      · exact ⟨h1, h2, h3, h4, hp, h5, h6, h7, h8, h9⟩
      · refine ⟨h1, h2, h3, h4, hp, h5, h6, h7, ?_, fun hs => h9 (Memory.write_wf _ _ _ hs)⟩
        intro a ha
        rw [h8 a ha]
        exact (Dest.read_write s.dst _ _ _).trans (if_neg (by omega))
    · rename_i e he
      obtain ⟨_, _, rfl⟩ := putBit_error he
      obtain ⟨rfl, rfl⟩ : .capacity = code ∧ _ = u := by simpa using h
      exact ⟨rfl, rfl, rfl, rfl, rfl, rfl, rfl, rfl, fun _ _ => rfl, id⟩

/-! ## The window -/

/-- The bytes a token consumes go into the window and nowhere else. -/
theorem winConsume_frame (i k : Nat) (s : State) :
    winConsume i k s = { s with win := (winConsume i k s).win } ∧
      (winConsume i k s).win.draw = s.win.draw ∧
      (s.win.cells.wf = true → (winConsume i k s).win.cells.wf = true) ∧
      (s.win.cur < s.n → (winConsume i k s).win.cur < s.n ∧
        (∀ a, s.n ≤ a → (winConsume i k s).win.entry a = s.win.entry a) ∧
        (∀ m, s.n ≤ m → (∀ c ∈ s.win.cells, c.1 < m) → ∀ c ∈ (winConsume i k s).win.cells, c.1 < m)) := by
  induction k generalizing i s with
  | zero => exact ⟨rfl, rfl, id, fun h => ⟨h, fun _ _ => rfl, fun _ _ h => h⟩⟩
  | succ k ih =>
    obtain ⟨h1, h2, h3, h4⟩ := ih (i + 1) (winWrite (s.srcByte i) s)
    simp only [winConsume]
    refine ⟨?_, h2, fun hs => h3 (Memory.write_wf _ _ _ hs), fun hc => ?_⟩
    · rw [h1]
      rfl
    · have hn : (winWrite (s.srcByte i) s).n = s.n := rfl
      rw [hn] at h4
      obtain ⟨h5, h6, h7⟩ := h4 (Nat.mod_lt _ s.n_pos)
      refine ⟨h5, ?_, ?_⟩
      · intro a ha
        rw [h6 a ha, winWrite_entry, if_neg (by omega)]
      · intro m hm hcells
        refine h7 m hm ?_
        intro c hmem
        rcases Memory.mem_write _ _ _ hmem with rfl | hmem
        · show s.win.cur < m
          omega
        · exact hcells c hmem

theorem winReadback_ok {off : Nat} {s : State} (h1 : 1 ≤ off) (h2 : off ≤ s.n) :
    winReadback off s = .ok (s.win.entry ((s.win.cur + s.n - off) % s.n)) := by
  unfold winReadback
  rw [if_neg (by omega)]

theorem winReadback_error {off : Nat} {s : State} {e : ErrCode × State} (h : winReadback off s = .error e) :
    (off < 1 ∨ s.n < off) ∧ e = (.badOffset, s) := by
  unfold winReadback at h
  split at h
  · exact ⟨‹_›, by simpa using h.symm⟩
  · cases h

/-! ## The reader -/

theorem getBits_ok_iff {w : Nat} {s : State} :
    getBits w s = .ok (s.streamBits s.eng.ibits w, { s with eng.ibits := s.eng.ibits + w }) ↔
      s.eng.ibits + w ≤ 8 * s.regs.srcLen.toNat := by
  unfold getBits
  split
  · simp; omega
  · simp; omega

theorem getBits_of_le {w : Nat} {s : State} (h : s.eng.ibits + w ≤ 8 * s.regs.srcLen.toNat) :
    getBits w s = .ok (s.streamBits s.eng.ibits w, { s with eng.ibits := s.eng.ibits + w }) := getBits_ok_iff.2 h

theorem getBits_of_gt {w : Nat} {s : State} (h : 8 * s.regs.srcLen.toNat < s.eng.ibits + w) :
    getBits w s = .error (.srcExhausted, s) := by
  unfold getBits
  rw [if_pos h]

@[simp] theorem State.streamBits_length (s : State) (t w : Nat) : (s.streamBits t w).length = w := by
  simp [State.streamBits]

theorem State.streamBits_append (s : State) (t v w : Nat) :
    s.streamBits t v ++ s.streamBits (t + v) w = s.streamBits t (v + w) := by
  simp only [State.streamBits, List.range_add, List.map_append, List.map_map]
  congr 1
  apply List.map_congr_left
  intro i _
  simp [Nat.add_assoc]

/-- The bits a token's payload takes (R79). -/
def payloadWidth (pr : Params) (flag : Bool) : Nat := if flag then 8 else pr.ei + pr.ej

theorem decodePayload_whole (o : BitOrder) (pr : Params) (flag : Bool) (bits : List Bool)
    (h : bits.length = payloadWidth pr flag) :
    decodePayload o pr flag bits = .ok
      (if flag then .lit (BitVec.ofNat 8 (fieldValue o bits))
        else .matchTok (fieldValue o (bits.take pr.ei) + 1) (lenOperand pr (fieldValue o (bits.drop pr.ei))), []) := by
  cases flag with
  | true =>
    have h8 : bits.length = 8 := h
    simp [decodePayload, takeField, h8, List.take_of_length_le]
  | false =>
    have hl : bits.length = pr.ei + pr.ej := h
    have h1 : pr.ei ≤ bits.length := by omega
    have h2 : (bits.drop pr.ei).length = pr.ej := by simp [hl]
    simp [decodePayload, takeField, hl, h2, offOperand, List.take_of_length_le (Nat.le_of_eq h2)]

/-- A token whose payload lies in SRC is read whole. -/
theorem fetchToken_ok (flag : Bool) (s : State)
    (h : s.eng.ibits + payloadWidth s.params flag ≤ 8 * s.regs.srcLen.toNat) :
    fetchToken flag s = .ok
      (if flag then .lit (BitVec.ofNat 8 (fieldValue s.hw.order (s.streamBits s.eng.ibits 8)))
        else .matchTok (fieldValue s.hw.order (s.streamBits s.eng.ibits s.params.ei) + 1)
          (lenOperand s.params (fieldValue s.hw.order (s.streamBits (s.eng.ibits + s.params.ei) s.params.ej))),
        { s with eng.ibits := s.eng.ibits + payloadWidth s.params flag }) := by
  cases flag with
  | true =>
    have h8 : s.eng.ibits + 8 ≤ 8 * s.regs.srcLen.toNat := h
    have hd := decodePayload_whole s.hw.order s.params true (s.streamBits s.eng.ibits 8) (by simp [payloadWidth])
    simp only [fetchToken, getPayload, getBits_of_le h8, hd]
    rfl
  | false =>
    have hw : s.eng.ibits + (s.params.ei + s.params.ej) ≤ 8 * s.regs.srcLen.toNat := h
    have h1 : s.eng.ibits + s.params.ei ≤ 8 * s.regs.srcLen.toNat := by omega
    let t : State := { s with eng.ibits := s.eng.ibits + s.params.ei }
    have h2 : t.eng.ibits + s.params.ej ≤ 8 * t.regs.srcLen.toNat := by
      show s.eng.ibits + s.params.ei + s.params.ej ≤ 8 * s.regs.srcLen.toNat
      omega
    have hb : t.streamBits t.eng.ibits s.params.ej = s.streamBits (s.eng.ibits + s.params.ei) s.params.ej := rfl
    have hd := decodePayload_whole s.hw.order s.params false
      (s.streamBits s.eng.ibits s.params.ei ++ s.streamBits (s.eng.ibits + s.params.ei) s.params.ej)
      (by simp [payloadWidth])
    rw [List.take_left' (by simp), List.drop_left' (by simp)] at hd
    simp only [fetchToken, getPayload, getBits_of_le h1]
    rw [show getBits s.params.ej _ = _ from getBits_of_le h2]
    simp only [hb, hd]
    simp [payloadWidth, t, Nat.add_assoc]

/-- A token cut off by the end of SRC: ERR_SRC_EXHAUSTED, in a state that differs from s in IBITS only. -/
theorem fetchToken_error (flag : Bool) (s : State)
    (h : 8 * s.regs.srcLen.toNat < s.eng.ibits + payloadWidth s.params flag) :
    ∃ b, fetchToken flag s = .error (.srcExhausted, { s with eng.ibits := b }) := by
  cases flag with
  | true =>
    have h8 : 8 * s.regs.srcLen.toNat < s.eng.ibits + 8 := h
    exact ⟨s.eng.ibits, by simp only [fetchToken, getPayload, getBits_of_gt h8]⟩
  | false =>
    have hw : 8 * s.regs.srcLen.toNat < s.eng.ibits + (s.params.ei + s.params.ej) := h
    by_cases h1 : s.eng.ibits + s.params.ei ≤ 8 * s.regs.srcLen.toNat
    · let t : State := { s with eng.ibits := s.eng.ibits + s.params.ei }
      have h2 : 8 * t.regs.srcLen.toNat < t.eng.ibits + s.params.ej := by
        show 8 * s.regs.srcLen.toNat < s.eng.ibits + s.params.ei + s.params.ej
        omega
      refine ⟨s.eng.ibits + s.params.ei, ?_⟩
      simp only [fetchToken, getPayload, getBits_of_le h1]
      rw [show getBits s.params.ej _ = _ from getBits_of_gt h2]
    · exact ⟨s.eng.ibits, by simp only [fetchToken, getPayload, getBits_of_gt (Nat.lt_of_not_le h1)]⟩

/-! ## The copy -/

/-- The loop of D_COPY: it copies min(k, DST_CAP - OUTN) bytes and changes DST there, the window, OUTN and COPY_K. -/
theorem copyLoop_ok (k : Nat) (s : State) (h1 : 1 ≤ s.eng.tokOff) (h2 : s.eng.tokOff ≤ s.n) :
    ∃ t, copyLoop k s = .ok t ∧
      t = { s with dst := t.dst, win := t.win,
                   eng.outn := s.eng.outn + min k (s.regs.dstCap.toNat - s.eng.outn),
                   eng.copyK := s.eng.copyK + min k (s.regs.dstCap.toNat - s.eng.outn) } ∧
      t.dst.lost = s.dst.lost ∧ t.win.draw = s.win.draw ∧
      (s.dst.cells.wf = true → t.dst.cells.wf = true) ∧ (s.win.cells.wf = true → t.win.cells.wf = true) ∧
      (∀ a, a < s.eng.outn ∨ s.eng.outn + min k (s.regs.dstCap.toNat - s.eng.outn) ≤ a →
        t.dst.read a = s.dst.read a) ∧
      (s.win.cur < s.n → t.win.cur < s.n ∧ (∀ a, s.n ≤ a → t.win.entry a = s.win.entry a) ∧
        (∀ m, s.n ≤ m → (∀ c ∈ s.win.cells, c.1 < m) → ∀ c ∈ t.win.cells, c.1 < m)) := by
  induction k generalizing s with
  | zero => exact ⟨s, rfl, by simp, rfl, rfl, id, id, fun _ _ => rfl, fun h => ⟨h, fun _ _ => rfl, fun _ _ h => h⟩⟩
  | succ k ih =>
    by_cases hd : s.eng.outn < s.regs.dstCap.toNat
    · let c := s.win.entry ((s.win.cur + s.n - s.eng.tokOff) % s.n)
      let u : State := { emitByte c s with eng.copyK := s.eng.copyK + 1 }
      have hstep : copyLoop (k + 1) s = copyLoop k u := by
        simp only [copyLoop, if_pos hd, winReadback_ok h1 h2, u, c]
      obtain ⟨t, g1, g2, g3, g4, g5, g6, g7, g8⟩ := ih u h1 h2
      have hmin : 1 + min k (s.regs.dstCap.toNat - (s.eng.outn + 1)) =
          min (k + 1) (s.regs.dstCap.toNat - s.eng.outn) := by omega
      refine ⟨t, hstep.trans g1, ?_, g3, g4, fun hs => g5 (Memory.write_wf _ _ _ hs),
        fun hs => g6 (Memory.write_wf _ _ _ hs), ?_, ?_⟩
      · rw [g2]
        simp only [u, ← hmin, ← Nat.add_assoc]
        rfl
      · intro a ha
        have hu : u.dst.read a = s.dst.read a :=
          (Dest.read_write s.dst _ _ _).trans (if_neg (by omega))
        rw [g7 a ?_, hu]
        show a < s.eng.outn + 1 ∨ s.eng.outn + 1 + min k (s.regs.dstCap.toNat - (s.eng.outn + 1)) ≤ a
        omega
      · intro hc
        obtain ⟨i1, i2, i3⟩ := g8 (Nat.mod_lt _ s.n_pos)
        refine ⟨i1, ?_, ?_⟩
        · intro a ha
          rw [i2 a ha]
          exact (winWrite_entry c (s.putDst s.eng.outn c) a).trans (if_neg (by
            show ¬ a = s.win.cur
            omega))
        · intro m hm hcells
          refine i3 m hm ?_
          intro x hx
          rcases Memory.mem_write _ _ _ hx with rfl | hx
          · show s.win.cur < m
            omega
          · exact hcells x hx
    · have hz : s.regs.dstCap.toNat - s.eng.outn = 0 := by omega
      refine ⟨s, by simp only [copyLoop, if_neg hd], by simp [hz], rfl, rfl, id, id, fun _ _ => rfl,
        fun h => ⟨h, fun _ _ => rfl, fun _ _ h => h⟩⟩

end Sys2Proof.Machine
end

