-- ==== Sys2Proof/Laws/PerInstr.lean ====
section
/-! SUPPORT. A law of every instruction, one lemma per constructor: what kind of code it has, and how long it is. -/

namespace Sys2Proof

theorem fieldBits_length (o : BitOrder) (w v : Nat) : (fieldBits o w v).length = w := by
  cases o <;> simp [fieldBits]

namespace Laws.CodeWidth

/-- A token's code is a flag and its payload, 9 or 1 + EI + EJ bits as the flag says (30_encoding R79); any other
instruction's code is a command word, which decodes back to it when it is well formed (R84). -/
def Statement (i : Instr) : Prop :=
  ∀ (o : BitOrder) (pr : Params),
    match encode o pr i with
    | .stream bits =>
      i.isToken = true ∧ ∃ flag rest, bits = flag :: rest ∧ bits.length = if flag then 9 else 1 + pr.ei + pr.ej
    | .command w => i.isToken = false ∧ (i.wf pr = true → decodeWord w = i)

theorem lit (c : Byte) : Statement (.lit c) := by
  intro o pr
  exact ⟨rfl, true, _, rfl, by simp [litBits, fieldBits_length]⟩

theorem matchTok (off len : Nat) : Statement (.matchTok off len) := by
  intro o pr
  exact ⟨rfl, false, _, rfl, by simp [matchBits, fieldBits_length]; omega⟩

theorem nop : Statement .nop := fun _ _ => ⟨rfl, fun _ => rfl⟩

theorem compress : Statement .compress := fun _ _ => ⟨rfl, fun _ => rfl⟩

theorem decompress : Statement .decompress := fun _ _ => ⟨rfl, fun _ => rfl⟩

theorem reserved (w : Word) : Statement (.reserved w) := by
  intro o pr
  refine ⟨rfl, fun h => ?_⟩
  have h3 : 3 ≤ w.toNat := by simpa [Instr.wf] using h
  have hw (v : Word) (hv : v.toNat < 3) : w ≠ v := by rintro rfl; omega
  simp [decodeWord, hw 0x00000000#32 (by decide), hw 0x00000001#32 (by decide), hw 0x00000002#32 (by decide)]

end Laws.CodeWidth

end Sys2Proof
end

