-- ==== Sys2Proof/Tests/Slice0.lean ====
section
/-! SUPPORT. The model's own tests: ill-formed terms are refused; words written out from the spec's encodings decode;
one step per instruction against the spec's examples; and, for every statement with hypotheses, concrete states and
operands that meet them (witness_<Name>), each clause at a boundary of its range. -/

namespace Sys2Proof.Tests

open Sys2Proof.Machine

/-! ## Small states -/

/-- The parameter set of the spec's examples: CFG = 0x0102_0204, N = 16, LMAX = 5. -/
def exCfg : Cfg := { ei := 4#5, ej := 2#5, p := 2#8, rless := true }

/-- A legal parameter set with RLESS = 0: (4, 2, 2, 0). -/
def exCfg0 : Cfg := { exCfg with rless := false }

/-- The machine after reset, once the host has placed bytes in SRC and written CFG, SRC_LEN and DST_CAP. -/
def ready (cfg : Cfg) (src : List Byte) (cap : Word) : State :=
  { State.reset with
    src := storeSrc 0 src []
    regs.cfg := cfg
    regs.srcLen := BitVec.ofNat 32 src.length
    regs.dstCap := cap }

/-- A command in progress, its window initialised. -/
def running (ph : Phase) (c : Command) (cfg : Cfg) (src : List Byte) (cap : Word) : State :=
  winInit { ready cfg src cap with regs.busy := true, eng.phase := ph, eng.cur := c }

/-- s, about to take an input. -/
def next (i : Input) (s : State) : State := { s with host.inputs := [i] }

/-- What a step reaches satisfies a test. -/
def steps (o : Out) (f : State → Bool) : Bool :=
  match o with
  | .next t => f t
  | .fault _ => false
  | .refused _ => false

/-- "ABABABA" (95_test_vectors V-C3). -/
def ababa : List Byte := [0x41#8, 0x42#8, 0x41#8, 0x42#8, 0x41#8, 0x42#8, 0x41#8]

/-- Its stream (V-C3). -/
def ababaStream : List Byte := [0x83#8, 0x0A#8, 0x89#8, 0x01#8]

/-- COMPRESS of "ABABABA" has written four bytes and is complete, which the host has not seen; nor has it seen a command
before it that wrote six (20_memory R63). -/
def unseenDone : State :=
  { ready exCfg ababa 16#32 with
    regs.done := true, regs.outCount := 4#32, regs.srcUsed := 7#32,
    dst := { cells := storeSrc 0 ababaStream [], lost := [] },
    unseen := { last := some 4, older := [⟨0, 6⟩] } }

/-- The stream of `LIT 'A'` (30_encoding R73). -/
def litStream : List Byte := [0x83#8, 0x00#8]

/-! ## WellFormed: every check refuses an ill-formed term -/

theorem test_wf_offset_zero : (Instr.matchTok 0 3).wf tableParams = false := by decide
theorem test_wf_offset_above_n : (Instr.matchTok 17 3).wf tableParams = false := by decide
theorem test_wf_length_below_p : (Instr.matchTok 2 1).wf tableParams = false := by decide
theorem test_wf_length_above_lmax : (Instr.matchTok 2 6).wf tableParams = false := by decide
theorem test_wf_length_above_lmax_rless0 : (Instr.matchTok 2 4).wf { tableParams with rless := false } = false := by decide
theorem test_wf_reserved_not_a_command : (Instr.reserved 2#32).wf tableParams = false := by decide
theorem test_hardware_eimax_zero : ({ Hardware.spec with eiMax := 0 } : Hardware).legal = false := by decide
theorem test_hardware_eimax_32 : ({ Hardware.spec with eiMax := 32 } : Hardware).legal = false := by decide
theorem test_hardware_ejmax_zero : ({ Hardware.spec with ejMax := 0 } : Hardware).legal = false := by decide
theorem test_hardware_ejmax_32 : ({ Hardware.spec with ejMax := 32 } : Hardware).legal = false := by decide
theorem test_memory_not_rising_refused : Memory.wf [(3, 0#8), (3, 1#8)] = false := by decide
theorem test_lost_not_rising_refused : lostWf [⟨3, 0⟩, ⟨3, 1⟩] = false := by decide
theorem test_lost_empty_refused : lostWf [⟨0, 0⟩] = false := by decide

/-! ## Decode: words written out from the spec's encodings -/

/-- 30_encoding R75's example: `LIT 'A'` at b = 0 is bits 1,1,0,0,0,0,0,1,0. -/
theorem test_decode_lit : decodeToken .lsb tableParams [true, true, false, false, false, false, false, true, false] =
    .ok (.lit 0x41#8, []) := by decide

/-- 30_encoding R76's example: `MATCH 2, 3` is bits 0, 1,0,0,0, 1,0. -/
theorem test_decode_match : decodeToken .lsb tableParams [false, true, false, false, false, true, false] =
    .ok (.matchTok 2 3, []) := by decide

/-- 95_test_vectors V-F4: the same match with MSB is bits 0 0001 01. -/
theorem test_decode_match_msb : decodeToken .msb tableParams [false, false, false, false, true, false, true] =
    .ok (.matchTok 2 3, []) := by decide

/-- With RLESS = 0 a length field below P decodes to that length (R77). -/
theorem test_decode_match_rless0 :
    decodeToken .lsb { tableParams with rless := false } [false, true, true, true, true, true, false] =
      .ok (.matchTok 16 1, []) := by decide

theorem test_decode_cut_off : decodeToken .lsb tableParams [false, true, false, false, false, true] =
    .error .missingLength := by decide

/-- R84's table; the byte lanes are little-endian (20_memory R55). -/
theorem test_decode_nop : decodeLanes [0x00#8, 0x00#8, 0x00#8, 0x00#8] = .ok .nop := by decide
theorem test_decode_compress : decodeLanes [0x01#8, 0x00#8, 0x00#8, 0x00#8] = .ok .compress := by decide
theorem test_decode_decompress : decodeLanes [0x02#8, 0x00#8, 0x00#8, 0x00#8] = .ok .decompress := by decide
theorem test_decode_reserved_high_byte :
    decodeLanes [0x01#8, 0x00#8, 0x00#8, 0x80#8] = .ok (.reserved 0x80000001#32) := by decide
theorem test_decode_narrow_rejected : decodeLanes [0x01#8, 0x00#8] = .error .notAWord := by decide

/-- V-F1, V-F2, V-F3 and V-F4: the stored bytes of one token. -/
theorem test_assemble_lit : assemble .lsb tableParams [.lit 0x41#8] = [0x83#8, 0x00#8] := by decide
theorem test_assemble_lit_msb : assemble .msb tableParams [.lit 0x41#8] = [0xA0#8, 0x80#8] := by decide
theorem test_assemble_match : assemble .lsb tableParams [.matchTok 2 3] = [0x22#8] := by decide
theorem test_assemble_match_msb : assemble .msb tableParams [.matchTok 2 3] = [0x0A#8] := by decide

/-- Words as the opcode table numbers them: a flag in bit 0, the literal above it; a flag, then offm1 and lenf. -/
theorem test_table_lit : decodeTableWord 9 0x083 = some (.lit 0x41#8) := by decide
theorem test_table_match : decodeTableWord 8 0x22 = some (.matchTok 2 3) := by decide
theorem test_table_reserved : decodeTableWord 32 0x00000003 = some (.reserved 3#32) := by decide

/-! ## One step per instruction, against the spec's examples -/

/-- 43_decoder R182: SRC = 0x83 0x00, IBITS = 1 writes DST[0] = 0x41, OUTN = 1, IBITS = 9. -/
theorem test_lit :
    steps (step { running .dLit .decompress exCfg litStream 1#32 with eng.ibits := 1 }) (fun t =>
      decide (t.dst.read 0 = 0x41#8) && decide (t.eng.outn = 1) && decide (t.eng.ibits = 9) &&
        decide (t.eng.phase = .dFlag)) = true := by decide

/-- 40_window R102, N = 16: a literal at the last entry wraps the cursor. -/
theorem test_lit_wraps :
    steps (exec (.lit 0x41#8) { running .dLit .decompress exCfg litStream 1#32 with win.cur := 15 }) (fun t =>
      decide (t.win.cur = 0) && decide (t.win.entry 15 = 0x41#8)) = true := by decide

/-- 41_framer R134: SRC = 0x22, IBITS = 1: TOK_OFF = 2, TOK_LEN = 3, IBITS = 7. -/
theorem test_match :
    steps (step { running .dMatch .decompress exCfg [0x22#8] 8#32 with eng.ibits := 1 }) (fun t =>
      decide (t.eng.tokOff = 2) && decide (t.eng.tokLen = 3) && decide (t.eng.ibits = 7) &&
        decide (t.eng.phase = .dCopy)) = true := by decide

/-- 43_decoder R184: history "AB", `MATCH 2, 5` writes "ABABA", OUTN = 7. -/
theorem test_match_copies :
    steps (step { emitByte 0x42#8 (emitByte 0x41#8 (running .dCopy .decompress exCfg ababaStream 9#32)) with
        eng.tokOff := 2, eng.tokLen := 5 }) (fun t =>
      decide ((List.range 7).map t.dst.read = ababa) && decide (t.eng.outn = 7)) = true := by decide

/-- 44_host_commands R213: STATUS = 0x0000_0002 before `WR CMD, 0`, and after. -/
theorem test_nop :
    steps (step (next (.write 0x0C#6 .word 0#32) { ready exCfg ababa 16#32 with regs.done := true })) (fun t =>
      decide (statusWord t.regs = 0x00000002#32)) = true := by decide

/-- R212: STATUS reads 0x0000_0001 once COMPRESS is accepted. -/
theorem test_compress_accepted :
    steps (step (next (.write 0x0C#6 .word 1#32) { ready exCfg ababa 16#32 with regs.done := true })) (fun t =>
      decide (statusWord t.regs = 0x00000001#32) && decide (t.eng.phase = .init)) = true := by decide

/-- 42_match_engine R153: "ABABABA", POS = 2: BEST_LEN = 5, BEST_OFF = 2. -/
theorem test_compress_finds :
    steps (step { running .cFind .compress exCfg ababa 16#32 with eng.pos := 2 }) (fun t =>
      decide (t.eng.bestLen = 5) && decide (t.eng.bestOff = 2)) = true := by decide

/-- 10_state R21: before CFG is written a command fails with ERR_PARAM; STATUS reads 0x0000_0102. -/
theorem test_decompress_illegal :
    steps (step (next (.write 0x0C#6 .word 2#32) State.reset)) (fun t =>
      decide (statusWord t.regs = 0x00000102#32) && decide (t.regs.outCount = 0xFFFFFFFF#32)) = true := by decide

/-- 43_decoder R191: DST_CAP = 0 completes in D_FLAG with OUT_COUNT = 0 and SRC_USED = 0. -/
theorem test_decompress_zero_length :
    steps (step (running .dFlag .decompress exCfg [] 0#32)) (fun t =>
      decide (statusWord t.regs = 0x00000002#32) && decide (t.regs.outCount = 0#32) &&
        decide (t.regs.srcUsed = 0#32)) = true := by decide

/-- R217: `WR CMD, 0x0000_0003` from STATUS = 0 gives STATUS = 0x0000_0602. -/
theorem test_reserved :
    steps (step (next (.write 0x0C#6 .word 3#32) State.reset)) (fun t =>
      decide (statusWord t.regs = 0x00000602#32)) = true := by decide

/-- withFetchWord: the very next step runs the instruction. -/
theorem test_fetch_reserved :
    steps (step (State.reset.withFetchWord 32 0x00000003)) (fun t => decide (t.regs.err = .badCmd)) = true := by decide

/-- 20_memory R63: a read of STATUS with DONE = 1 shows DST[0..OUT_COUNT); DST[4], which only a command never seen to
complete wrote, stays unspecified. -/
theorem test_status_read_shows_results :
    steps (step (next (.read 0x10#6 .word) unseenDone)) (fun t =>
      !t.hidesResults && !t.hidesDst 3 && t.hidesDst 4 && t.hidesDst 5 && !t.hidesDst 6) = true := by decide

/-- R63, 60_exceptions R248: IRQ_EN set while DONE = 1 makes irq rise, which shows them too. -/
theorem test_irq_shows_results :
    steps (step (next (.write 0x1C#6 .word 1#32) unseenDone)) (fun t => t.irq && !t.hidesResults && !t.hidesDst 3) = true := by
  decide

/-! ## Witnesses: states and operands that meet a statement's hypotheses -/

theorem writerOk_of {s : State} (h1 : s.eng.obits / 8 ≤ s.regs.dstCap.toNat)
    (h2 : ∀ j, j < 8 → s.eng.obits % 8 ≤ j → s.eng.oacc.getLsbD (posIn s.hw.order j) = false) : WriterOk s :=
  ⟨h1, fun j hj hj8 => h2 j hj8 hj⟩

theorem windowHolds_of {s : State} {h : List Byte}
    (hw : ∀ off, off < s.n + 1 → 1 ≤ off →
      s.win.entry ((s.win.cur + s.n - off) % s.n) = histByte s.hw.fill h off) : WindowHolds s h :=
  fun off h1 h2 => hw off (by omega) h1

/-- All of Inv that is a matter of computation. -/
def invFlags (s : State) : Bool :=
  s.hw.legal && s.src.wf && s.dst.cells.wf && lostWf s.dst.lost && s.win.cells.wf &&
    (s.win.cells.all fun c => decide (c.1 < 2 ^ s.hw.eiMax)) && (s.regs.busy == decide (s.eng.phase ≠ .idle)) &&
    !(s.regs.busy && s.regs.done) && (!s.regs.busy || (decide (s.regs.err = .ok) && s.legal && decide (s.misplaced = none))) &&
    s.unseen.last.all (fun w => !s.regs.busy && (!decide (s.regs.err = .ok) || decide (w = s.regs.outCount.toNat))) &&
    s.unseen.older.all fun e => decide (e.lo < e.hi)

theorem inv_of {s : State} (h : invFlags s = true) (hp : PhaseOk s) : Inv s := by
  simp only [invFlags, Bool.and_eq_true, Bool.or_eq_true, Bool.not_eq_true', List.all_eq_true, decide_eq_true_eq,
    beq_iff_eq] at h
  obtain ⟨⟨⟨⟨⟨⟨⟨⟨⟨⟨h1, h2⟩, h3⟩, h4⟩, h5⟩, h6⟩, h7⟩, h8⟩, h9⟩, h10⟩, h11⟩ := h
  refine ⟨h1, h2, h3, h4, h5, h6, by simp [h7], ?_, ?_, ?_, ?_, ?_, h11, hp⟩
  · rintro ⟨a, b⟩
    simp [a, b] at h8
  · intro a
    exact (h9.resolve_left (by simp [a])).1.1
  · intro a
    exact (h9.resolve_left (by simp [a])).1.2
  · intro a
    exact (h9.resolve_left (by simp [a])).2
  · intro w hw
    simp only [hw, Option.all_some, Bool.and_eq_true, Bool.or_eq_true, Bool.not_eq_true', decide_eq_true_eq,
      decide_eq_false_iff_not] at h10
    exact ⟨h10.1, fun he => h10.2.resolve_left (fun hn => hn he)⟩

theorem inv_unseenDone (i : Input) : Inv (next i unseenDone) :=
  inv_of (show invFlags unseenDone = true by decide) trivial

/-- An accepted COMPRESS of "ABABABA" and an accepted DECOMPRESS of its stream. -/
def initC : State := running .init .compress exCfg ababa 16#32
def initD : State := running .init .decompress exCfg ababaStream 7#32

/-- COMPRESS of "ABABABA" with the two literals written: 18 bits, two bytes in DST, "10" in OACC. -/
def afterTwo (ph : Phase) (cap : Word) : State :=
  { winConsume 0 2 (running ph .compress exCfg ababa cap) with
    eng.pos := 2, eng.bestLen := 5, eng.bestOff := 2, eng.obits := 18, eng.oacc := 0x01#8,
    dst := { cells := [(0, 0x83#8), (1, 0x0A#8)], lost := [] } }

/-- DECOMPRESS of its stream with the two literals read. -/
def readTwo (ph : Phase) (cap : Word) : State :=
  { emitByte 0x42#8 (emitByte 0x41#8 (running ph .decompress exCfg ababaStream cap)) with
    eng.ibits := 18, eng.tokOff := 2, eng.tokLen := 5 }

theorem inv_ready : Inv (ready exCfg ababa 16#32) := inv_of (by decide) trivial
theorem inv_reset : Inv State.reset := inv_of (by decide) trivial
theorem inv_initC : Inv initC := inv_of (by decide) trivial
theorem inv_initD : Inv initD := inv_of (by decide) trivial

theorem inv_emit : Inv (afterTwo .cEmit 16#32) :=
  inv_of (by decide) ⟨⟨by decide, by decide, by decide, writerOk_of (by decide) (by decide)⟩,
    ⟨by decide, by decide, by decide⟩⟩

/-- DST_CAP = 2: the third byte does not fit. -/
theorem inv_emit_full : Inv (afterTwo .cEmit 2#32) :=
  inv_of (by decide) ⟨⟨by decide, by decide, by decide, writerOk_of (by decide) (by decide)⟩,
    ⟨by decide, by decide, by decide⟩⟩

theorem holds_afterTwo : WindowHolds (afterTwo .cEmit 16#32) [0x41#8, 0x42#8] := windowHolds_of (by decide)
theorem holds_afterTwo_full : WindowHolds (afterTwo .cEmit 2#32) [0x41#8, 0x42#8] := windowHolds_of (by decide)

theorem inv_copy : Inv (readTwo .dCopy 7#32) :=
  inv_of (by decide) ⟨⟨by decide, by decide, by decide, by decide⟩, ⟨by decide, by decide, by decide⟩⟩

/-- OUTN = DST_CAP. -/
theorem inv_flag_end : Inv (readTwo .dFlag 2#32) :=
  inv_of (by decide) ⟨by decide, by decide, by decide, by decide⟩

/-! ### The encodings -/

theorem witness_DecodeInvertsEncode :
    (Instr.matchTok 1 2).wf tableParams = true ∧ (Instr.matchTok 16 5).wf tableParams = true ∧
    (Instr.matchTok 1 0).wf { tableParams with rless := false } = true ∧
    (Instr.matchTok 16 3).wf { tableParams with rless := false } = true ∧
    (Instr.reserved 3#32).wf tableParams = true ∧ (Instr.reserved 0xFFFFFFFF#32).wf tableParams = true ∧
    (Instr.lit 0xFF#8).wf tableParams = true := by decide

theorem witness_DecodedTokenReencodes :
    decodeToken .lsb tableParams [false, true, true, true, true, true, true, true] = .ok (.matchTok 16 5, [true]) ∧
    decodeToken .msb tableParams [true, false, true, false, false, false, false, false, true] =
      .ok (.lit 0x41#8, []) := by decide

/-- Both flags, at the token's length and one bit short of it. -/
theorem witness_TokenLengthFromFlag :
    9 ≤ (true :: List.replicate 8 false).length ∧ (true :: List.replicate 7 false).length < 9 ∧
    1 + tableParams.ei + tableParams.ej ≤ (false :: List.replicate 6 false).length ∧
    (false :: List.replicate 5 false).length < 1 + tableParams.ei + tableParams.ej := by decide

theorem witness_FieldLayout :
    0 < 2 ^ 0 ∧ 15 < 2 ^ 4 ∧ 0 < 4 ∧ 3 < 4 ∧ [true, false, true, true].length = 4 := by decide

theorem witness_StreamBitsLieAtTheirPositions :
    0 / 8 < (pack .lsb (litBits .lsb 0x41#8)).length ∧ 15 / 8 < (pack .lsb (litBits .lsb 0x41#8)).length ∧
    1 < (pack .msb (litBits .msb 0x41#8)).length ∧ ([] : List Bool).length % 8 = 0 ∧
    (List.replicate 8 true).length % 8 = 0 := by decide

theorem witness_StreamSymmetry :
    ∀ i ∈ [Instr.lit 0x41#8, .matchTok 1 2, .matchTok 16 5], i.isToken = true ∧ i.wf tableParams = true := by decide

theorem witness_CommandWordsDecode :
    (0x00000000#32 = 0x00000000#32) ∧ 3 ≤ (3#32).toNat ∧ 3 ≤ (0xFFFFFFFF#32).toNat ∧ 3 < 4 ∧ 7 < 8 := by decide

/-! ### What a step is -/

theorem witness_EngineTurn :
    initC.host.inputs = [] ∧ (next .engine initC).host.inputs = [.engine] ∧
    State.reset.host.inputs = [] ∧ State.reset.eng.phase = .idle := by decide

theorem witness_StepRunsCommandWord :
    (next (.write 0x0C#6 .word 1#32) (ready exCfg ababa 16#32)).host.inputs = [.write 0x0C#6 .word 1#32] := by decide

/-- A literal, and a match that ends with the last bit of SRC (EI = 4, EJ = 3). -/
theorem witness_StepRunsDecodedToken :
    (let s := running .dFlag .decompress exCfg litStream 1#32
     s.host.inputs = [] ∧ s.eng.phase = .dFlag ∧ s.eng.outn ≠ s.regs.dstCap.toNat ∧
       s.eng.ibits + 9 ≤ 8 * s.regs.srcLen.toNat ∧
       decodeToken s.hw.order s.params (s.streamBits s.eng.ibits 9) = .ok (.lit 0x41#8, [])) ∧
    (let s := running .dFlag .decompress { exCfg with ej := 3#5 } [0x22#8] 1#32
     s.host.inputs = [] ∧ s.eng.phase = .dFlag ∧ s.eng.outn ≠ s.regs.dstCap.toNat ∧
       s.eng.ibits + 8 = 8 * s.regs.srcLen.toNat ∧
       decodeToken s.hw.order s.params (s.streamBits s.eng.ibits 8) = .ok (.matchTok 2 3, [])) := by decide

/-! ### The window -/

theorem witness_WindowInitFills :
    0 < initC.n ∧ 15 < initC.n ∧ initC.n ≤ 16 ∧
    (initC.host.inputs = [] ∧ initC.eng.phase = .init ∧ initC.eng.cur = .compress) ∧
    (initD.host.inputs = [] ∧ initD.eng.phase = .init ∧ initD.eng.cur = .decompress) := by decide

theorem witness_WindowWriteStores :
    (1 ≠ initC.win.cur) ∧ initC.win.cur < initC.n ∧
    ({ initC with win.cur := 15 } : State).win.cur = ({ initC with win.cur := 15 } : State).n - 1 := by decide

/-- Offsets 1 and N; a history shorter than the offset, and one as long. -/
theorem witness_WindowHoldsHistory :
    1 ≤ 1 ∧ 1 ≤ 16 ∧ 16 ≤ initC.n ∧ ([0x41#8] : List Byte).length < 16 ∧ (ababa ++ ababa).length < 16 := by decide

theorem witness_OffsetGuard : 0 < 1 ∧ initC.n < 17 := by decide

/-! ### The framer -/

theorem writerOk_afterTwo : WriterOk (afterTwo .cEmit 16#32) := writerOk_of (by decide) (by decide)

theorem witness_PutBitsAppends :
    WriterOk (afterTwo .cEmit 16#32) ∧
    (∃ t, putBits (matchBits .lsb tableParams 2 5) (afterTwo .cEmit 16#32) = .ok t) ∧
    1 < (afterTwo .cEmit 16#32).eng.obits / 8 ∧ ((afterTwo .cEmit 16#32).eng.obits + 7) / 8 ≤ 3 :=
  ⟨writerOk_afterTwo, ⟨_, rfl⟩, by decide, by decide⟩

/-- DST_CAP = 2 with two bytes stored: seven bits of a third do not fit once it is complete. -/
theorem witness_PutBitsFailsAtCapacity :
    (afterTwo .cEmit 2#32).eng.obits / 8 ≤ (afterTwo .cEmit 2#32).regs.dstCap.toNat ∧
    (∃ t, putBits (matchBits .lsb tableParams 2 5) (afterTwo .cEmit 2#32) = .error (.capacity, t)) ∧
    (∃ t, putBits [true, false, true, true, false] (afterTwo .cEmit 2#32) = .ok t) :=
  ⟨by decide, ⟨_, rfl⟩, ⟨_, rfl⟩⟩

theorem witness_GetBitsReadsField :
    (let s := { initD with eng.ibits := 24 }
     s.eng.ibits + 8 ≤ 8 * s.regs.srcLen.toNat ∧ 8 * s.regs.srcLen.toNat < s.eng.ibits + 9 ∧ s.hw.order = .lsb) ∧
    ({ initD with hw.order := .msb } : State).hw.order = .msb ∧ 0 < 8 ∧ 7 < 8 := by decide

/-! ### The match engine -/

theorem witness_MatchLengthIsLongestRun :
    2 < 7 ∧ 1 ≤ 1 ∧ 1 ≤ min (winSize tableParams) 2 ∧ 2 ≤ min (winSize tableParams) 2 ∧
    (let f := initC.srcByte
     (5 ≤ min (lmax tableParams) (7 - 2)) ∧ ∀ i, i < 5 → f (2 - 2 + i) = f (2 + i)) := by decide

/-- "ABABABA" at POS = 2, at POS = 5 where exactly P bytes are left, and at POS = 6 where one is. -/
theorem witness_FindLeavesLongestAtSmallestOffset :
    (let s := afterTwo .cFind 16#32
     s.host.inputs = [] ∧ s.eng.phase = .cFind ∧ s.eng.pos < s.regs.srcLen.toNat ∧
       s.params.p ≤ min (lmax s.params) (s.regs.srcLen.toNat - s.eng.pos) ∧ 1 ≤ 2 ∧ 2 ≤ min s.n s.eng.pos) ∧
    (let s := { afterTwo .cFind 16#32 with eng.pos := 5 }
     s.eng.pos < s.regs.srcLen.toNat ∧ s.params.p = min (lmax s.params) (s.regs.srcLen.toNat - s.eng.pos)) ∧
    (let s := { afterTwo .cFind 16#32 with eng.pos := 6 }
     s.eng.pos < s.regs.srcLen.toNat ∧ min (lmax s.params) (s.regs.srcLen.toNat - s.eng.pos) < s.params.p) := by decide

/-- The match of V-C3, and the parameter set (4, 1, 2, 0) of V-C7. -/
theorem witness_EmittedMatchIsLegal :
    1 ≤ tableParams.p ∧ 2 < 7 ∧
    chooseToken tableParams initC.srcByte 2 (findMatch tableParams initC.srcByte 7 2) = .matchTok 2 5 ∧
    (let pr : Params := { ei := 4, ej := 1, p := 2, rless := false }
     1 ≤ pr.p ∧ lmax pr < pr.p) := by decide

/-- DST_CAP = 16, where the token fits, and DST_CAP = 2, where it does not. -/
theorem witness_EmitWritesTokenAndConsumes :
    (Inv (afterTwo .cEmit 16#32) ∧ (afterTwo .cEmit 16#32).host.inputs = [] ∧
      (afterTwo .cEmit 16#32).eng.phase = .cEmit ∧ WindowHolds (afterTwo .cEmit 16#32) [0x41#8, 0x42#8] ∧
      (18 + 7) / 8 ≤ (16#32).toNat) ∧
    (Inv (afterTwo .cEmit 2#32) ∧ (afterTwo .cEmit 2#32).host.inputs = [] ∧
      (afterTwo .cEmit 2#32).eng.phase = .cEmit ∧ WindowHolds (afterTwo .cEmit 2#32) [0x41#8, 0x42#8] ∧
      ¬ (18 + 7) / 8 ≤ (2#32).toNat) :=
  ⟨⟨inv_emit, by decide, by decide, holds_afterTwo, by decide⟩,
    ⟨inv_emit_full, by decide, by decide, holds_afterTwo_full, by decide⟩⟩

/-- A partial byte that fits, one that does not, and no partial byte at DST_CAP. -/
theorem witness_FlushCompletesCompress :
    (let s := afterTwo .cFlush 3#32
     s.host.inputs = [] ∧ s.eng.phase = .cFlush ∧ s.eng.obits % 8 ≠ 0 ∧ ¬ s.regs.dstCap.toNat ≤ s.eng.obits / 8) ∧
    (let s := afterTwo .cFlush 2#32
     s.eng.obits % 8 ≠ 0 ∧ s.regs.dstCap.toNat ≤ s.eng.obits / 8) ∧
    (let s := { afterTwo .cFlush 2#32 with eng.obits := 16 }
     ¬ s.eng.obits % 8 ≠ 0) := by decide

/-! ### The decoder -/

theorem witness_FlagPhase :
    (let s := readTwo .dFlag 2#32
     s.host.inputs = [] ∧ s.eng.phase = .dFlag ∧ s.eng.outn = s.regs.dstCap.toNat) ∧
    (let s := { readTwo .dFlag 3#32 with eng.ibits := 31 }
     s.eng.outn ≠ s.regs.dstCap.toNat ∧ s.eng.ibits < 8 * s.regs.srcLen.toNat) ∧
    (let s := { readTwo .dFlag 3#32 with eng.ibits := 32 }
     s.eng.outn ≠ s.regs.dstCap.toNat ∧ 8 * s.regs.srcLen.toNat ≤ s.eng.ibits) := by decide

theorem witness_LitCompletes :
    (readTwo .dLit 3#32).eng.outn < (readTwo .dLit 3#32).regs.dstCap.toNat ∧
    (readTwo .dLit 2#32).regs.dstCap.toNat ≤ (readTwo .dLit 2#32).eng.outn := by decide

theorem witness_LiteralPhase :
    (let s := { readTwo .dLit 3#32 with eng.ibits := 24 }
     s.host.inputs = [] ∧ s.eng.phase = .dLit ∧ s.eng.outn < s.regs.dstCap.toNat ∧
       s.eng.ibits + 8 ≤ 8 * s.regs.srcLen.toNat) ∧
    (let s := { readTwo .dLit 3#32 with eng.ibits := 25 }
     s.eng.outn < s.regs.dstCap.toNat ∧ 8 * s.regs.srcLen.toNat < s.eng.ibits + 8) := by decide

/-- Offsets 1 and N, with RLESS = 1, and with RLESS = 0 and the length P, and one below it. -/
theorem witness_MatchReadsOperands :
    1 ≤ 1 ∧ 16 ≤ initD.n ∧ (initD.params.rless = false → initD.params.p ≤ 0) ∧
    (let s := running .dMatch .decompress exCfg0 ababaStream 7#32
     16 ≤ s.n ∧ s.params.rless = false ∧ s.params.p ≤ 2 ∧ 1 < s.params.p) := by decide

/-- History "AB", MATCH 2, 5, with room for all of it, and with room for one byte. -/
theorem witness_MatchCopiesOverlapping :
    (let s := readTwo .dMatch 7#32
     s.host.inputs = [] ∧ s.win.cur < s.n ∧ WindowHolds s [0x41#8, 0x42#8] ∧ s.eng.outn ≤ s.regs.dstCap.toNat ∧
       1 ≤ 2 ∧ 2 ≤ s.n ∧ (s.params.rless = false → s.params.p ≤ 5)) ∧
    (let s := readTwo .dMatch 3#32
     WindowHolds s [0x41#8, 0x42#8] ∧ s.eng.outn + 1 = s.regs.dstCap.toNat) :=
  ⟨⟨by decide, by decide, windowHolds_of (by decide), by decide, by decide, by decide, by decide⟩,
    ⟨windowHolds_of (by decide), by decide⟩⟩

/-- Fields that end with the last bit of SRC (EI = 4, EJ = 3), cut off by one bit, and a length below P. -/
theorem witness_MatchPhase :
    (let s := { running .dMatch .decompress { exCfg with ej := 3#5 } [0x22#8] 8#32 with eng.ibits := 1 }
     s.host.inputs = [] ∧ s.eng.phase = .dMatch ∧
       s.eng.ibits + s.params.ei + s.params.ej = 8 * s.regs.srcLen.toNat ∧ ¬ s.params.rless = false) ∧
    (let s := { running .dMatch .decompress { exCfg with ej := 3#5 } [0x22#8] 8#32 with eng.ibits := 2 }
     ¬ s.eng.ibits + s.params.ei + s.params.ej ≤ 8 * s.regs.srcLen.toNat) ∧
    (let s := { running .dMatch .decompress exCfg0 [0x22#8] 8#32 with eng.ibits := 1 }
     s.eng.ibits + s.params.ei + s.params.ej ≤ 8 * s.regs.srcLen.toNat ∧ s.params.rless = false ∧
       fieldValue s.hw.order (s.streamBits (s.eng.ibits + s.params.ei) s.params.ej) < s.params.p) := by decide

theorem witness_DecompressSucceedsOnlyByCount :
    Inv (readTwo .dFlag 2#32) ∧ (readTwo .dFlag 2#32).regs.busy = true ∧
    (readTwo .dFlag 2#32).eng.cur = .decompress ∧
    ∃ t, step (readTwo .dFlag 2#32) = .next t ∧ t.regs.done = true ∧ t.regs.err = .ok :=
  ⟨inv_flag_end, rfl, rfl, _, rfl, rfl, rfl⟩

/-! ### The host's commands and registers -/

/-- EI = EI_MAX, EJ = EJ_MAX and P = 1, the largest window; and EI = EJ = 1, P = 255. -/
theorem witness_CommandsAreAccepted :
    (let s := ready { ei := 16#5, ej := 8#5, p := 1#8, rless := true } [] 0#32
     s.regs.busy = false ∧ s.misplaced = none ∧ 1 ≤ s.regs.cfg.ei.toNat ∧ s.regs.cfg.ei.toNat ≤ s.hw.eiMax ∧
       1 ≤ s.regs.cfg.ej.toNat ∧ s.regs.cfg.ej.toNat ≤ s.hw.ejMax ∧ 1 ≤ s.regs.cfg.p.toNat) ∧
    (let s := ready { ei := 1#5, ej := 1#5, p := 255#8, rless := false } [] 0#32
     s.misplaced = none ∧ 1 ≤ s.regs.cfg.ei.toNat ∧ s.regs.cfg.ei.toNat ≤ s.hw.eiMax ∧ 1 ≤ s.regs.cfg.ej.toNat ∧
       s.regs.cfg.ej.toNat ≤ s.hw.ejMax ∧ 1 ≤ s.regs.cfg.p.toNat) := by decide

/-- EI = 0, EI = EI_MAX + 1, EJ = 0, EJ = EJ_MAX + 1, P = 0. -/
theorem witness_IllegalParametersAreRejected :
    (ready exCfg [] 0#32).regs.busy = false ∧
    (ready { exCfg with ei := 0#5 } [] 0#32).regs.cfg.ei.toNat < 1 ∧
    Hardware.spec.eiMax < (ready { exCfg with ei := 17#5 } [] 0#32).regs.cfg.ei.toNat ∧
    (ready { exCfg with ej := 0#5 } [] 0#32).regs.cfg.ej.toNat < 1 ∧
    Hardware.spec.ejMax < (ready { exCfg with ej := 9#5 } [] 0#32).regs.cfg.ej.toNat ∧
    (ready { exCfg with p := 0#8 } [] 0#32).regs.cfg.p.toNat < 1 := by decide

theorem witness_ReservedWordCompletes :
    3 ≤ (3#32).toNat ∧ 3 ≤ (0xFFFFFFFF#32).toNat ∧ State.reset.regs.busy = false ∧ State.reset.eng.phase = .idle := by
  decide

theorem witness_WritesIgnoredWhileBusy :
    initC.regs.busy = true ∧
    (next (.write 0x00#6 .word 0#32) initC).host.inputs = [.write 0x00#6 .word 0#32] ∧
    (next (.write 0x0C#6 .word 3#32) initC).host.inputs = [.write 0x0C#6 .word 3#32] := by decide

/-- Each register, idle and busy; offsets 0x20 and 0x3C of the ignored writes. -/
theorem inv_running_write (off : BitVec 6) (v : Word) : Inv (next (.write off .word v) initC) :=
  inv_of (show invFlags initC = true by decide) trivial

theorem witness_RegisterWrites :
    (Inv (next (.write 0x10#6 .word 2#32) initC) ∧ (2#32).getLsbD 1 = true) ∧
    (∀ off ∈ [0x00#6, 0x04#6, 0x08#6, 0x10#6, 0x14#6, 0x18#6, 0x1C#6, 0x20#6, 0x3C#6],
      (next (.write off .word 2#32) State.reset).host.inputs = [.write off .word 2#32] ∧
      (next (.write off .word 2#32) initC).host.inputs = [.write off .word 2#32]) ∧
    State.reset.regs.busy = false ∧ initC.regs.busy = true ∧
    (0x20 ≤ (0x20#6).toNat ∧ (0x20#6).toNat % 4 = 0) ∧ (0x20 ≤ (0x3C#6).toNat ∧ (0x3C#6).toNat % 4 = 0) :=
  ⟨⟨inv_running_write _ _, by decide⟩, by decide⟩

theorem witness_RegisterReads :
    Inv (next (.read 0x10#6 .word) initC) ∧
    (∀ off ∈ [0x00#6, 0x04#6, 0x08#6, 0x0C#6, 0x10#6, 0x14#6, 0x18#6, 0x1C#6, 0x20#6, 0x24#6, 0x3C#6],
      (next (.read off .word) State.reset).host.inputs = [.read off .word] ∧
      (next (.read off .word) initC).host.inputs = [.read off .word]) ∧
    State.reset.regs.busy = false ∧ State.reset.unseen.last = none ∧ initC.regs.busy = true ∧
    (unseenDone.regs.busy = false ∧ unseenDone.unseen.last ≠ none ∧ unseenDone.regs.done = true ∧
      unseenDone.unseen.hides 5 = true ∧ 4 ≤ 5 ∧ State.reset.regs.done = false) ∧
    (0x24 ≤ (0x24#6).toNat ∧ (0x24#6).toNat % 4 = 0) ∧ (0x24 ≤ (0x3C#6).toNat ∧ (0x3C#6).toNat % 4 = 0) :=
  ⟨inv_of (by decide) trivial, by decide⟩

/-- A byte, a halfword, and a misaligned word. -/
theorem witness_NarrowAndMisalignedAccesses :
    Width.byte ≠ .word ∧ Width.half ≠ .word ∧ (0x0D#6).toNat % 4 ≠ 0 ∧ (0x3F#6).toNat % 4 ≠ 0 ∧
    (next (.write 0x0C#6 .byte 1#32) State.reset).host.inputs = [.write 0x0C#6 .byte 1#32] ∧
    (next (.read 0x3F#6 .word) State.reset).host.inputs = [.read 0x3F#6 .word] := by decide

theorem witness_StatusAndCapsLayout :
    Hardware.spec.legal = true ∧ ({ eiMax := 31, ejMax := 31, order := .msb, fill := 0x20#8 } : Hardware).legal = true ∧
    ({ eiMax := 1, ejMax := 1, order := .lsb, fill := 0xFF#8 } : Hardware).legal = true := by decide

/-! ### Completion, errors, the interrupt and reset -/

/-- A command that succeeds, with irq masked and enabled, and one that fails. -/
theorem witness_CompletionSetsDone :
    (Inv (readTwo .dFlag 2#32) ∧ (readTwo .dFlag 2#32).regs.busy = true ∧
      (∃ t, step (readTwo .dFlag 2#32) = .next t ∧ t.regs.busy = false) ∧ (readTwo .dFlag 2#32).regs.irqEn = false ∧
      ∀ rest, (readTwo .dFlag 2#32).host.inputs ≠ .reset :: rest) ∧
    (let s : State := { readTwo .dFlag 2#32 with regs.irqEn := true }
     Inv s ∧ s.regs.busy = true ∧ s.regs.irqEn = true ∧ ∃ t, step s = .next t ∧ t.regs.busy = false) ∧
    (Inv (afterTwo .cEmit 2#32) ∧
      ∃ t, step (afterTwo .cEmit 2#32) = .next t ∧ t.regs.busy = false ∧ t.regs.err ≠ .ok) :=
  ⟨⟨inv_flag_end, rfl, ⟨_, rfl, rfl⟩, rfl, fun _ h => by cases h⟩,
    ⟨inv_of (by decide) ⟨by decide, by decide, by decide, by decide⟩, rfl, rfl, _, rfl, rfl⟩, inv_emit_full, _, rfl, rfl, by decide⟩

theorem inv_badCmd : Inv (next (.write 0x0C#6 .word 3#32) (ready exCfg ababa 16#32)) := inv_of (by decide) trivial

/-- An error while the command runs, and a reserved command word. -/
theorem witness_StateAfterError :
    (Inv (afterTwo .cEmit 2#32) ∧ (afterTwo .cEmit 2#32).regs.busy = true ∧
      ∃ t, step (afterTwo .cEmit 2#32) = .next t ∧ t.regs.err ≠ .ok ∧ t.regs.done = true) ∧
    (let s := next (.write 0x0C#6 .word 3#32) (ready exCfg ababa 16#32)
     Inv s ∧ s.regs.busy = false ∧ s.host.inputs = [.write 0x0C#6 .word 3#32] ∧
       ∃ t, step s = .next t ∧ t.regs.err ≠ .ok ∧ t.regs.done = true) :=
  ⟨⟨inv_emit_full, rfl, _, rfl, by decide, rfl⟩, inv_badCmd, rfl, rfl, _, rfl, by decide, rfl⟩

theorem witness_WritesStayInsideDst :
    (readTwo .dCopy 7#32).regs.busy = true ∧ (∃ t, step (readTwo .dCopy 7#32) = .next t) ∧
    (readTwo .dCopy 7#32).regs.dstCap.toNat ≤ 7 ∧ (readTwo .dCopy 7#32).overlaps = false :=
  ⟨rfl, ⟨_, rfl⟩, by decide, by decide⟩

/-- Another byte at SRC_LEN, and the buffers side by side, where SRC[7 + k] is DST[k]. -/
theorem witness_ReadsStayInsideSrc :
    (let s := afterTwo .cEmit 16#32
     let s' : State := { s with src := storeSrc 0 (ababa ++ [0xEE#8]) [], place := { shared := [⟨7, 0, 16⟩], plain := true } }
     Inv s ∧ s.regs.busy = true ∧ s'.misplaced = none ∧
       (∀ i, i < s.regs.srcLen.toNat → s'.srcByte i = s.srcByte i) ∧ s'.srcByte 7 ≠ 0xEE#8 ∧ ∃ t, step s = .next t) :=
  ⟨inv_emit, rfl, by decide, by decide, by decide, _, rfl⟩

theorem witness_RunningCommandKeepsItsArguments :
    Inv (readTwo .dCopy 7#32) ∧ (readTwo .dCopy 7#32).regs.busy = true ∧ (readTwo .dCopy 7#32).n ≤ 16 ∧
    ∃ t, step (readTwo .dCopy 7#32) = .next t ∧ t.regs.busy = true ∧ t.eng.phase ≠ .init :=
  ⟨inv_copy, rfl, by decide, _, rfl, rfl, by decide⟩

theorem inv_clearDone : Inv (next (.write 0x10#6 .word 2#32) (ready exCfg ababa 16#32)) := inv_of (by decide) trivial

theorem witness_ResultsHoldUntilNextCommand :
    (let s := next (.write 0x10#6 .word 2#32) (ready exCfg ababa 16#32)
     Inv s ∧ s.regs.busy = false ∧ (∃ t, step s = .next t) ∧
       (∀ v rest, s.host.inputs ≠ .write 0x0C#6 .word v :: rest) ∧ (∀ rest, s.host.inputs ≠ .reset :: rest) ∧
       s.unseen.last = none) ∧
    (let s := next (.read 0x10#6 .word) unseenDone
     Inv s ∧ s.regs.busy = false ∧ ∃ t, step s = .next t ∧ t.unseen.hides 4 = true ∧ t.unseen.hides 3 = false) :=
  ⟨⟨inv_clearDone, rfl, ⟨_, rfl⟩, fun _ _ h => by injection h with h _; injection h with h; revert h; decide,
    fun _ h => by injection h with h _; injection h, rfl⟩, inv_unseenDone _, rfl, _, rfl, rfl, rfl⟩

theorem witness_IrqIsDoneAndEnabled :
    (next (.write 0x10#6 .word 2#32) State.reset).host.inputs = [.write 0x10#6 .word 2#32] ∧
    (2#32).getLsbD 1 = true ∧ (next (.write 0x1C#6 .word 1#32) initC).host.inputs = [.write 0x1C#6 .word 1#32] ∧
    (next .reset initC).host.inputs = [.reset] ∧ (ready exCfg ababa 16#32).regs.busy = false ∧
    (ready exCfg ababa 16#32).legal = true ∧ (ready exCfg ababa 16#32).misplaced = none := by decide

theorem witness_ResetAbandons :
    (next .reset initC).host.inputs = [.reset] ∧ (next .reset State.reset).regs.busy = false ∧
    initC.regs.dstCap.toNat ≤ 16 ∧ initC.overlaps = false := by decide

/-- A machine whose SRC[6] stands where its DST[j] does. -/
def sharing (j : Nat) : State :=
  { ready exCfg ababa 16#32 with place := { shared := [⟨6, j, 1⟩], plain := true } }

/-- A machine whose buffers stand on a device. -/
def onDevice : State := { ready exCfg ababa 16#32 with place := { shared := [], plain := false } }

/-- The last byte of each buffer shared, and one past DST's; a device; each access, idle and busy; and a DST byte on
either side of those a command writes, and of those it wrote unseen. -/
theorem witness_BufferHazardRefused :
    ((sharing 15).regs.busy = false ∧ (sharing 15).legal = true ∧ (sharing 15).place.plain = true ∧
      (sharing 15).overlaps = true ∧ (sharing 16).overlaps = false) ∧
    (onDevice.regs.busy = false ∧ onDevice.legal = true ∧ onDevice.place.plain = false) ∧
    (∀ i ∈ [Input.srcWrite 0xFFFFFFFE#32 0#8, .dstWrite 0xFFFFFFFE#32 0#8, .bind onDevice.place, .dstRead 3#32],
      (next i initC).host.inputs = [i] ∧ (next i State.reset).host.inputs = [i] ∧
      (next i onDevice).host.inputs = [i]) ∧
    (initC.regs.busy = true ∧ initC.place.plain = true ∧ State.reset.regs.busy = false ∧
      State.reset.place.plain = true) ∧
    ((sharing 15).place.home 6 = some 15 ∧ (sharing 15).place.home 7 = none) ∧
    (initC.eng.cur = .compress ∧
      encodeBytes initC.hw.order initC.params initC.srcByte 7 16 = .ok ababaStream ∧ initC.writesDst 3 = true ∧
      initC.writesDst 4 = false ∧ initD.eng.cur = .decompress ∧ initD.writesDst 6 = true ∧
      initD.writesDst 7 = false) ∧
    ((∀ i ∈ [3, 5, 6], (next (.dstRead (BitVec.ofNat 32 i)) unseenDone).host.inputs = [.dstRead (BitVec.ofNat 32 i)]) ∧
      unseenDone.place.plain = true ∧ unseenDone.unseen.last = some 4 ∧ 3 < 4 ∧ 4 ≤ 6 ∧
      (∃ e ∈ unseenDone.unseen.older, e.lo ≤ 5 ∧ 5 < e.hi) ∧ ∀ e ∈ unseenDone.unseen.older, 6 < e.lo ∨ e.hi ≤ 6) := by
  decide

/-! ### The invariant and whole commands -/

theorem witness_StepKeepsInvariant :
    Inv (afterTwo .cEmit 16#32) ∧ (∃ t, step (afterTwo .cEmit 16#32) = .next t) ∧
    Inv (readTwo .dCopy 7#32) ∧ ∃ t, step (readTwo .dCopy 7#32) = .next t :=
  ⟨inv_emit, ⟨_, rfl⟩, inv_copy, _, rfl⟩

theorem inv_hazard : Inv (next (.srcWrite 0#32 0#8) initC) := inv_of (by decide) trivial

/-- A state that satisfies Inv and has a step, and one for each refusal. -/
theorem witness_NoFaultUnderInvariant :
    Inv initC ∧ (∃ t, step initC = .next t) ∧
    (Inv (next (.srcWrite 0#32 0#8) initC) ∧ step (next (.srcWrite 0#32 0#8) initC) = .refused .bufferHazard) ∧
    (Inv (next (.write 0x0C#6 .word 1#32) (sharing 15)) ∧
      step (next (.write 0x0C#6 .word 1#32) (sharing 15)) = .refused .bufferOverlap) ∧
    (Inv (next (.dstRead 0#32) onDevice) ∧ step (next (.dstRead 0#32) onDevice) = .refused .deviceBuffer) :=
  ⟨inv_initC, ⟨_, rfl⟩, ⟨inv_hazard, rfl⟩, ⟨inv_of (by decide) trivial, rfl⟩, inv_of (by decide) trivial, rfl⟩

theorem witness_CountersFitTheirRegisters :
    (Inv (afterTwo .cEmit 16#32) ∧ (afterTwo .cEmit 16#32).regs.busy = true ∧
      (afterTwo .cEmit 16#32).eng.phase ≠ .init ∧ (afterTwo .cEmit 16#32).eng.cur = .compress ∧
      (afterTwo .cEmit 16#32).params.p ≤ (afterTwo .cEmit 16#32).eng.bestLen) ∧
    (Inv (readTwo .dCopy 7#32) ∧ (readTwo .dCopy 7#32).regs.busy = true ∧ (readTwo .dCopy 7#32).eng.phase = .dCopy ∧
      (readTwo .dCopy 7#32).eng.cur = .decompress) :=
  ⟨⟨inv_emit, rfl, by decide, rfl, by decide⟩, inv_copy, rfl, rfl, rfl⟩

theorem witness_CompressComputesEncode :
    Inv initC ∧ initC.host.inputs = [] ∧ initC.eng.phase = .init ∧ initC.eng.cur = .compress :=
  ⟨inv_initC, rfl, rfl, rfl⟩

theorem witness_DecompressComputesDecode :
    Inv initD ∧ initD.host.inputs = [] ∧ initD.eng.phase = .init ∧ initD.eng.cur = .decompress :=
  ⟨inv_initD, rfl, rfl, rfl⟩

/-- V-C3 with DST_CAP = OUT_COUNT = 4, and V-C1, the empty input, with DST_CAP = 0. -/
theorem witness_RoundTrip :
    legalParams Hardware.spec tableParams = true ∧
    encodeBytes .lsb tableParams (fun i => ababa.getD i 0#8) ababa.length 4 = .ok ababaStream ∧
    encodeBytes .lsb tableParams (fun i => ([] : List Byte).getD i 0#8) 0 0 = .ok [] := by decide

/-- WORST(4) = 13 for (16, 8, 1, 1) (V-C9). -/
theorem witness_WorstCaseBound :
    legalParams Hardware.spec { ei := 16, ej := 8, p := 1, rless := true } = true ∧
    worst { ei := 16, ej := 8, p := 1, rless := true } 4 ≤ 13 ∧
    legalParams Hardware.spec tableParams = true ∧ worst tableParams 7 ≤ 8 ∧
    1 + tableParams.ei + tableParams.ej ≤ 9 * tableParams.p := by decide

theorem inv_initC' : Inv { initC with eng.pos := 9, dst := { cells := [(0, 1#8)], lost := [] }, draws := 5 } :=
  inv_of (by decide) trivial

/-- Two machines that differ in DST, in a working register and in the draws. -/
theorem witness_CommandsAreIndependent :
    (let s' : State := { initC with eng.pos := 9, dst := { cells := [(0, 1#8)], lost := [] }, draws := 5 }
     Inv initC ∧ Inv s' ∧ initC.host.inputs = [] ∧ s'.host.inputs = [] ∧ initC.eng.phase = .init ∧
       s'.eng.phase = .init ∧ initC.eng.cur = s'.eng.cur ∧ initC.hw = s'.hw ∧ initC.regs = s'.regs ∧
       (∀ i, i < initC.regs.srcLen.toNat → initC.srcByte i = s'.srcByte i) ∧ initC ≠ s') :=
  ⟨inv_initC, inv_initC', rfl, rfl, rfl, rfl, rfl, rfl, rfl, fun _ _ => rfl, by decide⟩

theorem witness_CommandsComplete :
    (Inv initD ∧ initD.host.inputs = [] ∧ initD.regs.busy = true) ∧
    (Inv (readTwo .dCopy 7#32) ∧ (readTwo .dCopy 7#32).host.inputs = [] ∧ (readTwo .dCopy 7#32).regs.busy = true) :=
  ⟨⟨inv_initD, rfl, rfl⟩, inv_copy, rfl, rfl⟩

end Sys2Proof.Tests
end

section
/-! PROOFS. The invariant in parts that depend on different fields of the state, and that each way a command ends
establishes it (10_state R42). -/

namespace Sys2Proof.Machine

/-! ## A legal parameter set -/

theorem State.legal_iff {s : State} :
    s.legal = true ↔ 1 ≤ s.params.ei ∧ s.params.ei ≤ s.hw.eiMax ∧ 1 ≤ s.params.ej ∧ s.params.ej ≤ s.hw.ejMax ∧
      1 ≤ s.params.p ∧ s.params.p ≤ 255 := by
  simp [State.legal, legalParams, and_assoc]

/-- N entries lie in WIN (10_state R31). -/
theorem State.n_le {s : State} (h : s.legal = true) : s.n ≤ 2 ^ s.hw.eiMax :=
  Nat.pow_le_pow_right (by decide) (State.legal_iff.1 h).2.1

theorem lmax_le (pr : Params) : lmax pr ≤ pr.p + 2 ^ pr.ej - 1 := by
  unfold lmax
  split <;> omega

/-- LMAX fits the 9 + EJ_MAX bits of BEST_LEN and TOK_LEN. -/
theorem State.lmax_lt {s : State} (h : s.legal = true) : lmax s.params < 2 ^ (9 + s.hw.ejMax) := by
  obtain ⟨-, -, -, hej, -, hp⟩ := State.legal_iff.1 h
  have hpow : 2 ^ s.params.ej ≤ 2 ^ s.hw.ejMax := Nat.pow_le_pow_right (by decide) hej
  have hpos : 0 < 2 ^ s.params.ej := Nat.two_pow_pos _
  have := lmax_le s.params
  rw [Nat.pow_add]
  omega

/-! ## What DST has lost -/

/-- The canonical form, said without recursion. -/
theorem lostWf_iff (ls : List Lost) :
    lostWf ls = true ↔ (∀ l ∈ ls, 0 < l.cap) ∧ ls.Pairwise fun a b => a.cap < b.cap := by
  induction ls with
  | nil => simp [lostWf]
  | cons a ls ih =>
    cases ls with
    | nil => simp [lostWf]
    | cons b ls =>
      simp only [lostWf, Bool.and_eq_true, decide_eq_true_eq, ih, List.pairwise_cons, List.forall_mem_cons]
      constructor
      · rintro ⟨⟨ha, hab⟩, hpos, hb, hls⟩
        exact ⟨⟨ha, hpos⟩, ⟨hab, fun c hc => Nat.lt_trans hab (hb c hc)⟩, hb, hls⟩
      · rintro ⟨⟨ha, hpos⟩, ⟨hab, -⟩, hb, hls⟩
        exact ⟨⟨ha, hab⟩, hpos, hb, hls⟩

theorem Dest.lose_lostWf {d : Dest} (cap draw : Nat) (h : lostWf d.lost = true) :
    lostWf (d.lose cap draw).lost = true := by
  unfold Dest.lose
  split
  · exact h
  · rename_i hcap
    rw [lostWf_iff] at *
    obtain ⟨hpos, hrise⟩ := h
    constructor
    · simp only [List.forall_mem_cons, List.mem_filter]
      exact ⟨Nat.pos_of_ne_zero hcap, fun l hl => hpos l hl.1⟩
    · refine List.pairwise_cons.2 ⟨fun l hl => ?_, hrise.sublist List.filter_sublist⟩
      exact of_decide_eq_true (List.mem_filter.1 hl).2

/-! ## The invariant in four parts -/

/-- WIN's canonical form, and its 2^EI_MAX entries (10_state R31). -/
structure WindowOk (s : State) : Prop where
  winWf   : s.win.cells.wf = true
  winSize : ∀ c ∈ s.win.cells, c.1 < 2 ^ s.hw.eiMax

/-- The part of `Inv` on the build, SRC and DST. -/
structure StorageOk (s : State) : Prop where
  build  : s.hw.legal = true
  srcWf  : s.src.wf = true
  dstWf  : s.dst.cells.wf = true
  lostOk : lostWf s.dst.lost = true

/-- The part of `Inv` on what the host registers and the host's knowledge say of the engine. -/
structure StatusOk (s : State) : Prop where
  busy    : s.regs.busy = true ↔ s.eng.phase ≠ .idle
  notBoth : ¬ (s.regs.busy = true ∧ s.regs.done = true)
  noErr   : s.regs.busy = true → s.regs.err = .ok
  legal   : s.regs.busy = true → s.legal = true
  placed  : s.regs.busy = true → s.misplaced = none
  wrote   : ∀ w, s.unseen.last = some w → s.regs.busy = false ∧ (s.regs.err = .ok → w = s.regs.outCount.toNat)
  extents : ∀ e ∈ s.unseen.older, e.lo < e.hi

theorem inv_iff {s : State} : Inv s ↔ StorageOk s ∧ WindowOk s ∧ StatusOk s ∧ PhaseOk s := by
  constructor
  · intro h
    exact ⟨⟨h.build, h.srcWf, h.dstWf, h.lostOk⟩, ⟨h.winWf, h.winSize⟩,
      ⟨h.busy, h.notBoth, h.noErr, h.legal, h.placed, h.wrote, h.extents⟩, h.phase⟩
  · rintro ⟨storage, window, status, phase⟩
    exact { storage, window, status with phase }

theorem Inv.storage {s : State} (h : Inv s) : StorageOk s := (inv_iff.1 h).1

theorem Inv.window {s : State} (h : Inv s) : WindowOk s := (inv_iff.1 h).2.1

theorem Inv.legal_of_phase {s : State} (h : Inv s) (hp : s.eng.phase ≠ .idle) : s.legal = true :=
  h.legal (h.busy.2 hp)

theorem phaseOk_of_idle {s : State} (h : s.eng.phase = .idle) : PhaseOk s := by
  simp [PhaseOk, h]

/-- While no command runs, `Inv` says nothing of the engine's registers and the parameters. -/
theorem StatusOk.of_idle {s : State} (hp : s.eng.phase = .idle) (hb : s.regs.busy = false)
    (hw : ∀ w, s.unseen.last = some w → s.regs.err = .ok → w = s.regs.outCount.toNat)
    (he : ∀ e ∈ s.unseen.older, e.lo < e.hi) : StatusOk s where
  busy := by simp [hp, hb]
  notBoth := by simp [hb]
  noErr := by simp [hb]
  legal := by simp [hb]
  placed := by simp [hb]
  wrote w h := ⟨hb, hw w h⟩
  extents := he

/-! ### The storage -/

theorem StorageOk.congr {s t : State} (h : StorageOk s) (hhw : t.hw = s.hw) (hsrc : t.src = s.src)
    (hdst : t.dst = s.dst) : StorageOk t where
  build := hhw ▸ h.build
  srcWf := hsrc ▸ h.srcWf
  dstWf := hdst ▸ h.dstWf
  lostOk := hdst ▸ h.lostOk

theorem StorageOk.putDst {s : State} (h : StorageOk s) (i : Nat) (v : Byte) : StorageOk (s.putDst i v) :=
  { h with dstWf := Memory.write_wf _ _ _ h.dstWf }

theorem StorageOk.putSrc {s : State} (h : StorageOk s) (i : Nat) (v : Byte) : StorageOk (s.putSrc i v) := by
  obtain ⟨hsrc, hdst, hlost⟩ := putSrc_wf i v s h.srcWf h.dstWf
  exact ⟨by simpa using h.build, hsrc, hdst, hlost ▸ h.lostOk⟩

theorem StorageOk.loseDst {s : State} (h : StorageOk s) : StorageOk s.loseDst :=
  { h with
    dstWf := Memory.dropBelow_wf _ _ h.dstWf
    lostOk := Dest.lose_lostWf _ _ h.lostOk }

/-! ### The window -/

theorem WindowOk.congr {s t : State} (h : WindowOk s) (hhw : t.hw = s.hw) (hwin : t.win = s.win) : WindowOk t where
  winWf := hwin ▸ h.winWf
  winSize := by
    rw [hwin, hhw]
    exact h.winSize

/-- No entry is listed once the window is lost. -/
theorem windowOk_of_empty {s : State} (h : s.win.cells = []) : WindowOk s :=
  ⟨by simp [h, Memory.wf], by simp [h]⟩

/-- WIN_INIT writes the first N entries only, which lie in WIN. -/
theorem WindowOk.winInit {s : State} (h : WindowOk s) (hl : s.legal = true) : WindowOk (winInit s) := by
  refine ⟨Memory.filled_append_wf _ _ _ h.winWf, fun c hc => ?_⟩
  rcases List.mem_append.1 hc with hc | hc
  · have hn : c.1 < 0 + s.n := (Memory.mem_filled _ _ _ hc).2
    exact Nat.lt_of_lt_of_le (Nat.zero_add s.n ▸ hn) (State.n_le hl)
  · exact h.winSize c (List.mem_filter.1 hc).1

/-- WIN_WRITE at a cursor below N. -/
theorem WindowOk.winWrite {s : State} (b : Byte) (h : WindowOk s) (hl : s.legal = true) (hc : s.win.cur < s.n) :
    WindowOk (winWrite b s) := by
  refine ⟨Memory.write_wf _ _ _ h.winWf, fun c hmem => ?_⟩
  rcases Memory.mem_write _ _ _ hmem with rfl | hmem
  · exact Nat.lt_of_lt_of_le hc (State.n_le hl)
  · exact h.winSize c hmem

/-! ### How a command ends -/

/-- complete leaves an idle machine; a command that ends without error wrote OUT_COUNT bytes. -/
theorem complete_statusOk {code : ErrCode} {wrote : Nat} {s : State}
    (hw : code = .ok → wrote = s.regs.outCount.toNat) (he : ∀ e ∈ s.unseen.older, e.lo < e.hi) :
    StatusOk (complete code wrote s) := by
  refine StatusOk.of_idle rfl rfl (fun w hlast hok => ?_) ?_
  · have hcode : code = .ok := hok
    have hw' : wrote = w := by
      simp only [complete_unseen, Unseen.seeIf_last, Unseen.record_last] at hlast
      split at hlast <;> simp_all
    simp [hcode, ← hw', hw hcode]
  · exact Unseen.seeIf_extents _ (Unseen.record_extents _ he)

theorem complete_inv {code : ErrCode} {wrote : Nat} {s : State} (h : StorageOk s) (hwin : WindowOk s)
    (hw : code = .ok → wrote = s.regs.outCount.toNat) (he : ∀ e ∈ s.unseen.older, e.lo < e.hi) :
    Inv (complete code wrote s) :=
  inv_iff.2 ⟨h.congr rfl rfl rfl, hwin.congr rfl rfl, complete_statusOk hw he, phaseOk_of_idle rfl⟩

theorem abort_inv {code : ErrCode} {s : State} (hcode : code ≠ .ok) (h : StorageOk s)
    (he : ∀ e ∈ s.unseen.older, e.lo < e.hi) : Inv (abort code s) :=
  complete_inv (h.loseDst.congr rfl rfl rfl) (windowOk_of_empty rfl) (absurd · hcode) he

theorem succeed_inv {out used : Word} {s : State} (h : StorageOk s) (he : ∀ e ∈ s.unseen.older, e.lo < e.hi) :
    Inv (succeed out used s) :=
  complete_inv (h.congr rfl rfl rfl) (windowOk_of_empty rfl) (fun _ => rfl) he

theorem reject_inv {code : ErrCode} {s : State} (hcode : code ≠ .ok) (h : StorageOk s) (hwin : WindowOk s)
    (he : ∀ e ∈ s.unseen.older, e.lo < e.hi) : Inv (reject code s) :=
  complete_inv (h.congr rfl rfl rfl) (hwin.congr rfl rfl) (absurd · hcode) he

end Sys2Proof.Machine
end

section
/-! PROOFS. What the engine's operations leave alone, whatever the state, and what the bit writer, the search and the
fields read keep. -/

namespace Sys2Proof.Machine

/-! ## What the engine leaves alone -/

/-- What no step of a running command changes before the command ends: all but DST below DST_CAP, the window and the
engine's own registers. -/
structure EngineFrame (s t : State) : Prop where
  regs     : t.regs = s.regs
  hw       : t.hw = s.hw
  src      : t.src = s.src
  place    : t.place = s.place
  host     : t.host = s.host
  unseen   : t.unseen = s.unseen
  lost     : t.dst.lost = s.dst.lost
  dstWf    : s.dst.cells.wf = true → t.dst.cells.wf = true
  dstAbove : ∀ a, s.regs.dstCap.toNat ≤ a → t.dst.read a = s.dst.read a

theorem EngineFrame.trans {s t u : State} (h : EngineFrame s t) (k : EngineFrame t u) : EngineFrame s u where
  regs := k.regs.trans h.regs
  hw := k.hw.trans h.hw
  src := k.src.trans h.src
  place := k.place.trans h.place
  host := k.host.trans h.host
  unseen := k.unseen.trans h.unseen
  lost := k.lost.trans h.lost
  dstWf := k.dstWf ∘ h.dstWf
  dstAbove a ha := (k.dstAbove a (h.regs ▸ ha)).trans (h.dstAbove a ha)

theorem engineFrame_eng_win (s : State) (e : Engine) (w : Window) : EngineFrame s { s with eng := e, win := w } :=
  ⟨rfl, rfl, rfl, rfl, rfl, rfl, rfl, id, fun _ _ => rfl⟩

theorem EngineFrame.refl (s : State) : EngineFrame s s := engineFrame_eng_win s s.eng s.win

theorem engineFrame_putDst {s : State} {i : Nat} (v : Byte) (hi : i < s.regs.dstCap.toNat) :
    EngineFrame s (s.putDst i v) where
  regs := rfl
  hw := rfl
  src := rfl
  place := rfl
  host := rfl
  unseen := rfl
  lost := rfl
  dstWf := Memory.write_wf _ _ _
  dstAbove a ha := by rw [State.putDst_read, if_neg (by omega)]

theorem engineFrame_emitByte {s : State} (c : Byte) (h : s.eng.outn < s.regs.dstCap.toNat) :
    EngineFrame s (emitByte c s) :=
  (engineFrame_putDst c h).trans (engineFrame_eng_win _ _ _)

theorem engineFrame_winConsume (i k : Nat) (s : State) : EngineFrame s (winConsume i k s) := by
  rw [(winConsume_frame i k s).1]
  exact engineFrame_eng_win s s.eng _

/-! ### The writer -/

theorem engineFrame_putBit {b : Bool} {s t : State} (h : putBit b s = .ok t) : EngineFrame s t := by
  rcases putBit_ok h with ⟨-, rfl⟩ | ⟨-, hk, rfl⟩
  · exact engineFrame_eng_win s _ s.win
  · exact (engineFrame_putDst _ hk).trans (engineFrame_eng_win _ _ s.win)

theorem engineFrame_putBits {bits : List Bool} {s t : State} (h : putBits bits s = .ok t) : EngineFrame s t := by
  induction bits generalizing s with
  | nil =>
    obtain rfl : s = t := by simpa [putBits] using h
    exact EngineFrame.refl s
  | cons b bits ih =>
    simp only [putBits] at h
    split at h
    · exact (engineFrame_putBit ‹_›).trans (ih h)
    · cases h

theorem engineFrame_putBits_error {bits : List Bool} {s u : State} {code : ErrCode}
    (h : putBits bits s = .error (code, u)) : code = .capacity ∧ EngineFrame s u := by
  obtain ⟨hcode, hregs, hhw, hsrc, hplace, hhost, hu, hlost, hdst, hwf⟩ := putBits_error h
  exact ⟨hcode, hregs, hhw, hsrc, hplace, hhost, by rw [hu], hlost, hwf, hdst⟩

/-- FLUSH stores a byte below DST_CAP, or nothing. -/
theorem engineFrame_flush {s t : State} (h : flush s = .ok t) : EngineFrame s t := by
  unfold flush at h
  split at h
  · obtain rfl : s = t := by simpa using h
    exact EngineFrame.refl s
  · obtain ⟨hk, rfl⟩ := storeByte_ok h
    exact engineFrame_putDst _ hk

theorem flush_error {s : State} {e : ErrCode × State} (h : flush s = .error e) : e = (.capacity, s) := by
  unfold flush at h
  split at h
  · cases h
  · exact (storeByte_error h).2

/-! ### The copy -/

/-- Whatever the offset, the copy changes DST below DST_CAP, the window and OUTN and COPY_K only. -/
theorem engineFrame_copyLoop {k : Nat} {s t : State} (h : copyLoop k s = .ok t) :
    EngineFrame s t := by
  induction k generalizing s with
  | zero =>
    obtain rfl : s = t := by simpa [copyLoop] using h
    exact EngineFrame.refl s
  | succ k ih =>
    simp only [copyLoop] at h
    split at h
    · rename_i hlt
      split at h
      · cases h
      · exact ((engineFrame_emitByte _ hlt).trans (engineFrame_eng_win _ _ _)).trans (ih h)
    · obtain rfl : s = t := by simpa using h
      exact EngineFrame.refl s

theorem copyLoop_error {k : Nat} {s u : State} {code : ErrCode} (h : copyLoop k s = .error (code, u)) :
    code = .badOffset ∧ EngineFrame s u := by
  induction k generalizing s with
  | zero => simp [copyLoop] at h
  | succ k ih =>
    simp only [copyLoop] at h
    split at h
    · rename_i hlt
      split at h
      · rename_i e he
        obtain ⟨-, rfl⟩ := winReadback_error he
        obtain ⟨rfl, rfl⟩ : .badOffset = code ∧ s = u := by simpa using h
        exact ⟨rfl, EngineFrame.refl s⟩
      · obtain ⟨hcode, hu⟩ := ih h
        exact ⟨hcode, ((engineFrame_emitByte _ hlt).trans (engineFrame_eng_win _ _ _)).trans hu⟩
    · cases h

/-! ## What the engine keeps: the writer, the search and the decoded lengths -/

theorem posIn_inj {o : BitOrder} {t u : Nat} (h : posIn o t = posIn o u) : t % 8 = u % 8 := by
  cases o <;> simp only [posIn] at h <;> omega

theorem setBit_other {p q : Nat} (a : Byte) (b : Bool) (h : q ≠ p) : (setBit a p b).getLsbD q = a.getLsbD q := by
  have hq : ¬ q < p → ¬ q - p = 0 := by omega
  have hlt : a.getLsbD q = true → q < 8 := BitVec.lt_of_getLsbD
  cases b
  · simp +contextual [setBit, BitVec.getLsbD_one, hq, hlt, or_iff_not_imp_left]
  · simp +contextual [setBit, BitVec.getLsbD_one, hq]

/-- A bit put leaves the positions after it clear (10_state R34). -/
theorem putBit_writerOk {b : Bool} {s t : State} (hs : WriterOk s) (h : putBit b s = .ok t) : WriterOk t := by
  obtain ⟨hstored, hclear⟩ := hs
  rcases putBit_ok h with ⟨h8, rfl⟩ | ⟨h8, hk, rfl⟩
  · constructor
    · show (s.eng.obits + 1) / 8 ≤ s.regs.dstCap.toNat
      omega
    · intro j hj hj8
      have hj : (s.eng.obits + 1) % 8 ≤ j := hj
      have hne : posIn s.hw.order j ≠ posIn s.hw.order s.eng.obits := fun he => by
        have := posIn_inj he
        omega
      exact (setBit_other _ b hne).trans (hclear j (by omega) hj8)
  · constructor
    · show (s.eng.obits + 1) / 8 ≤ s.regs.dstCap.toNat
      omega
    · intro j _ _
      exact BitVec.getLsbD_zero

theorem putBits_writerOk {bits : List Bool} {s t : State} (hs : WriterOk s) (h : putBits bits s = .ok t) :
    WriterOk t := by
  induction bits generalizing s with
  | nil =>
    obtain rfl : s = t := by simpa [putBits] using h
    exact hs
  | cons b bits ih =>
    simp only [putBits] at h
    split at h
    · exact ih (putBit_writerOk hs ‹_›) h
    · cases h

theorem commonPrefix_le (f : Nat → Byte) (a b cap : Nat) : commonPrefix f a b cap ≤ cap := by
  induction cap generalizing a b with
  | zero => simp [commonPrefix]
  | succ cap ih =>
    simp only [commonPrefix]
    split
    · exact Nat.succ_le_succ (ih _ _)
    · exact Nat.zero_le _

/-- A match found so far: no longer than the cap, and at an offset up to the bound unless it is empty. -/
structure BestOk (cap bound : Nat) (b : Best) : Prop where
  len : b.len ≤ cap
  off : 0 < b.len → 1 ≤ b.off ∧ b.off ≤ bound

theorem scanOffsets_bestOk {ml : Nat → Nat} {cap bound : Nat} (hml : ∀ off, ml off ≤ cap) (off k : Nat) (b : Best)
    (h1 : 1 ≤ off) (h2 : off + k ≤ bound + 1) (hb : BestOk cap bound b) :
    BestOk cap bound (scanOffsets ml off k b) := by
  induction k generalizing off b with
  | zero => exact hb
  | succ k ih =>
    refine ih (off + 1) _ (by omega) (by omega) ?_
    split
    · exact ⟨hml off, fun _ => ⟨h1, by show off ≤ bound; omega⟩⟩
    · exact hb

theorem findMatch_bestOk (pr : Params) (f : Nat → Byte) (n pos : Nat) :
    BestOk (matchCap pr n pos) (min (winSize pr) pos) (findMatch pr f n pos) := by
  have hnone : BestOk (matchCap pr n pos) (min (winSize pr) pos) { len := 0, off := 0 } :=
    ⟨Nat.zero_le _, fun h => absurd h (Nat.lt_irrefl 0)⟩
  unfold findMatch
  split
  · exact scanOffsets_bestOk (fun _ => commonPrefix_le f _ _ _) 1 _ _ (Nat.le_refl 1) (by omega) hnone
  · exact hnone

theorem matchCap_le_lmax (pr : Params) (n pos : Nat) : matchCap pr n pos ≤ lmax pr := Nat.min_le_left _ _

/-- A field of w bits holds a value below 2^w (30_encoding R72). -/
theorem fieldValue_lt (o : BitOrder) (bits : List Bool) : fieldValue o bits < 2 ^ bits.length := by
  cases o with
  | lsb =>
    show bits.foldr _ 0 < _
    induction bits with
    | nil => simp
    | cons b bits ih =>
      have := b.toNat_le
      simp only [List.foldr_cons, List.length_cons, Nat.pow_succ]
      omega
  | msb =>
    have hfold : ∀ acc, bits.foldl (fun acc b => 2 * acc + b.toNat) acc < (acc + 1) * 2 ^ bits.length := by
      induction bits with
      | nil => simp
      | cons b bits ih =>
        intro acc
        have hb := b.toNat_le
        calc (b :: bits).foldl (fun acc b => 2 * acc + b.toNat) acc
            < (2 * acc + b.toNat + 1) * 2 ^ bits.length := ih _
          _ ≤ ((acc + 1) * 2) * 2 ^ bits.length := Nat.mul_le_mul_right _ (by omega)
          _ = (acc + 1) * 2 ^ (b :: bits).length := by rw [List.length_cons, Nat.pow_succ]; ring
    simpa [fieldValue] using hfold 0

/-- A decoded length that is not below P is legal (43_decoder R183). -/
theorem lenOperand_le_lmax {pr : Params} {bits : List Bool} (o : BitOrder) (h : bits.length = pr.ej) :
    lenOperand pr (fieldValue o bits) ≤ lmax pr := by
  have := fieldValue_lt o bits
  rw [h] at this
  unfold lenOperand lmax
  split <;> omega

theorem p_le_lenOperand {pr : Params} (h : pr.rless = true) (lenf : Nat) : pr.p ≤ lenOperand pr lenf := by
  simp [lenOperand, h]

end Sys2Proof.Machine
end

section
/-! PROOFS. What a step of the engine can do, phase by phase, and that it keeps the invariant. -/

namespace Sys2Proof.Machine

/-! ## What the phases' conditions depend on -/

/-- The command's arguments and the build are the same. -/
structure SameArgs (s t : State) : Prop where
  hw     : t.hw = s.hw
  cfg    : t.regs.cfg = s.regs.cfg
  srcLen : t.regs.srcLen = s.regs.srcLen
  dstCap : t.regs.dstCap = s.regs.dstCap

theorem SameArgs.of_regs {s t : State} (hregs : t.regs = s.regs) (hhw : t.hw = s.hw) : SameArgs s t :=
  ⟨hhw, by rw [hregs], by rw [hregs], by rw [hregs]⟩

theorem EngineFrame.sameArgs {s t : State} (f : EngineFrame s t) : SameArgs s t := .of_regs f.regs f.hw

theorem WriterOk.congr {s t : State} (h : WriterOk s) (a : SameArgs s t) (hobits : t.eng.obits = s.eng.obits)
    (hoacc : t.eng.oacc = s.eng.oacc) : WriterOk t :=
  ⟨by simpa [hobits, a.dstCap] using h.stored, by simpa [hobits, hoacc, a.hw] using h.clear⟩

theorem EncoderOk.congr {s t : State} (h : EncoderOk s) (a : SameArgs s t) (hwin : t.win = s.win)
    (hcur : t.eng.cur = s.eng.cur) (hpos : t.eng.pos = s.eng.pos) (hobits : t.eng.obits = s.eng.obits)
    (hoacc : t.eng.oacc = s.eng.oacc) : EncoderOk t where
  cur := hcur ▸ h.cur
  cursor := by simpa [hwin, State.n_eq a.cfg] using h.cursor
  pos := by simpa [hpos, a.srcLen] using h.pos
  writer := h.writer.congr a hobits hoacc

theorem DecoderOk.congr {s t : State} (h : DecoderOk s) (a : SameArgs s t) (hwin : t.win = s.win)
    (heng : t.eng = s.eng) : DecoderOk t where
  cur := heng ▸ h.cur
  cursor := by simpa [hwin, State.n_eq a.cfg] using h.cursor
  outn := by simpa [heng, a.dstCap] using h.outn
  ibits := by simpa [heng, a.srcLen] using h.ibits

theorem FoundOk.congr {s t : State} (h : FoundOk s) (a : SameArgs s t) (heng : t.eng = s.eng) : FoundOk t where
  more := by simpa [heng, a.srcLen] using h.more
  len := by simpa [heng, a.srcLen, State.params_eq a.cfg] using h.len
  off := by simpa [heng, State.n_eq a.cfg, State.params_eq a.cfg] using h.off

theorem MatchOk.congr {s t : State} (h : MatchOk s) (a : SameArgs s t) (heng : t.eng = s.eng) : MatchOk t where
  off := by simpa [heng, State.n_eq a.cfg] using h.off
  len := by simpa [heng, State.params_eq a.cfg] using h.len
  copy := by simpa [heng] using h.copy

theorem PhaseOk.congr {s t : State} (h : PhaseOk s) (a : SameArgs s t) (hwin : t.win = s.win)
    (heng : t.eng = s.eng) : PhaseOk t := by
  have henc (e : EncoderOk s) : EncoderOk t :=
    e.congr a hwin (by rw [heng]) (by rw [heng]) (by rw [heng]) (by rw [heng])
  have hdec (d : DecoderOk s) : DecoderOk t := d.congr a hwin heng
  unfold PhaseOk at *
  rw [heng]
  cases hp : s.eng.phase <;> simp only [hp] at h ⊢
  case cFind => exact henc h
  case cEmit => exact ⟨henc h.1, h.2.congr a heng⟩
  case cFlush => exact ⟨henc h.1, h.2.trans (by rw [a.srcLen])⟩
  case dFlag => exact hdec h
  case dLit => exact ⟨hdec h.1, by rw [a.dstCap]; exact h.2⟩
  case dMatch => exact ⟨hdec h.1, by rw [a.dstCap]; exact h.2⟩
  case dCopy => exact ⟨hdec h.1, h.2.congr a heng⟩

/-! ## What a step of the engine can do -/

/-- The command runs on: only what the engine may change has changed, and the phase entered finds what it needs. -/
structure GoesOn (s t : State) : Prop where
  frame   : EngineFrame s t
  was     : s.eng.phase ≠ .idle
  running : t.eng.phase ≠ .idle
  keeps   : Inv s → WindowOk t ∧ PhaseOk t

/-- What the engine's step can do in any state: wait in IDLE, go on, or end the command, with an error or without. -/
inductive EngineOutcome (s : State) : State → Prop
  | waits : s.eng.phase = .idle → EngineOutcome s s
  | goesOn {t : State} : GoesOn s t → EngineOutcome s t
  | aborted {code : ErrCode} {u : State} : code ≠ .ok → EngineFrame s u → EngineOutcome s (abort code u)
  | succeeded {out used : Word} {u : State} : EngineFrame s u → EngineOutcome s (succeed out used u)

theorem EngineFrame.storage {s t : State} (f : EngineFrame s t) (h : StorageOk s) : StorageOk t where
  build := f.hw ▸ h.build
  srcWf := f.src ▸ h.srcWf
  dstWf := f.dstWf h.dstWf
  lostOk := f.lost ▸ h.lostOk

theorem GoesOn.inv {s t : State} (h : Inv s) (hg : GoesOn s t) : Inv t := by
  obtain ⟨f, hwas, hrun, hkeeps⟩ := hg
  obtain ⟨hwin, hphase⟩ := hkeeps h
  refine inv_iff.2 ⟨f.storage h.storage, hwin, ?_, hphase⟩
  have hlegal : t.legal = s.legal := State.legal_eq (by rw [f.regs]) f.hw
  have hplaced : t.misplaced = s.misplaced := State.misplaced_eq f.place (by rw [f.regs]) (by rw [f.regs])
  exact
    { busy := by simp [f.regs, hrun, h.busy, hwas]
      notBoth := by simpa [f.regs] using h.notBoth
      noErr := by simpa [f.regs] using h.noErr
      legal := by simpa [f.regs, hlegal] using h.legal
      placed := by simpa [f.regs, hplaced] using h.placed
      wrote := by simpa [f.regs, f.unseen] using h.wrote
      extents := by simpa [f.unseen] using h.extents }

theorem EngineOutcome.inv {s t : State} (h : Inv s) (o : EngineOutcome s t) : Inv t := by
  cases o with
  | waits _ => exact h
  | goesOn hg => exact hg.inv h
  | aborted hcode f => exact abort_inv hcode (f.storage h.storage) (f.unseen ▸ h.extents)
  | succeeded f => exact succeed_inv (f.storage h.storage) (f.unseen ▸ h.extents)

theorem EngineOutcome.hw {s t : State} (o : EngineOutcome s t) : t.hw = s.hw := by
  cases o with
  | waits _ => rfl
  | goesOn hg => exact hg.frame.hw
  | aborted _ f => exact f.hw
  | succeeded f => exact f.hw

/-! ### INIT -/

theorem writerOk_of_empty {s : State} (hobits : s.eng.obits = 0) (hoacc : s.eng.oacc = 0#8) : WriterOk s :=
  ⟨by simp [hobits], by simp [hoacc]⟩


theorem engineInit_outcome {s t : State} (hp : s.eng.phase = .init) (h : engineInit s = .next t) :
    EngineOutcome s t := by
  have hlegal (hi : Inv s) : s.legal = true := hi.legal_of_phase (by simp [hp])
  have hwin (hi : Inv s) : WindowOk (winInit s) := hi.window.winInit (hlegal hi)
  unfold engineInit at h
  split at h
  · rename_i hc
    obtain rfl := Host.Outcome.next.inj h
    refine .goesOn ⟨engineFrame_eng_win s _ _, by simp [hp], nofun, fun hi => ⟨(hwin hi).congr rfl rfl, ?_⟩⟩
    exact ⟨hc, s.n_pos, Nat.zero_le _, writerOk_of_empty rfl rfl⟩
  · rename_i hc
    obtain rfl := Host.Outcome.next.inj h
    refine .goesOn ⟨engineFrame_eng_win s _ _, by simp [hp], nofun, fun hi => ⟨(hwin hi).congr rfl rfl, ?_⟩⟩
    exact ⟨hc, s.n_pos, Nat.zero_le _, Nat.zero_le _⟩

/-! ### COMPRESS -/

theorem engineFind_outcome {s t : State} (hp : s.eng.phase = .cFind) (h : engineFind s = .next t) :
    EngineOutcome s t := by
  have henc (hi : Inv s) : EncoderOk s := by simpa [PhaseOk, hp] using hi.phase
  unfold engineFind at h
  split at h
  · rename_i hpos
    obtain rfl := Host.Outcome.next.inj h
    refine .goesOn ⟨engineFrame_eng_win s _ s.win, by simp [hp], nofun, fun hi => ⟨hi.window.congr rfl rfl, ?_⟩⟩
    obtain ⟨hlen, hoff⟩ := findMatch_bestOk s.params s.srcByte s.regs.srcLen.toNat s.eng.pos
    obtain ⟨-, -, -, -, hp1, -⟩ := State.legal_iff.1 (hi.legal_of_phase (by simp [hp]))
    exact ⟨(henc hi).congr (.of_regs rfl rfl) rfl rfl rfl rfl rfl, hpos, hlen,
      fun hle => hoff (Nat.lt_of_lt_of_le hp1 hle)⟩
  · rename_i hpos
    obtain rfl := Host.Outcome.next.inj h
    refine .goesOn ⟨engineFrame_eng_win s _ s.win, by simp [hp], nofun, fun hi => ⟨hi.window.congr rfl rfl, ?_⟩⟩
    exact ⟨(henc hi).congr (.of_regs rfl rfl) rfl rfl rfl rfl rfl,
      Nat.le_antisymm (henc hi).pos (Nat.le_of_not_lt hpos)⟩

/-- The stream bits EMIT puts. -/
def State.emitBits (s : State) : List Bool :=
  tokenBits s.hw.order s.params
    (chooseToken s.params s.srcByte s.eng.pos { len := s.eng.bestLen, off := s.eng.bestOff })

/-- How many SRC bytes EMIT consumes. -/
def State.emitCount (s : State) : Nat := consumed s.params { len := s.eng.bestLen, off := s.eng.bestOff }

theorem engineEmit_next {s t : State} (h : engineEmit s = .next t) :
    s.eng.pos + s.emitCount ≤ s.regs.srcLen.toNat ∧
      ((∃ u, putBits s.emitBits s = .ok u ∧
          t = { winConsume s.eng.pos s.emitCount u with
                eng.pos := s.eng.pos + s.emitCount, eng.phase := .cFind }) ∨
        ∃ u, putBits s.emitBits s = .error (.capacity, u) ∧ t = abort .capacity u) := by
  unfold engineEmit at h
  split at h
  · rename_i hle
    refine ⟨hle, ?_⟩
    unfold emit at h
    dsimp only at h
    split at h
    · rename_i e he
      obtain ⟨code, u⟩ := e
      obtain rfl := (putBits_error he).1
      exact .inr ⟨u, he, (Host.Outcome.next.inj h).symm⟩
    · rename_i u hu
      exact .inl ⟨u, hu, (Host.Outcome.next.inj h).symm⟩
  · cases h

theorem putBits_win_cur {bits : List Bool} {s t : State} (h : putBits bits s = .ok t) :
    t.win = s.win ∧ t.eng.cur = s.eng.cur := by
  rw [(putBits_frame h).1]
  exact ⟨rfl, rfl⟩

theorem winConsume_eng (i k : Nat) (s : State) : (winConsume i k s).eng = s.eng := by
  rw [(winConsume_frame i k s).1]

theorem winConsume_n (i k : Nat) (s : State) : (winConsume i k s).n = s.n :=
  State.n_eq (by rw [(engineFrame_winConsume i k s).regs])

/-- The bytes a token consumes leave the window's form, and the cursor below N. -/
theorem WindowOk.winConsume {s : State} (i k : Nat) (h : WindowOk s) (hl : s.legal = true) (hc : s.win.cur < s.n) :
    WindowOk (winConsume i k s) ∧ (winConsume i k s).win.cur < s.n := by
  obtain ⟨-, -, hwf, hcells⟩ := winConsume_frame i k s
  obtain ⟨hcur, -, hbelow⟩ := hcells hc
  have hhw := (engineFrame_winConsume i k s).hw
  exact ⟨⟨hwf h.winWf, hhw ▸ hbelow _ (State.n_le hl) h.winSize⟩, hcur⟩

theorem engineEmit_outcome {s t : State} (hp : s.eng.phase = .cEmit) (h : engineEmit s = .next t) :
    EngineOutcome s t := by
  obtain ⟨hle, ⟨u, hu, rfl⟩ | ⟨u, hu, rfl⟩⟩ := engineEmit_next h
  · have hput := engineFrame_putBits hu
    have hconsume := engineFrame_winConsume s.eng.pos s.emitCount u
    have hframe := hput.trans hconsume
    refine .goesOn ⟨hframe.trans (engineFrame_eng_win _ _ _), by simp [hp], nofun, fun hi => ?_⟩
    obtain ⟨henc, -⟩ : EncoderOk s ∧ FoundOk s := by simpa [PhaseOk, hp] using hi.phase
    obtain ⟨hwin, hcur⟩ := putBits_win_cur hu
    have hlegal : u.legal = true :=
      (State.legal_eq (by rw [hput.regs]) hput.hw).trans (hi.legal_of_phase (by simp [hp]))
    have hcursor : u.win.cur < u.n := by
      rw [hwin, State.n_eq (congrArg Regs.cfg hput.regs)]
      exact henc.cursor
    obtain ⟨hok, hcursor⟩ := (hi.window.congr hput.hw hwin).winConsume s.eng.pos s.emitCount hlegal hcursor
    have heng := winConsume_eng s.eng.pos s.emitCount u
    have hwriter : WriterOk (winConsume s.eng.pos s.emitCount u) :=
      (putBits_writerOk henc.writer hu).congr hconsume.sameArgs (by rw [heng]) (by rw [heng])
    refine ⟨hok.congr rfl rfl, ?_, ?_, ?_, hwriter.stored, hwriter.clear⟩
    · show (winConsume s.eng.pos s.emitCount u).eng.cur = .compress
      rw [heng, hcur, henc.cur]
    · exact hcursor.trans_eq (winConsume_n _ _ u).symm
    · show s.eng.pos + s.emitCount ≤ (winConsume s.eng.pos s.emitCount u).regs.srcLen.toNat
      rw [hframe.regs]
      exact hle
  · exact .aborted nofun (engineFrame_putBits_error hu).2

theorem engineFlush_outcome {s t : State} (h : engineFlush s = .next t) : EngineOutcome s t := by
  unfold engineFlush at h
  split at h
  · rename_i he
    obtain rfl := flush_error he
    obtain rfl := Host.Outcome.next.inj h
    exact .aborted nofun (EngineFrame.refl s)
  · rename_i ht
    obtain rfl := Host.Outcome.next.inj h
    exact .succeeded (engineFrame_flush ht)

/-! ### DECOMPRESS -/

theorem getFlag_cases (s : State) :
    (s.eng.ibits + 1 ≤ 8 * s.regs.srcLen.toNat ∧
      ∃ flag, getFlag s = .ok (flag, { s with eng.ibits := s.eng.ibits + 1, eng.tokFlag := flag })) ∨
    getFlag s = .error (.srcExhausted, s) := by
  by_cases h : s.eng.ibits + 1 ≤ 8 * s.regs.srcLen.toNat
  · exact .inl ⟨h, _, by simp only [getFlag, getBits_of_le h]; rfl⟩
  · exact .inr (by simp only [getFlag, getBits_of_gt (Nat.lt_of_not_le h)])

theorem engineFlag_outcome {s t : State} (hp : s.eng.phase = .dFlag) (h : engineFlag s = .next t) :
    EngineOutcome s t := by
  unfold engineFlag at h
  split at h
  · obtain rfl := Host.Outcome.next.inj h
    exact .succeeded (EngineFrame.refl s)
  · rename_i hne
    obtain ⟨hle, flag, hf⟩ | hf := getFlag_cases s <;> simp only [hf] at h <;> obtain rfl := Host.Outcome.next.inj h
    · refine .goesOn ⟨engineFrame_eng_win s _ s.win, by simp [hp], by cases flag <;> nofun, fun hi => ?_⟩
      have hdec : DecoderOk s := by simpa [PhaseOk, hp] using hi.phase
      have hlt : s.eng.outn < s.regs.dstCap.toNat := Nat.lt_of_le_of_ne hdec.outn hne
      refine ⟨hi.window.congr rfl rfl, ?_⟩
      cases flag <;> exact ⟨⟨hdec.cur, hdec.cursor, hdec.outn, hle⟩, hlt⟩
    · exact .aborted nofun (EngineFrame.refl s)

theorem execLit_next {c : Byte} {s t : State} (h : execLit c s = .next t) :
    s.eng.outn < s.regs.dstCap.toNat ∧ t = { emitByte c s with eng.phase := .dFlag } := by
  unfold execLit at h
  split at h
  · exact ⟨‹_›, (Host.Outcome.next.inj h).symm⟩
  · cases h

/-- D_LIT, the token read whole: one byte out, and the cursor moves on. -/
theorem execLit_outcome {c : Byte} {b : Nat} {s t : State} (hp : s.eng.phase = .dLit)
    (hle : b ≤ 8 * s.regs.srcLen.toNat) (h : execLit c { s with eng.ibits := b } = .next t) : EngineOutcome s t := by
  obtain ⟨hlt, rfl⟩ := execLit_next h
  have hframe := (engineFrame_eng_win s _ s.win).trans (engineFrame_emitByte c hlt)
  refine .goesOn ⟨hframe.trans (engineFrame_eng_win _ _ _), by simp [hp], nofun, fun hi => ?_⟩
  obtain ⟨hdec, -⟩ : DecoderOk s ∧ s.eng.outn < s.regs.dstCap.toNat := by simpa [PhaseOk, hp] using hi.phase
  have hwin : WindowOk (winWrite c s) := hi.window.winWrite c (hi.legal_of_phase (by simp [hp])) hdec.cursor
  exact ⟨hwin.congr rfl rfl, hdec.cur, Nat.mod_lt _ s.n_pos, hlt, hle⟩

theorem execMatchTok_next {off len : Nat} {s t : State} (h : execMatchTok off len s = .next t) :
    (∃ code, code ≠ .ok ∧ t = abort code { s with eng.tokOff := off, eng.tokLen := len }) ∨
    (1 ≤ off ∧ off ≤ s.n ∧ (s.params.rless = false → s.params.p ≤ len) ∧
      t = { s with eng.tokOff := off, eng.tokLen := len, eng.copyK := 0, eng.phase := .dCopy }) := by
  unfold execMatchTok at h
  dsimp only at h
  split at h
  · exact .inl ⟨.badOffset, nofun, (Host.Outcome.next.inj h).symm⟩
  · rename_i hoff
    have hoff : ¬ (off < 1 ∨ s.n < off) := hoff
    split at h
    · exact .inl ⟨.badLength, nofun, (Host.Outcome.next.inj h).symm⟩
    · rename_i hlen
      have hlen : ¬ (s.params.rless = false ∧ len < s.params.p) := hlen
      refine .inr ⟨by omega, by omega, fun hr => ?_, (Host.Outcome.next.inj h).symm⟩
      exact Nat.le_of_not_lt fun hlt => hlen ⟨hr, hlt⟩

/-- D_MATCH, the token read whole: its operands go to D_COPY, or end the command. -/
theorem execMatchTok_outcome {off lenf b : Nat} {s t : State} (hp : s.eng.phase = .dMatch)
    (hle : b ≤ 8 * s.regs.srcLen.toNat) (hmax : lenOperand s.params lenf ≤ lmax s.params)
    (h : execMatchTok off (lenOperand s.params lenf) { s with eng.ibits := b } = .next t) : EngineOutcome s t := by
  obtain ⟨code, hcode, rfl⟩ | ⟨hpos, hoff, hlen, rfl⟩ := execMatchTok_next h
  · exact .aborted hcode (engineFrame_eng_win s _ s.win)
  · refine .goesOn ⟨engineFrame_eng_win s _ s.win, by simp [hp], nofun, fun hi => ?_⟩
    obtain ⟨hdec, -⟩ : DecoderOk s ∧ s.eng.outn < s.regs.dstCap.toNat := by simpa [PhaseOk, hp] using hi.phase
    have hmin : s.params.p ≤ lenOperand s.params lenf := by
      cases hr : s.params.rless with
      | true => exact p_le_lenOperand hr lenf
      | false => exact hlen hr
    exact ⟨hi.window.congr rfl rfl, ⟨hdec.cur, hdec.cursor, hdec.outn, hle⟩, ⟨hpos, hoff⟩, ⟨hmin, hmax⟩, Nat.zero_le _⟩

theorem engineToken_outcome {flag : Bool} {s t : State} (hp : s.eng.phase = if flag then .dLit else .dMatch)
    (h : engineToken flag s = .next t) : EngineOutcome s t := by
  unfold engineToken at h
  by_cases hle : s.eng.ibits + payloadWidth s.params flag ≤ 8 * s.regs.srcLen.toNat
  · rw [fetchToken_ok flag s hle] at h
    cases flag with
    | true => exact execLit_outcome hp hle h
    | false => exact execMatchTok_outcome hp hle (lenOperand_le_lmax _ (by simp)) h
  · obtain ⟨b, hb⟩ := fetchToken_error flag s (Nat.lt_of_not_le hle)
    rw [hb] at h
    obtain rfl := Host.Outcome.next.inj h
    exact .aborted nofun (engineFrame_eng_win s _ s.win)

theorem engineCopy_outcome {s t : State} (hp : s.eng.phase = .dCopy) (h : engineCopy s = .next t) :
    EngineOutcome s t := by
  unfold engineCopy at h
  split at h
  · rename_i e he
    obtain ⟨code, u⟩ := e
    obtain ⟨rfl, hframe⟩ := copyLoop_error he
    obtain rfl := Host.Outcome.next.inj h
    exact .aborted nofun hframe
  · rename_i u hu
    obtain rfl := Host.Outcome.next.inj h
    have hframe := engineFrame_copyLoop hu
    refine .goesOn ⟨hframe.trans (engineFrame_eng_win _ _ _), by simp [hp], nofun, fun hi => ?_⟩
    obtain ⟨hdec, hmatch⟩ : DecoderOk s ∧ MatchOk s := by simpa [PhaseOk, hp] using hi.phase
    obtain ⟨v, hv, heq, -, -, -, hwf, -, hcells⟩ := copyLoop_ok (s.eng.tokLen - s.eng.copyK) s hmatch.off.1 hmatch.off.2
    obtain rfl : u = v := Except.ok.inj (hu.symm.trans hv)
    obtain ⟨hcur, -, hbelow⟩ := hcells hdec.cursor
    have hsize := hbelow _ (State.n_le (hi.legal_of_phase (by simp [hp]))) hi.winSize
    have hout := hdec.outn
    have hbits := hdec.ibits
    have hc := hdec.cur
    rw [heq]
    refine ⟨⟨hwf hi.winWf, hsize⟩, ⟨hc, hcur, ?_, hbits⟩⟩
    show s.eng.outn + min (s.eng.tokLen - s.eng.copyK) (s.regs.dstCap.toNat - s.eng.outn) ≤ s.regs.dstCap.toNat
    omega

/-! ### Every phase -/

theorem engineStep_outcome {s t : State} (h : engineStep s = .next t) : EngineOutcome s t := by
  unfold engineStep at h
  split at h
  case h_1 hp =>
    obtain rfl := Host.Outcome.next.inj h
    exact .waits hp
  case h_2 hp => exact engineInit_outcome hp h
  case h_3 hp => exact engineFind_outcome hp h
  case h_4 hp => exact engineEmit_outcome hp h
  case h_5 hp => exact engineFlush_outcome h
  case h_6 hp => exact engineFlag_outcome hp h
  case h_7 hp => exact engineToken_outcome (flag := true) hp h
  case h_8 hp => exact engineToken_outcome (flag := false) hp h
  case h_9 hp => exact engineCopy_outcome hp h

end Sys2Proof.Machine
end

section
/-! PROOFS. What the outside and a command word can do, and that every step keeps the invariant. -/

namespace Sys2Proof.Machine

/-! ## What a command word can do -/

theorem decodeWord_cases (v : Word) :
    decodeWord v = .nop ∨ decodeWord v = .compress ∨ decodeWord v = .decompress ∨ decodeWord v = .reserved v := by
  unfold decodeWord
  split_ifs <;> simp

theorem unlessBusy_next {s t : State} {o : Out} (h : unlessBusy s o = .next t) :
    t = s ∨ (s.regs.busy = false ∧ o = .next t) := by
  unfold unlessBusy at h
  split at h
  · exact .inl (Host.Outcome.next.inj h).symm
  · exact .inr ⟨Bool.eq_false_of_not_eq_true ‹_›, h⟩

theorem start_next {c : Command} {s t : State} (h : start c s = .next t) :
    (s.legal = true ∧ s.misplaced = none ∧ t = accept c s) ∨ (s.legal = false ∧ t = reject .param (accept c s)) := by
  rw [start_eq] at h
  split at h
  · split at h
    · cases h
    · exact .inl ⟨‹_›, ‹_›, (Host.Outcome.next.inj h).symm⟩
  · exact .inr ⟨Bool.eq_false_of_not_eq_true ‹_›, (Host.Outcome.next.inj h).symm⟩

/-- What a word written to CMD can do: nothing, or, while BUSY = 0, start a command or end one at once. -/
inductive CommandOutcome (s : State) : State → Prop
  | ignored : CommandOutcome s s
  | accepted {c : Command} : s.regs.busy = false → s.legal = true → s.misplaced = none → CommandOutcome s (accept c s)
  | badParam {c : Command} : s.regs.busy = false → s.legal = false → CommandOutcome s (reject .param (accept c s))
  | badCmd : s.regs.busy = false → CommandOutcome s (reject .badCmd s)

theorem commandOutcome_of_start {c : Command} {s t : State} (h : unlessBusy s (start c s) = .next t) :
    CommandOutcome s t := by
  obtain rfl | ⟨hb, h⟩ := unlessBusy_next h
  · exact .ignored
  · obtain ⟨hl, hm, rfl⟩ | ⟨hl, rfl⟩ := start_next h
    · exact .accepted hb hl hm
    · exact .badParam hb hl

theorem execWord_outcome {v : Word} {s t : State} (h : exec (decodeWord v) s = .next t) : CommandOutcome s t := by
  obtain hv | hv | hv | hv := decodeWord_cases v <;> rw [hv] at h
  · obtain rfl | ⟨-, h⟩ := unlessBusy_next h
    · exact .ignored
    · obtain rfl := Host.Outcome.next.inj h
      exact .ignored
  · exact commandOutcome_of_start h
  · exact commandOutcome_of_start h
  · obtain rfl | ⟨hb, h⟩ := unlessBusy_next h
    · exact .ignored
    · obtain rfl := Host.Outcome.next.inj h
      exact .badCmd hb

theorem CommandOutcome.hw {s t : State} (o : CommandOutcome s t) : t.hw = s.hw := by
  cases o <;> rfl

theorem accept_inv {c : Command} {s : State} (h : Inv s) (hl : s.legal = true) (hm : s.misplaced = none) :
    Inv (accept c s) := by
  refine inv_iff.2 ⟨h.storage.congr rfl rfl rfl, h.window.congr rfl rfl, ?_, trivial⟩
  exact
    { busy := by simp
      notBoth := by simp
      noErr := by simp
      legal := fun _ => (State.legal_eq rfl rfl).trans hl
      placed := fun _ => (State.misplaced_eq rfl rfl rfl).trans hm
      wrote := by simp
      extents := Unseen.supersede_extents h.extents }

theorem CommandOutcome.inv {s t : State} (h : Inv s) (o : CommandOutcome s t) : Inv t := by
  cases o with
  | ignored => exact h
  | accepted _ hl hm => exact accept_inv h hl hm
  | badParam _ _ =>
    exact reject_inv nofun (h.storage.congr rfl rfl rfl) (h.window.congr rfl rfl) (Unseen.supersede_extents h.extents)
  | badCmd _ => exact reject_inv nofun h.storage h.window h.extents

/-! ## What the outside can do besides -/

/-- What no access of the outside changes, the write to CMD and reset left out: the build, the engine and the window;
how the last command ended; and, while one runs, its arguments. DONE may be cleared, and the host may see a command
complete. -/
structure HostFrame (s t : State) : Prop where
  hw       : t.hw = s.hw
  eng      : t.eng = s.eng
  win      : t.win = s.win
  busy     : t.regs.busy = s.regs.busy
  err      : t.regs.err = s.regs.err
  outCount : t.regs.outCount = s.regs.outCount
  done     : t.regs.done = true → s.regs.done = true
  args     : s.regs.busy = true → SameArgs s t ∧ t.place = s.place
  unseen   : ∃ b, t.unseen = s.unseen.seeIf b
  storage  : StorageOk s → StorageOk t

theorem HostFrame.statusOk {s t : State} (f : HostFrame s t) (h : Inv s) : StatusOk t := by
  obtain ⟨b, hunseen⟩ := f.unseen
  exact
    { busy := by rw [f.busy, f.eng]; exact h.busy
      notBoth := fun ⟨hb, hd⟩ => h.notBoth ⟨f.busy ▸ hb, f.done hd⟩
      noErr := by rw [f.busy, f.err]; exact h.noErr
      legal := fun hb => by
        have hb : s.regs.busy = true := f.busy ▸ hb
        rw [State.legal_eq (f.args hb).1.cfg f.hw, h.legal hb]
      placed := fun hb => by
        have hb : s.regs.busy = true := f.busy ▸ hb
        obtain ⟨hargs, hplace⟩ := f.args hb
        rw [State.misplaced_eq hplace hargs.srcLen hargs.dstCap, h.placed hb]
      wrote := fun w hw => by
        have hlast : s.unseen.last = some w := by
          rw [hunseen, Unseen.seeIf_last] at hw
          cases b <;> simp_all
        rw [f.busy, f.err, f.outCount]
        exact h.wrote w hlast
      extents := hunseen ▸ Unseen.seeIf_extents b h.extents }

theorem HostFrame.inv {s t : State} (h : Inv s) (f : HostFrame s t) : Inv t := by
  refine inv_iff.2 ⟨f.storage h.storage, h.window.congr f.hw f.win, f.statusOk h, ?_⟩
  by_cases hp : s.eng.phase = .idle
  · exact phaseOk_of_idle (by rw [f.eng, hp])
  · exact h.phase.congr (f.args (h.busy.2 hp)).1 f.win f.eng

/-- What a read leaves: its data, perhaps a draw, and perhaps a command seen complete. -/
theorem hostFrame_read (s : State) (o : Outside) (b : Bool) (d : Nat) :
    HostFrame s { s with host := o, unseen := s.unseen.seeIf b, draws := d } :=
  ⟨rfl, rfl, rfl, rfl, rfl, rfl, id, fun _ => ⟨SameArgs.of_regs rfl rfl, rfl⟩, ⟨b, rfl⟩, fun h => h.congr rfl rfl rfl⟩

theorem HostFrame.refl (s : State) : HostFrame s s := hostFrame_read s s.host false s.draws

/-- A change of the arguments while BUSY = 0. -/
theorem hostFrame_args {s : State} (hb : s.regs.busy = false) (cfg : Cfg) (n cap : Word) (p : Placement) :
    HostFrame s { s with regs.cfg := cfg, regs.srcLen := n, regs.dstCap := cap, place := p } :=
  ⟨rfl, rfl, rfl, rfl, rfl, rfl, id, by simp [hb], ⟨false, rfl⟩, fun h => h.congr rfl rfl rfl⟩

/-- A byte stored in a buffer changes only what the buffers hold. -/
theorem hostFrame_store {s : State} {m : Memory} {d : Dest}
    (h : StorageOk s → StorageOk { s with src := m, dst := d }) :
    HostFrame s { s with src := m, dst := d } :=
  ⟨rfl, rfl, rfl, rfl, rfl, rfl, id, fun _ => ⟨SameArgs.of_regs rfl rfl, rfl⟩, ⟨false, rfl⟩, h⟩

theorem hostFrame_putDst (i : Nat) (v : Byte) (s : State) : HostFrame s (s.putDst i v) :=
  hostFrame_store fun h => h.putDst i v

theorem hostFrame_putSrc (i : Nat) (v : Byte) (s : State) : HostFrame s (s.putSrc i v) := by
  rw [putSrc_eq]
  refine hostFrame_store fun h => ?_
  rw [← putSrc_eq]
  exact h.putSrc i v

/-! ### The registers -/

/-- A write to a register runs a command word or changes what the host may change. -/
theorem writeReg_cases {r : Reg} {v : Word} {s t : State} (h : writeReg r v s = .next t) :
    HostFrame s t ∨ CommandOutcome s t := by
  have hsame (h : Host.Outcome.next s = (.next t : Out)) : HostFrame s t := Host.Outcome.next.inj h ▸ HostFrame.refl s
  cases r with
  | cmd => exact .inr (execWord_outcome h)
  | cfg =>
    refine .inl ?_
    obtain rfl | ⟨hb, h⟩ := unlessBusy_next h
    · exact HostFrame.refl t
    · exact Host.Outcome.next.inj h ▸ hostFrame_args hb (Cfg.ofWord v) s.regs.srcLen s.regs.dstCap s.place
  | srcLen =>
    refine .inl ?_
    obtain rfl | ⟨hb, h⟩ := unlessBusy_next h
    · exact HostFrame.refl t
    · exact Host.Outcome.next.inj h ▸ hostFrame_args hb s.regs.cfg v s.regs.dstCap s.place
  | dstCap =>
    refine .inl ?_
    obtain rfl | ⟨hb, h⟩ := unlessBusy_next h
    · exact HostFrame.refl t
    · exact Host.Outcome.next.inj h ▸ hostFrame_args hb s.regs.cfg s.regs.srcLen v s.place
  | status =>
    refine .inl ?_
    simp only [writeReg] at h
    split at h
    · obtain rfl := Host.Outcome.next.inj h
      exact ⟨rfl, rfl, rfl, rfl, rfl, rfl, nofun, fun _ => ⟨⟨rfl, rfl, rfl, rfl⟩, rfl⟩, ⟨false, rfl⟩,
        fun h => h.congr rfl rfl rfl⟩
    · exact hsame h
  | ctrl =>
    obtain rfl := Host.Outcome.next.inj h
    exact .inl ⟨rfl, rfl, rfl, rfl, rfl, rfl, id, fun _ => ⟨⟨rfl, rfl, rfl, rfl⟩, rfl⟩, ⟨_, rfl⟩,
      fun h => h.congr rfl rfl rfl⟩
  | outCount => exact .inl (hsame h)
  | srcUsed => exact .inl (hsame h)
  | caps => exact .inl (hsame h)
  | reserved => exact .inl (hsame h)

theorem hostFrame_returnData (v : Word) (s : State) : HostFrame s (returnData v s) :=
  hostFrame_read s { s.host with rdata := v } false s.draws

theorem hostFrame_readStatus (s : State) : HostFrame s (readStatus s) :=
  hostFrame_read s { s.host with rdata := statusWord s.regs } s.regs.done s.draws

/-- A read of OUT_COUNT or SRC_USED returns a free value while the results are hidden (20_memory R63). -/
theorem hostFrame_readResult (v : Word) (s : State) :
    HostFrame s (if s.hidesResults then returnFree s else returnData v s) := by
  split
  · exact hostFrame_read s { s.host with rdata := Config.freeWord s.draws } false (s.draws + 1)
  · exact hostFrame_returnData v s

theorem hostFrame_readReg (r : Reg) (s : State) : HostFrame s (readReg r s) := by
  cases r with
  | cfg => exact hostFrame_returnData _ s
  | srcLen => exact hostFrame_returnData _ s
  | dstCap => exact hostFrame_returnData _ s
  | cmd => exact hostFrame_returnData _ s
  | status => exact hostFrame_readStatus s
  | outCount => exact hostFrame_readResult _ s
  | srcUsed => exact hostFrame_readResult _ s
  | ctrl => exact hostFrame_returnData _ s
  | caps => exact hostFrame_returnData _ s
  | reserved => exact hostFrame_returnData _ s

theorem hostFrame_busRead (off : BitVec 6) (width : Width) (s : State) : HostFrame s (busRead off width s) := by
  unfold busRead
  split
  · exact hostFrame_readReg _ s
  · exact hostFrame_returnData _ s

theorem hostFrame_readDst (i : Nat) (s : State) : HostFrame s (readDst i s) := by
  unfold readDst
  split
  · exact hostFrame_read s { s.host with rdata := (Config.freeDst s.draws i).setWidth 32 } false (s.draws + 1)
  · exact hostFrame_returnData _ s

/-! ### Reset -/

theorem applyReset_inv {s : State} (h : Inv s) : Inv (applyReset s) := by
  refine inv_iff.2 ⟨?_, windowOk_of_empty rfl, ?_, phaseOk_of_idle rfl⟩
  · unfold applyReset
    split
    · exact h.storage.loseDst.congr rfl rfl rfl
    · exact h.storage.congr rfl rfl rfl
  · exact .of_idle rfl rfl (fun _ hw => by simp [applyReset] at hw) (Unseen.supersede_extents h.extents)

theorem applyReset_hw (s : State) : (applyReset s).hw = s.hw := by
  unfold applyReset
  split <;> rfl

/-! ## Every step -/

/-- What a step does with the next input, and with none: the outside changes what it may, a word is written to CMD, the
engine takes its turn, or the core is reset. -/
inductive StepOutcome (s : State) : State → Prop
  | host {t : State} : HostFrame s t → StepOutcome s t
  | command {t : State} : CommandOutcome s t → StepOutcome s t
  | engine {u t : State} : HostFrame s u → EngineOutcome u t → StepOutcome s t
  | reset : StepOutcome s (applyReset s)

theorem StepOutcome.hw {s t : State} (o : StepOutcome s t) : t.hw = s.hw := by
  cases o with
  | host f => exact f.hw
  | command o => exact o.hw
  | engine f o => exact o.hw.trans f.hw
  | reset => exact applyReset_hw s

theorem StepOutcome.inv {s t : State} (h : Inv s) (o : StepOutcome s t) : Inv t := by
  cases o with
  | host f => exact f.inv h
  | command o => exact o.inv h
  | engine f o => exact o.inv (f.inv h)
  | reset => exact applyReset_inv h

theorem unlessRunning_next {s t : State} {o : Out} (h : unlessRunning s o = .next t) :
    s.regs.busy = false ∧ o = .next t := by
  unfold unlessRunning at h
  split at h
  · cases h
  · exact ⟨Bool.eq_false_of_not_eq_true ‹_›, h⟩

theorem bufferAccess_next {s t : State} {o : Out} (h : bufferAccess s o = .next t) :
    s.place.plain = true ∧ o = .next t := by
  unfold bufferAccess at h
  split at h
  · exact ⟨‹_›, h⟩
  · cases h

theorem hostStep_outcome {i : Input} {s t : State} (h : hostStep i s = .next t) : StepOutcome s t := by
  have hhost {u : State} (f : HostFrame s u) (h : .next u = (.next t : Out)) : StepOutcome s t :=
    .host (Host.Outcome.next.inj h ▸ f)
  cases i with
  | engine => exact .engine (HostFrame.refl s) (engineStep_outcome h)
  | write off width v =>
    simp only [hostStep, busWrite] at h
    split at h
    · exact (writeReg_cases h).elim .host .command
    · exact hhost (HostFrame.refl s) h
  | read off width => exact hhost (hostFrame_busRead off width s) h
  | srcWrite index b => exact hhost (hostFrame_putSrc _ b s) (bufferAccess_next (unlessRunning_next h).2).2
  | dstWrite index b => exact hhost (hostFrame_putDst _ b s) (bufferAccess_next (unlessRunning_next h).2).2
  | dstRead index => exact hhost (hostFrame_readDst _ s) (bufferAccess_next h).2
  | bind p =>
    obtain ⟨hb, h⟩ := unlessRunning_next h
    exact hhost (hostFrame_args hb s.regs.cfg s.regs.srcLen s.regs.dstCap p) h
  | waitDone =>
    simp only [hostStep] at h
    split at h
    · exact hhost (hostFrame_readStatus s) h
    · exact .engine (hostFrame_read s _ s.regs.done s.draws) (engineStep_outcome h)
  | waitIrq =>
    simp only [hostStep] at h
    split at h
    · exact hhost (HostFrame.refl s) h
    · exact .engine (hostFrame_read s _ false s.draws) (engineStep_outcome h)
  | reset => exact Host.Outcome.next.inj h ▸ .reset

/-- An input taken off the list changes nothing the invariant speaks of. -/
theorem step_outcome {s t : State} (h : step s = .next t) :
    ∃ inputs, StepOutcome { s with host.inputs := inputs } t := by
  unfold step at h
  split at h
  · exact ⟨s.host.inputs, .engine (HostFrame.refl s) (engineStep_outcome h)⟩
  · exact ⟨_, hostStep_outcome h⟩

end Sys2Proof.Machine
end

section
open Sys2Proof.Machine

/-- Settles O52: whatever a step does keeps the invariant in each of its four parts. -/
theorem stepKeepsInvariant : Obligations.StepKeepsInvariant := by
  intro s t h
  obtain ⟨inputs, o⟩ := step_outcome h
  exact ⟨fun hi => o.inv ((hostFrame_read s _ false s.draws).inv hi), o.hw⟩

end

section
/-! PROOFS. 10_state R33 to R38: the counters of a running command in their registers' widths. -/

namespace Sys2Proof.Machine

theorem Inv.encoderOk {s : State} (h : Inv s) (hp : s.eng.phase ≠ .idle) (hi : s.eng.phase ≠ .init)
    (hc : s.eng.cur = .compress) : EncoderOk s := by
  have hphase := h.phase
  have hnot (d : DecoderOk s) : EncoderOk s := by simp [d.cur] at hc
  unfold PhaseOk at hphase
  split at hphase
  case h_1 he => exact absurd he hp
  case h_2 he => exact absurd he hi
  case h_3 => exact hphase
  case h_4 => exact hphase.1
  case h_5 => exact hphase.1
  case h_6 => exact hnot hphase
  case h_7 => exact hnot hphase.1
  case h_8 => exact hnot hphase.1
  case h_9 => exact hnot hphase.1

theorem Inv.decoderOk {s : State} (h : Inv s) (hp : s.eng.phase ≠ .idle) (hi : s.eng.phase ≠ .init)
    (hc : s.eng.cur = .decompress) : DecoderOk s := by
  have hphase := h.phase
  have hnot (e : EncoderOk s) : DecoderOk s := by simp [e.cur] at hc
  unfold PhaseOk at hphase
  split at hphase
  case h_1 he => exact absurd he hp
  case h_2 he => exact absurd he hi
  case h_3 => exact hnot hphase
  case h_4 => exact hnot hphase.1
  case h_5 => exact hnot hphase.1
  case h_6 => exact hphase
  case h_7 => exact hphase.1
  case h_8 => exact hphase.1
  case h_9 => exact hphase.1

/-- WCUR lies below N in every phase after INIT. -/
theorem Inv.cursor_lt {s : State} (h : Inv s) (hp : s.eng.phase ≠ .idle) (hi : s.eng.phase ≠ .init) :
    s.win.cur < s.n := by
  cases hc : s.eng.cur with
  | compress => exact (h.encoderOk hp hi hc).cursor
  | decompress => exact (h.decoderOk hp hi hc).cursor

theorem EncoderOk.counters_lt {s : State} (h : EncoderOk s) : s.eng.pos < 2 ^ 32 ∧ s.eng.obits < 2 ^ 35 := by
  have hpos := h.pos
  have hstored := h.writer.stored
  have := s.regs.srcLen.isLt
  have := s.regs.dstCap.isLt
  omega

theorem DecoderOk.counters_lt {s : State} (h : DecoderOk s) : s.eng.outn < 2 ^ 32 ∧ s.eng.ibits < 2 ^ 35 := by
  have houtn := h.outn
  have hibits := h.ibits
  have := s.regs.srcLen.isLt
  have := s.regs.dstCap.isLt
  omega

/-- An offset of 1..N fits the EI_MAX + 1 bits of BEST_OFF and TOK_OFF. -/
theorem State.offset_lt {s : State} {off : Nat} (hl : s.legal = true) (h : off ≤ s.n) :
    off < 2 ^ (s.hw.eiMax + 1) :=
  Nat.lt_of_le_of_lt (h.trans (State.n_le hl)) (Nat.pow_lt_pow_right (by decide) (Nat.lt_succ_self _))

end Sys2Proof.Machine

open Sys2Proof.Machine

/-- Settles O54: each phase's part of the invariant bounds its counters, the legal parameter set the rest. -/
theorem countersFitTheirRegisters : Obligations.CountersFitTheirRegisters := by
  intro s h hb hinit
  have hidle : s.eng.phase ≠ .idle := h.busy.1 hb
  have hl : s.legal = true := h.legal hb
  refine ⟨Nat.lt_of_lt_of_le (h.cursor_lt hidle hinit) (State.n_le hl),
    fun hc => (h.encoderOk hidle hinit hc).counters_lt, fun hp => ?_,
    fun hc => (h.decoderOk hidle hinit hc).counters_lt, fun hp => ?_⟩
  · obtain ⟨-, hfound⟩ : EncoderOk s ∧ FoundOk s := by simpa [PhaseOk, hp] using h.phase
    refine ⟨?_, fun hle => State.offset_lt hl ((hfound.off hle).2.trans (Nat.min_le_left _ _))⟩
    exact Nat.lt_of_le_of_lt (hfound.len.trans (matchCap_le_lmax _ _ _)) (State.lmax_lt hl)
  · obtain ⟨-, hmatch⟩ : DecoderOk s ∧ MatchOk s := by simpa [PhaseOk, hp] using h.phase
    have hlen : s.eng.tokLen < 2 ^ (9 + s.hw.ejMax) := Nat.lt_of_le_of_lt hmatch.len.2 (State.lmax_lt hl)
    exact ⟨State.offset_lt hl hmatch.off.2, hlen, Nat.lt_of_le_of_lt hmatch.copy hlen⟩

end

section
/-! PROOFS. The register layouts (10_state R21, R25, R29) and the state after reset (R41). -/

namespace Sys2Proof.Machine

/-! ## CFG -/

/-- A reserved bit of CFG reads 0, every other as written. -/
theorem Cfg.word_ofWord (v : Word) : (Cfg.ofWord v).word = v &&& 0x01FF1F1F#32 := by
  apply BitVec.eq_of_getLsbD_eq
  intro i hi
  simp only [Cfg.word, Cfg.ofWord, BitVec.getLsbD_append, BitVec.getLsbD_extractLsb', BitVec.getLsbD_and]
  interval_cases i <;> simp

/-! ## STATUS -/

theorem statusWord_getLsbD (r : Regs) (i : Nat) :
    (statusWord r).getLsbD i =
      if i < 1 then (BitVec.ofBool r.busy).getLsbD i
      else if i - 1 < 1 then (BitVec.ofBool r.done).getLsbD (i - 1)
      else if i - 1 - 1 < 6 then false
      else if i - 1 - 1 - 6 < 4 then r.err.code.getLsbD (i - 1 - 1 - 6)
      else false := by
  simp only [statusWord, BitVec.getLsbD_append, BitVec.getLsbD_zero]

theorem statusWord_err (r : Regs) : (statusWord r).extractLsb' 8 4 = r.err.code := by
  apply BitVec.eq_of_getLsbD_eq
  intro i hi
  simp only [BitVec.getLsbD_extractLsb', statusWord_getLsbD]
  interval_cases i <;> simp

theorem statusWord_reserved (r : Regs) {i : Nat} (h : (2 ≤ i ∧ i < 8) ∨ 12 ≤ i) :
    (statusWord r).getLsbD i = false := by
  rw [statusWord_getLsbD, if_neg (by omega), if_neg (by omega)]
  split
  · rfl
  · rw [if_neg (by omega)]

/-! ## CAPS -/

theorem capsWord_getLsbD (h : Hardware) (i : Nat) :
    (capsWord h).getLsbD i =
      if i < 5 then (BitVec.ofNat 5 h.eiMax).getLsbD i
      else if i - 5 < 3 then false
      else if i - 5 - 3 < 5 then (BitVec.ofNat 5 h.ejMax).getLsbD (i - 5 - 3)
      else if i - 5 - 3 - 5 < 3 then false
      else if i - 5 - 3 - 5 - 3 < 1 then (BitVec.ofBool (h.order == .msb)).getLsbD (i - 5 - 3 - 5 - 3)
      else if i - 5 - 3 - 5 - 3 - 1 < 7 then false
      else h.fill.getLsbD (i - 5 - 3 - 5 - 3 - 1 - 7) := by
  simp only [capsWord, BitVec.getLsbD_append, BitVec.getLsbD_zero]

theorem capsWord_eiMax (h : Hardware) : (capsWord h).extractLsb' 0 5 = BitVec.ofNat 5 h.eiMax := by
  apply BitVec.eq_of_getLsbD_eq
  intro i hi
  simp only [BitVec.getLsbD_extractLsb', capsWord_getLsbD]
  interval_cases i <;> simp

theorem capsWord_ejMax (h : Hardware) : (capsWord h).extractLsb' 8 5 = BitVec.ofNat 5 h.ejMax := by
  apply BitVec.eq_of_getLsbD_eq
  intro i hi
  simp only [BitVec.getLsbD_extractLsb', capsWord_getLsbD]
  interval_cases i <;> simp

theorem capsWord_fill (h : Hardware) : (capsWord h).extractLsb' 24 8 = h.fill := by
  apply BitVec.eq_of_getLsbD_eq
  intro i hi
  simp only [BitVec.getLsbD_extractLsb', capsWord_getLsbD]
  interval_cases i <;> simp

theorem capsWord_reserved (h : Hardware) {i : Nat}
    (hi : (5 ≤ i ∧ i < 8) ∨ (13 ≤ i ∧ i < 16) ∨ (17 ≤ i ∧ i < 24)) : (capsWord h).getLsbD i = false := by
  rw [capsWord_getLsbD]
  obtain ⟨h1, h2⟩ | ⟨h1, h2⟩ | ⟨h1, h2⟩ := hi <;> interval_cases i <;> rfl

theorem Hardware.legal_le {h : Hardware} (hl : h.legal = true) : h.eiMax ≤ 31 ∧ h.ejMax ≤ 31 := by
  simp only [Hardware.legal, Bool.and_eq_true, decide_eq_true_eq] at hl
  omega

end Sys2Proof.Machine

open Sys2Proof.Machine

/-- Settles O39: the read-back bit by bit, and each field a slice of the word written. -/
theorem cfgReadsBackAsWritten : Obligations.CfgReadsBackAsWritten := by
  intro v
  refine ⟨Cfg.word_ofWord v, ?_, ?_, ?_, rfl⟩ <;>
    simp [Cfg.ofWord, BitVec.extractLsb'_toNat, Nat.shiftRight_eq_div_pow]

/-- Settles O40: the two words bit by bit; a legal build's EI_MAX and EJ_MAX fit their 5 bits. -/
theorem statusAndCapsLayout : Obligations.StatusAndCapsLayout := by
  refine ⟨fun r => ?_, rfl, rfl, rfl, rfl, rfl, rfl, rfl, fun h hl => ?_, by decide⟩
  · exact ⟨by rw [statusWord_getLsbD]; simp, by rw [statusWord_getLsbD]; simp, statusWord_err r,
      fun i hi => statusWord_reserved r hi⟩
  · obtain ⟨hei, hej⟩ := Hardware.legal_le hl
    refine ⟨?_, ?_, ?_, capsWord_fill h, fun i hi => capsWord_reserved h hi⟩
    · rw [capsWord_eiMax, BitVec.toNat_ofNat, Nat.mod_eq_of_lt (by omega)]
    · rw [capsWord_ejMax, BitVec.toNat_ofNat, Nat.mod_eq_of_lt (by omega)]
    · rw [capsWord_getLsbD]
      simp

/-- Settles O49, by evaluation of the reset state. -/
theorem resetValues : Obligations.ResetValues :=
  ⟨by decide, rfl, rfl, by decide, rfl, rfl, rfl, by decide, rfl, rfl, rfl, by decide, rfl⟩

/-- Settles O51: no command runs after reset, and nothing is stored. -/
theorem resetSatisfiesInvariant : Obligations.ResetSatisfiesInvariant :=
  inv_iff.2 ⟨⟨by decide, rfl, rfl, rfl⟩, windowOk_of_empty rfl, .of_idle rfl rfl nofun nofun, phaseOk_of_idle rfl⟩

end

section
/-! PROOFS. 20_memory R51, R57: which accesses reach a register. -/

namespace Sys2Proof.Machine

theorem accessReg_eq_none {off : BitVec 6} {width : Width} (h : width ≠ .word ∨ off.toNat % 4 ≠ 0) :
    accessReg off width = none :=
  if_neg fun ⟨hw, ho⟩ => h.elim (· hw) (· ho)

theorem accessReg_eq_cmd {off : BitVec 6} {width : Width} (h : accessReg off width = some .cmd) :
    off = 0x0C#6 ∧ width = .word := by
  cases width with
  | word =>
    revert off
    decide
  | byte | half => cases h

end Sys2Proof.Machine

open Sys2Proof.Machine

/-- Settles O38: no register is accessed. -/
theorem narrowAndMisalignedAccesses : Obligations.NarrowAndMisalignedAccesses := by
  intro s off width v rest h
  have hnone := accessReg_eq_none h
  exact ⟨fun hi => by simp [step, hi, hostStep, busWrite, hnone],
    fun hi => by simp [step, hi, hostStep, busRead, hnone, returnData]⟩

end

section
/-! PROOFS. 20_memory R52, R61, writes: while a command runs no step changes SRC, the placement, or DST at DST_CAP and
above, whatever the state. -/

namespace Sys2Proof.Machine

/-- Nothing is written but DST below DST_CAP. -/
structure WritesInside (s t : State) : Prop where
  src      : t.src = s.src
  place    : t.place = s.place
  dstAbove : ∀ a, s.regs.dstCap.toNat ≤ a → t.dst.read a = s.dst.read a

theorem writesInside_of_dst {s t : State} (hsrc : t.src = s.src) (hplace : t.place = s.place) (hdst : t.dst = s.dst) :
    WritesInside s t :=
  ⟨hsrc, hplace, fun a _ => by rw [hdst]⟩

theorem WritesInside.refl (s : State) : WritesInside s s := writesInside_of_dst rfl rfl rfl

theorem EngineFrame.writesInside {s t : State} (f : EngineFrame s t) : WritesInside s t := ⟨f.src, f.place, f.dstAbove⟩

/-- A command that ends leaves what a failed one must (60_exceptions R244). -/
theorem EngineOutcome.writesInside {s t : State} (o : EngineOutcome s t) : WritesInside s t := by
  cases o with
  | waits _ => exact WritesInside.refl s
  | goesOn hg => exact hg.frame.writesInside
  | aborted _ f => exact ⟨f.src, f.place, abort_read _ f.regs f.dstAbove⟩
  | succeeded f => exact ⟨f.src, f.place, f.dstAbove⟩

theorem CommandOutcome.writesInside {s t : State} (o : CommandOutcome s t) : WritesInside s t := by
  cases o <;> exact writesInside_of_dst rfl rfl rfl

/-- A write to any register but CMD changes host registers, ERR not among them, and what the host has seen. -/
theorem writeReg_of_ne_cmd {r : Reg} (hr : r ≠ .cmd) (v : Word) (s : State) :
    ∃ regs u, writeReg r v s = .next { s with regs := regs, unseen := u } ∧ regs.err = s.regs.err := by
  cases r with
  | cmd => exact absurd rfl hr
  | cfg | srcLen | dstCap | status =>
    simp only [writeReg]
    split <;> exact ⟨_, _, rfl, rfl⟩
  | ctrl | outCount | srcUsed | caps | reserved => exact ⟨_, _, rfl, rfl⟩

/-- Everything a read of a register can do: it returns data, may draw a free value, and may show a command complete. -/
theorem readReg_eq (r : Reg) (s : State) :
    readReg r s =
      { s with host := (readReg r s).host, unseen := (readReg r s).unseen, draws := (readReg r s).draws } := by
  cases r with
  | outCount | srcUsed =>
    simp only [readReg]
    split <;> rfl
  | _ => rfl

theorem writeReg_writesInside {r : Reg} {v : Word} {s t : State} (h : writeReg r v s = .next t) : WritesInside s t := by
  by_cases hr : r = .cmd
  · subst hr
    exact (execWord_outcome h).writesInside
  · obtain ⟨regs, u, hw, -⟩ := writeReg_of_ne_cmd hr v s
    obtain rfl := Host.Outcome.next.inj (hw.symm.trans h)
    exact writesInside_of_dst rfl rfl rfl

theorem busRead_writesInside (off : BitVec 6) (width : Width) (s : State) : WritesInside s (busRead off width s) := by
  unfold busRead
  split
  · rw [readReg_eq]
    exact writesInside_of_dst rfl rfl rfl
  · exact writesInside_of_dst rfl rfl rfl

/-- The DST bytes a reset loses with the command it abandons lie below DST_CAP (70_reset R271). -/
theorem applyReset_writesInside (s : State) : WritesInside s (applyReset s) := by
  unfold applyReset
  split
  · refine ⟨rfl, rfl, fun a ha => ?_⟩
    exact (State.loseDst_read s a).trans (if_neg (Nat.not_lt.2 ha))
  · exact writesInside_of_dst rfl rfl rfl

/-- While BUSY = 1 a store in a buffer and a bind have no next state (70_reset R283; log entries 11 and 12). -/
theorem hostStep_writesInside {i : Input} {s t : State} (hb : s.regs.busy = true) (h : hostStep i s = .next t) :
    WritesInside s t := by
  have hrefused {o : Out} (h : unlessRunning s o = .next t) : WritesInside s t :=
    absurd hb (by simp [(unlessRunning_next h).1])
  cases i with
  | engine => exact (engineStep_outcome h).writesInside
  | write off width v =>
    simp only [hostStep, busWrite] at h
    split at h
    · exact writeReg_writesInside h
    · exact Host.Outcome.next.inj h ▸ WritesInside.refl s
  | read off width => exact Host.Outcome.next.inj h ▸ busRead_writesInside off width s
  | srcWrite index b => exact hrefused h
  | dstWrite index b => exact hrefused h
  | bind p => exact hrefused h
  | dstRead index =>
    obtain ⟨-, h⟩ := bufferAccess_next h
    exact Host.Outcome.next.inj h ▸ writesInside_of_dst (readDst_src _ s) (readDst_place _ s) (readDst_dst _ s)
  | waitDone =>
    simp only [hostStep] at h
    split at h
    · exact Host.Outcome.next.inj h ▸ writesInside_of_dst rfl rfl rfl
    · obtain ⟨hsrc, hplace, hdst⟩ := (engineStep_outcome h).writesInside
      exact ⟨hsrc, hplace, hdst⟩
  | waitIrq =>
    simp only [hostStep] at h
    split at h
    · exact Host.Outcome.next.inj h ▸ WritesInside.refl s
    · obtain ⟨hsrc, hplace, hdst⟩ := (engineStep_outcome h).writesInside
      exact ⟨hsrc, hplace, hdst⟩
  | reset => exact Host.Outcome.next.inj h ▸ applyReset_writesInside s

theorem step_writesInside {s t : State} (hb : s.regs.busy = true) (h : step s = .next t) : WritesInside s t := by
  unfold step at h
  split at h
  case h_1 => exact (engineStep_outcome h).writesInside
  case h_2 i rest _ =>
    obtain ⟨hsrc, hplace, hdst⟩ := hostStep_writesInside (s := { s with host.inputs := rest }) hb h
    exact ⟨hsrc, hplace, hdst⟩

end Sys2Proof.Machine

open Sys2Proof.Machine

/-- Settles O43: the writes stay in DST below DST_CAP, where SRC[0..SRC_LEN) has no byte. -/
theorem writesStayInsideDst : Obligations.WritesStayInsideDst := by
  intro s t hb h
  obtain ⟨hsrc, hplace, hdst⟩ := step_writesInside hb h
  exact ⟨hsrc, hplace, hdst, fun ho _ hi => State.srcByte_kept hsrc hplace hdst ho hi⟩

end

section
/-! PROOFS. 20_memory R61, reads: the engine's operations commute with putting other bytes in SRC and the buffers
elsewhere, as long as the bytes of SRC[0..SRC_LEN) read the same. -/

namespace Sys2Proof.Machine

/-! ## What depends on SRC[0..SRC_LEN) alone -/

theorem commonPrefix_congr {f g : Nat → Byte} {a b cap : Nat}
    (h : ∀ k, k < cap → f (a + k) = g (a + k) ∧ f (b + k) = g (b + k)) :
    commonPrefix f a b cap = commonPrefix g a b cap := by
  induction cap generalizing a b with
  | zero => rfl
  | succ cap ih =>
    obtain ⟨ha, hb⟩ := h 0 (Nat.succ_pos cap)
    have hnext := ih (a := a + 1) (b := b + 1) fun k hk => by
      simpa only [Nat.add_assoc, Nat.add_comm 1] using h (k + 1) (Nat.succ_lt_succ hk)
    simp only [Nat.add_zero] at ha hb
    simp only [commonPrefix, ha, hb, hnext]

section
variable {f g : Nat → Byte} {n : Nat} (hfg : ∀ i, i < n → f i = g i)
include hfg

/-- No comparison runs past the input: CAP stops it (42_match R150). -/
theorem matchLength_congr (pr : Params) (pos off : Nat) : matchLength pr f n pos off = matchLength pr g n pos off := by
  have hcap : matchCap pr n pos ≤ n - pos := Nat.min_le_right _ _
  exact commonPrefix_congr fun k hk => ⟨hfg _ (by omega), hfg _ (by omega)⟩

theorem findMatch_congr (pr : Params) (pos : Nat) : findMatch pr f n pos = findMatch pr g n pos := by
  simp only [findMatch, funext fun off => matchLength_congr hfg pr pos off]

theorem chooseToken_congr (pr : Params) {pos : Nat} (best : Best) (hpos : pos < n) :
    chooseToken pr f pos best = chooseToken pr g pos best := by
  simp only [chooseToken, hfg pos hpos]

theorem greedyTokens_congr (pr : Params) (fuel pos : Nat) :
    greedyTokens pr f n fuel pos = greedyTokens pr g n fuel pos := by
  induction fuel generalizing pos with
  | zero => rfl
  | succ fuel ih =>
    simp only [greedyTokens, findMatch_congr hfg pr pos]
    split
    · rw [chooseToken_congr hfg pr _ ‹_›, ih]
    · rfl

theorem encodeBytes_congr (o : BitOrder) (pr : Params) (cap : Nat) :
    encodeBytes o pr f n cap = encodeBytes o pr g n cap := by
  unfold encodeBytes encodeStream
  rw [greedyTokens_congr hfg pr]

end

/-! ## Other bytes in SRC, and the buffers elsewhere -/

/-- The machine with other bytes of its own in SRC, and its buffers put elsewhere. -/
def State.rebind (m : Memory) (p : Placement) (s : State) : State := { s with src := m, place := p }

/-- A change of state carried through the outcome of a step. -/
def mapNext (f : State → State) : Out → Out
  | .next s => .next (f s)
  | .fault r => .fault r
  | .refused r => .refused r

/-- Changes of the value and of the state carried through an operation that may raise. -/
def mapRaise {α : Type} (f : State → State) (g : α → α) : Raise α → Raise α
  | .ok a => .ok (g a)
  | .error (code, s) => .error (code, f s)

theorem ite_eq_map {α β : Type} (f : α → β) {c : Prop} [Decidable c] {a b : α} {a' b' : β} (hthen : c → a' = f a)
    (helse : ¬ c → b' = f b) : (if c then a' else b') = f (if c then a else b) :=
  (ite_congr rfl hthen helse).trans (apply_ite f c a b).symm

/-- SRC[0..SRC_LEN) reads the same with the other bytes and in the other place. -/
def State.SameInput (m : Memory) (p : Placement) (s : State) : Prop :=
  ∀ i, i < s.regs.srcLen.toNat → (s.rebind m p).srcByte i = s.srcByte i

/-- Both placements are ones a command may run on, and SRC[0..SRC_LEN) reads the same in both. -/
structure Interchangeable (m : Memory) (p : Placement) (s : State) : Prop where
  here  : s.misplaced = none
  there : (s.rebind m p).misplaced = none
  input : s.SameInput m p

section
variable (m : Memory) (p : Placement)

@[simp] theorem rebind_hw (s : State) : (s.rebind m p).hw = s.hw := rfl
@[simp] theorem rebind_regs (s : State) : (s.rebind m p).regs = s.regs := rfl
@[simp] theorem rebind_eng (s : State) : (s.rebind m p).eng = s.eng := rfl
@[simp] theorem rebind_host (s : State) : (s.rebind m p).host = s.host := rfl
@[simp] theorem rebind_unseen (s : State) : (s.rebind m p).unseen = s.unseen := rfl
@[simp] theorem rebind_params (s : State) : (s.rebind m p).params = s.params := rfl

variable {m p}

theorem EngineFrame.rebind {s t : State} (f : EngineFrame s t) : EngineFrame (s.rebind m p) (t.rebind m p) :=
  { f with src := rfl, place := rfl }

theorem EngineFrame.srcByte {s t : State} (f : EngineFrame s t) (h : s.misplaced = none) {i : Nat}
    (hi : i < s.regs.srcLen.toNat) : t.srcByte i = s.srcByte i :=
  State.srcByte_kept f.src f.place f.dstAbove (State.misplaced_eq_none.1 h).2 hi

/-- What the engine writes leaves SRC[0..SRC_LEN) in both places. -/
theorem EngineFrame.sameInput {s t : State} (f : EngineFrame s t) (h : Interchangeable m p s) : t.SameInput m p := by
  intro i hi
  rw [f.regs] at hi
  rw [f.srcByte h.here hi, f.rebind.srcByte h.there hi, h.input i hi]

variable (m p)

/-! ## The writer -/

theorem storeByte_rebind (k : Nat) (v : Byte) (s : State) :
    storeByte k v (s.rebind m p) = mapRaise (State.rebind m p) (State.rebind m p) (storeByte k v s) := by
  unfold storeByte
  exact ite_eq_map _ (fun _ => rfl) fun _ => rfl

theorem storeFull_rebind (s : State) :
    storeFull (s.rebind m p) = mapRaise (State.rebind m p) (State.rebind m p) (storeFull s) := by
  unfold storeFull
  refine ite_eq_map _ (fun _ => ?_) fun _ => rfl
  rw [storeByte_rebind, rebind_eng]
  rcases storeByte (s.eng.obits / 8 - 1) s.eng.oacc s with ⟨code, u⟩ | u <;> rfl

theorem putBits_rebind (bits : List Bool) (s : State) :
    putBits bits (s.rebind m p) = mapRaise (State.rebind m p) (State.rebind m p) (putBits bits s) := by
  induction bits generalizing s with
  | nil => rfl
  | cons b bits ih =>
    have hput : putBit b (s.rebind m p) = mapRaise (State.rebind m p) (State.rebind m p) (putBit b s) :=
      storeFull_rebind m p (accBit b s)
    simp only [putBits, hput]
    cases putBit b s with
    | ok t => exact ih t
    | error e => rfl

theorem flush_rebind (s : State) :
    flush (s.rebind m p) = mapRaise (State.rebind m p) (State.rebind m p) (flush s) := by
  unfold flush
  exact ite_eq_map _ (fun _ => rfl) fun _ => storeByte_rebind m p _ _ s

/-! ## The copy -/

theorem winReadback_rebind (off : Nat) (s : State) :
    winReadback off (s.rebind m p) = mapRaise (State.rebind m p) id (winReadback off s) := by
  unfold winReadback
  exact ite_eq_map _ (fun _ => rfl) fun _ => rfl

theorem copyLoop_rebind (k : Nat) (s : State) :
    copyLoop k (s.rebind m p) = mapRaise (State.rebind m p) (State.rebind m p) (copyLoop k s) := by
  induction k generalizing s with
  | zero => rfl
  | succ k ih =>
    unfold copyLoop
    refine ite_eq_map _ (fun _ => ?_) fun _ => rfl
    rw [rebind_eng, winReadback_rebind]
    cases winReadback s.eng.tokOff s with
    | ok c => exact ih { emitByte c s with eng.copyK := s.eng.copyK + 1 }
    | error e => rfl

/-! ## How a phase ends -/

theorem settle_rebind (r : Raise State) :
    settle (mapRaise (State.rebind m p) (State.rebind m p) r) = mapNext (State.rebind m p) (settle r) := by
  rcases r with ⟨code, u⟩ | u <;> rfl

theorem engineFlush_rebind (s : State) :
    engineFlush (s.rebind m p) = mapNext (State.rebind m p) (engineFlush s) := by
  simp only [engineFlush, flush_rebind]
  rcases flush s with ⟨code, u⟩ | u <;> rfl

theorem engineCopy_rebind (s : State) : engineCopy (s.rebind m p) = mapNext (State.rebind m p) (engineCopy s) := by
  simp only [engineCopy, rebind_eng, copyLoop_rebind]
  rcases copyLoop (s.eng.tokLen - s.eng.copyK) s with ⟨code, u⟩ | u <;> rfl

theorem engineInit_rebind (s : State) : engineInit (s.rebind m p) = mapNext (State.rebind m p) (engineInit s) := by
  simp only [engineInit, rebind_eng]
  cases s.eng.cur <;> rfl

/-! ## Instructions -/

theorem execLit_rebind (c : Byte) (s : State) : execLit c (s.rebind m p) = mapNext (State.rebind m p) (execLit c s) := by
  unfold execLit
  exact ite_eq_map _ (fun _ => rfl) fun _ => rfl

theorem execMatchTok_rebind (off len : Nat) (s : State) :
    execMatchTok off len (s.rebind m p) = mapNext (State.rebind m p) (execMatchTok off len s) := by
  unfold execMatchTok
  exact ite_eq_map _ (fun _ => rfl) fun _ => ite_eq_map _ (fun _ => rfl) fun _ => rfl

theorem unlessBusy_busy {s : State} (hb : s.regs.busy = true) (o : Out) : unlessBusy s o = .next s := if_pos hb

/-- While BUSY = 1 only tokens act (44_host R211), and those read no SRC byte. -/
theorem exec_rebind (i : Instr) {s : State} (hb : s.regs.busy = true) :
    exec i (s.rebind m p) = mapNext (State.rebind m p) (exec i s) := by
  have hb' : (s.rebind m p).regs.busy = true := hb
  cases i with
  | lit c => exact execLit_rebind m p c s
  | matchTok off len => exact execMatchTok_rebind m p off len s
  | nop => simp only [exec, execNop, unlessBusy_busy hb, unlessBusy_busy hb', mapNext]
  | compress => simp only [exec, execCompress, unlessBusy_busy hb, unlessBusy_busy hb', mapNext]
  | decompress => simp only [exec, execDecompress, unlessBusy_busy hb, unlessBusy_busy hb', mapNext]
  | reserved w => simp only [exec, execReserved, unlessBusy_busy hb, unlessBusy_busy hb', mapNext]

/-! ## The reader -/

variable {m p}

theorem streamBits_rebind {s : State} (h : s.SameInput m p) {t w : Nat} (hw : t + w ≤ 8 * s.regs.srcLen.toNat) :
    (s.rebind m p).streamBits t w = s.streamBits t w := by
  refine List.map_congr_left fun i hi => ?_
  have hi := List.mem_range.1 hi
  simp only [State.streamBit, rebind_hw, h ((t + i) / 8) (by omega)]

theorem getBits_rebind {s : State} (h : s.SameInput m p) (w : Nat) :
    getBits w (s.rebind m p) = mapRaise (State.rebind m p) (Prod.map id (State.rebind m p)) (getBits w s) := by
  by_cases hw : s.eng.ibits + w ≤ 8 * s.regs.srcLen.toNat
  · rw [getBits_of_le hw, getBits_of_le (s := s.rebind m p) hw, rebind_eng, streamBits_rebind h hw]
    rfl
  · have hw := Nat.lt_of_not_le hw
    rw [getBits_of_gt hw, getBits_of_gt (s := s.rebind m p) hw]
    rfl

theorem getBits_ok {w : Nat} {bits : List Bool} {s t : State} (h : getBits w s = .ok (bits, t)) :
    t = { s with eng.ibits := s.eng.ibits + w } := by
  unfold getBits at h
  split at h
  · cases h
  · exact (Prod.mk.inj (Except.ok.inj h)).2.symm

theorem getFlag_rebind {s : State} (h : s.SameInput m p) :
    getFlag (s.rebind m p) = mapRaise (State.rebind m p) (Prod.map id (State.rebind m p)) (getFlag s) := by
  simp only [getFlag, getBits_rebind h]
  rcases getBits 1 s with ⟨code, u⟩ | ⟨bits, u⟩ <;> rfl

theorem getPayload_rebind {s : State} (h : s.SameInput m p) (flag : Bool) :
    getPayload flag (s.rebind m p) =
      mapRaise (State.rebind m p) (Prod.map id (State.rebind m p)) (getPayload flag s) := by
  cases flag with
  | true => exact getBits_rebind h 8
  | false =>
    simp only [getPayload, rebind_params, getBits_rebind h]
    rcases hoff : getBits s.params.ei s with ⟨code, u⟩ | ⟨offBits, u⟩
    · rfl
    · obtain rfl := getBits_ok hoff
      have hu : State.SameInput m p { s with eng.ibits := s.eng.ibits + s.params.ei } := h
      simp only [mapRaise, Prod.map, getBits_rebind hu]
      rcases getBits s.params.ej _ with ⟨code, v⟩ | ⟨lenBits, v⟩ <;> rfl

theorem fetchToken_rebind {s : State} (h : s.SameInput m p) (flag : Bool) :
    fetchToken flag (s.rebind m p) =
      mapRaise (State.rebind m p) (Prod.map id (State.rebind m p)) (fetchToken flag s) := by
  simp only [fetchToken, getPayload_rebind h, rebind_hw, rebind_params]
  rcases getPayload flag s with ⟨code, u⟩ | ⟨bits, u⟩
  · rfl
  · simp only [mapRaise, Prod.map, id_eq]
    rcases decodePayload s.hw.order s.params flag bits with e | ⟨i, rest⟩ <;> rfl

/-! ## The engine -/

theorem engineFlag_rebind {s : State} (h : s.SameInput m p) :
    engineFlag (s.rebind m p) = mapNext (State.rebind m p) (engineFlag s) := by
  simp only [engineFlag, rebind_eng, rebind_regs, getFlag_rebind h]
  split
  · rfl
  · rcases getFlag s with ⟨code, u⟩ | ⟨flag, u⟩ <;> rfl

theorem engineToken_rebind {s : State} (h : s.SameInput m p) (hb : s.regs.busy = true) (flag : Bool) :
    engineToken flag (s.rebind m p) = mapNext (State.rebind m p) (engineToken flag s) := by
  unfold engineToken
  rw [fetchToken_rebind h]
  by_cases hle : s.eng.ibits + payloadWidth s.params flag ≤ 8 * s.regs.srcLen.toNat
  · rw [fetchToken_ok flag s hle]
    exact exec_rebind m p _ hb
  · obtain ⟨b, hf⟩ := fetchToken_error flag s (Nat.lt_of_not_le hle)
    rw [hf]
    rfl

theorem engineFind_rebind {s : State} (h : s.SameInput m p) :
    engineFind (s.rebind m p) = mapNext (State.rebind m p) (engineFind s) := by
  simp only [engineFind, rebind_eng, rebind_regs, rebind_params, findMatch_congr h]
  split <;> rfl

/-- The window takes in the same bytes, where those consumed lie below SRC_LEN. -/
theorem winConsume_rebind {i k : Nat} {s : State} (h : s.SameInput m p) (hk : i + k ≤ s.regs.srcLen.toNat) :
    winConsume i k (s.rebind m p) = (winConsume i k s).rebind m p := by
  induction k generalizing i s with
  | zero => rfl
  | succ k ih =>
    have hnext : (winWrite (s.srcByte i) s).SameInput m p := h
    simp only [winConsume, h i (by omega)]
    exact ih hnext (by show i + 1 + k ≤ s.regs.srcLen.toNat; omega)

theorem emit_rebind {s : State} (h : Interchangeable m p s) (hpos : s.eng.pos < s.regs.srcLen.toNat)
    (hle : s.eng.pos + consumed s.params { len := s.eng.bestLen, off := s.eng.bestOff } ≤ s.regs.srcLen.toNat) :
    emit (s.rebind m p) = mapRaise (State.rebind m p) (State.rebind m p) (emit s) := by
  simp only [emit, rebind_hw, rebind_params, rebind_eng, chooseToken_congr h.input _ _ hpos, putBits_rebind]
  rcases hput : putBits _ s with ⟨code, u⟩ | u
  · rfl
  · have f := engineFrame_putBits hput
    have hconsume := winConsume_rebind (f.sameInput h) (by rw [f.regs]; exact hle)
    simp only [mapRaise, hconsume]
    rfl

theorem engineEmit_rebind {s : State} (h : Interchangeable m p s) (hpos : s.eng.pos < s.regs.srcLen.toNat) :
    engineEmit (s.rebind m p) = mapNext (State.rebind m p) (engineEmit s) := by
  unfold engineEmit
  refine ite_eq_map _ (fun hle => ?_) fun _ => rfl
  rw [emit_rebind h hpos hle, settle_rebind]

theorem engineStep_rebind {s : State} (h : Interchangeable m p s) (hi : Inv s) (hb : s.regs.busy = true) :
    engineStep (s.rebind m p) = mapNext (State.rebind m p) (engineStep s) := by
  unfold engineStep
  rw [rebind_eng]
  cases hp : s.eng.phase with
  | idle => rfl
  | init => exact engineInit_rebind m p s
  | cFind => exact engineFind_rebind h.input
  | cEmit =>
    obtain ⟨-, hfound⟩ : EncoderOk s ∧ FoundOk s := by simpa [PhaseOk, hp] using hi.phase
    exact engineEmit_rebind h hfound.more
  | cFlush => exact engineFlush_rebind m p s
  | dFlag => exact engineFlag_rebind h.input
  | dLit => exact engineToken_rebind h.input hb true
  | dMatch => exact engineToken_rebind h.input hb false
  | dCopy => exact engineCopy_rebind m p s

/-! ## The outside -/

theorem writeReg_rebind (r : Reg) (v : Word) {s : State} (hb : s.regs.busy = true) :
    writeReg r v (s.rebind m p) = mapNext (State.rebind m p) (writeReg r v s) := by
  cases r with
  | cmd => exact exec_rebind m p _ hb
  | status =>
    simp only [writeReg]
    split <;> rfl
  | cfg => simp only [writeReg, rebind_regs, hb, if_true, mapNext]
  | srcLen => simp only [writeReg, rebind_regs, hb, if_true, mapNext]
  | dstCap => simp only [writeReg, rebind_regs, hb, if_true, mapNext]
  | _ => rfl

theorem readReg_rebind (r : Reg) (s : State) : readReg r (s.rebind m p) = (readReg r s).rebind m p := by
  have hhides : (s.rebind m p).hidesResults = s.hidesResults := rfl
  cases r with
  | outCount =>
    simp only [readReg, hhides]
    split <;> rfl
  | srcUsed =>
    simp only [readReg, hhides]
    split <;> rfl
  | _ => rfl

theorem busRead_rebind (off : BitVec 6) (width : Width) (s : State) :
    busRead off width (s.rebind m p) = (busRead off width s).rebind m p := by
  unfold busRead
  split
  · exact readReg_rebind _ s
  · rfl

/-- Which bytes a running command writes follows from SRC[0..SRC_LEN) (42_match R160). -/
theorem hidesDst_rebind {s : State} (h : s.SameInput m p) (i : Nat) : (s.rebind m p).hidesDst i = s.hidesDst i := by
  simp only [State.hidesDst, State.writesDst, rebind_eng, rebind_hw, rebind_params, rebind_regs, rebind_unseen,
    encodeBytes_congr h]
  rfl

theorem readDst_rebind {s : State} (h : s.SameInput m p) (i : Nat) :
    readDst i (s.rebind m p) = (readDst i s).rebind m p := by
  simp only [readDst, hidesDst_rebind h]
  split <;> rfl

theorem applyReset_rebind (s : State) : applyReset (s.rebind m p) = (applyReset s).rebind m p := by
  cases hb : s.regs.busy <;> simp only [applyReset, rebind_regs, hb] <;> rfl

theorem hostStep_rebind (i : Input) {s : State} (h : Interchangeable m p s) (hi : Inv s) (hb : s.regs.busy = true) :
    hostStep i (s.rebind m p) = mapNext (State.rebind m p) (hostStep i s) := by
  obtain ⟨hhere, -⟩ := State.misplaced_eq_none.1 h.here
  obtain ⟨hthere, -⟩ := State.misplaced_eq_none.1 h.there
  cases i with
  | engine => exact engineStep_rebind h hi hb
  | write off width v =>
    simp only [hostStep, busWrite]
    split
    · exact writeReg_rebind _ v hb
    · rfl
  | read off width => exact congrArg _ (busRead_rebind off width s)
  | srcWrite index b => simp only [hostStep, unlessRunning, rebind_regs, hb, if_true, mapNext]
  | dstWrite index b => simp only [hostStep, unlessRunning, rebind_regs, hb, if_true, mapNext]
  | bind q => simp only [hostStep, unlessRunning, rebind_regs, hb, if_true, mapNext]
  | dstRead index =>
    simp only [hostStep, bufferAccess, hhere, hthere, if_true, readDst_rebind h.input, mapNext]
  | waitDone =>
    exact ite_eq_map _ (fun _ => rfl) fun _ =>
      engineStep_rebind (s := { readStatus s with host.inputs := .waitDone :: s.host.inputs })
        ⟨h.here, h.there, h.input⟩ ((hostFrame_read s _ s.regs.done s.draws).inv hi) hb
  | waitIrq =>
    exact ite_eq_map _ (fun _ => rfl) fun _ =>
      engineStep_rebind (s := { s with host.inputs := .waitIrq :: s.host.inputs })
        ⟨h.here, h.there, h.input⟩ ((hostFrame_read s _ false s.draws).inv hi) hb
  | reset => exact congrArg _ (applyReset_rebind s)

theorem step_rebind {s : State} (h : Interchangeable m p s) (hi : Inv s) (hb : s.regs.busy = true) :
    step (s.rebind m p) = mapNext (State.rebind m p) (step s) := by
  unfold step
  rw [rebind_host]
  split
  case h_1 => exact engineStep_rebind h hi hb
  case h_2 i rest _ =>
    exact hostStep_rebind i (s := { s with host.inputs := rest }) ⟨h.here, h.there, h.input⟩
      ((hostFrame_read s _ false s.draws).inv hi) hb

end

end Sys2Proof.Machine

open Sys2Proof.Machine

/-- Settles O44: a running command's step commutes with the change of SRC and of the placement. -/
theorem readsStayInsideSrc : Obligations.ReadsStayInsideSrc := by
  intro s t other elsewhere hi hb hthere hinput h
  have hstep := step_rebind (m := other) (p := elsewhere) ⟨hi.placed hb, hthere, hinput⟩ hi hb
  rw [h] at hstep
  exact hstep

end

section
/-! PROOFS. 20_memory R61: under the invariant nothing faults, ERR_BAD_OFFSET never arises, and a step is refused only
for the buffers' sake. -/

namespace Sys2Proof.Machine

/-- The outcomes allowed of a step from s: a next state with no new ERR_BAD_OFFSET, or a refusal for the reasons given. -/
def Allowed (refusal : Refusal → Prop) (s : State) : Out → Prop
  | .next t => t.regs.err = .badOffset → s.regs.err = .badOffset
  | .fault _ => False
  | .refused r => refusal r

theorem Allowed.mono {P Q : Refusal → Prop} {s : State} {o : Out} (hPQ : ∀ r, P r → Q r) (h : Allowed P s o) :
    Allowed Q s o := by
  cases o with
  | next t => exact h
  | fault r => exact h
  | refused r => exact hPQ r h

section
variable {P : Refusal → Prop} {s : State}

theorem allowed_of_regs {t : State} (h : t.regs = s.regs) : Allowed P s (.next t) :=
  fun herr => h ▸ herr

/-! ## The engine -/

/-- FIND leaves no match that runs past the input, so EMIT reads none of SRC at SRC_LEN and above (42_match R150, R157). -/
theorem FoundOk.emitCount_le (h : FoundOk s) : s.eng.pos + s.emitCount ≤ s.regs.srcLen.toNat := by
  have hmore := h.more
  have hlen : s.eng.bestLen ≤ s.regs.srcLen.toNat - s.eng.pos := h.len.trans (Nat.min_le_right _ _)
  unfold State.emitCount consumed
  split
  · show s.eng.pos + s.eng.bestLen ≤ _
    omega
  · omega

theorem settle_next (r : Raise State) : ∃ t, settle r = .next t := by
  rcases r with ⟨code, u⟩ | u <;> exact ⟨_, rfl⟩

theorem engineEmit_allowed (h : FoundOk s) : Allowed P s (engineEmit s) := by
  obtain ⟨t, ht⟩ : ∃ t, engineEmit s = .next t := by
    obtain ⟨t, ht⟩ := settle_next (emit s)
    exact ⟨t, (if_pos h.emitCount_le).trans ht⟩
  rw [ht]
  obtain ⟨-, ⟨u, hu, rfl⟩ | ⟨u, -, rfl⟩⟩ := engineEmit_next ht
  · exact allowed_of_regs ((engineFrame_putBits hu).trans (engineFrame_winConsume _ _ u)).regs
  · exact nofun

theorem engineFlush_allowed : Allowed P s (engineFlush s) := by
  unfold engineFlush
  split
  · rename_i he
    obtain rfl := flush_error he
    exact nofun
  · exact nofun

theorem engineFlag_allowed : Allowed P s (engineFlag s) := by
  unfold engineFlag
  split
  · exact nofun
  · obtain ⟨-, flag, hf⟩ | hf := getFlag_cases s <;> rw [hf]
    · exact allowed_of_regs rfl
    · exact nofun

theorem execLit_allowed (c : Byte) (h : s.eng.outn < s.regs.dstCap.toNat) : Allowed P s (execLit c s) := by
  unfold execLit
  rw [if_pos h]
  exact allowed_of_regs rfl

theorem execMatchTok_allowed {off : Nat} (len : Nat) (h1 : 1 ≤ off) (h2 : off ≤ s.n) :
    Allowed P s (execMatchTok off len s) := by
  have hoff : ¬ (off < 1 ∨ s.n < off) := by omega
  unfold execMatchTok
  dsimp only
  split
  · exact absurd ‹_› hoff
  split
  · exact nofun
  · exact allowed_of_regs rfl

/-- The offset field of EI bits gives 1..2^EI = 1..N, never an offset outside the window (30_encoding R77, 43_decoder
R188). -/
theorem engineToken_allowed (flag : Bool) (h : s.eng.outn < s.regs.dstCap.toNat) : Allowed P s (engineToken flag s) := by
  unfold engineToken
  by_cases hle : s.eng.ibits + payloadWidth s.params flag ≤ 8 * s.regs.srcLen.toNat
  · rw [fetchToken_ok flag s hle]
    cases flag with
    | true => exact execLit_allowed (s := { s with eng.ibits := _ }) _ h
    | false =>
      have hoff := fieldValue_lt s.hw.order (s.streamBits s.eng.ibits s.params.ei)
      rw [State.streamBits_length] at hoff
      exact execMatchTok_allowed (s := { s with eng.ibits := _ }) _ (Nat.succ_pos _) hoff
  · obtain ⟨b, hb⟩ := fetchToken_error flag s (Nat.lt_of_not_le hle)
    rw [hb]
    exact nofun

theorem engineCopy_allowed (h : MatchOk s) : Allowed P s (engineCopy s) := by
  obtain ⟨t, ht, -⟩ := copyLoop_ok (s.eng.tokLen - s.eng.copyK) s h.off.1 h.off.2
  unfold engineCopy
  rw [ht]
  exact allowed_of_regs (engineFrame_copyLoop ht).regs

theorem engineStep_allowed (hi : Inv s) : Allowed P s (engineStep s) := by
  have hphase := hi.phase
  unfold PhaseOk at hphase
  unfold engineStep
  cases hp : s.eng.phase <;> simp only [hp] at hphase
  case idle => exact id
  case init =>
    show Allowed P s (engineInit s)
    unfold engineInit
    split <;> exact allowed_of_regs rfl
  case cFind =>
    show Allowed P s (engineFind s)
    unfold engineFind
    split <;> exact allowed_of_regs rfl
  case cEmit => exact engineEmit_allowed hphase.2
  case cFlush => exact engineFlush_allowed
  case dFlag => exact engineFlag_allowed
  case dLit => exact engineToken_allowed true hphase.2
  case dMatch => exact engineToken_allowed false hphase.2
  case dCopy => exact engineCopy_allowed hphase.2

/-! ## Command words -/

theorem unlessBusy_allowed {o : Out} (h : s.regs.busy = false → Allowed P s o) : Allowed P s (unlessBusy s o) := by
  unfold unlessBusy
  split
  · exact id
  · exact h (Bool.eq_false_of_not_eq_true ‹_›)

theorem State.misplaced_eq_some {r : Refusal} (h : s.misplaced = some r) :
    (r = .deviceBuffer ∧ s.place.plain = false) ∨ (r = .bufferOverlap ∧ s.overlaps = true) := by
  unfold State.misplaced at h
  split_ifs at h with hplain hover
  · exact .inl ⟨(Option.some.inj h).symm, hplain⟩
  · exact .inr ⟨(Option.some.inj h).symm, hover⟩

theorem start_allowed (c : Command) (hdevice : s.place.plain = false → P .deviceBuffer)
    (hoverlap : s.overlaps = true → P .bufferOverlap) : Allowed P s (start c s) := by
  rw [start_eq]
  split
  · split
    · rename_i hr
      obtain ⟨rfl, h⟩ | ⟨rfl, h⟩ := State.misplaced_eq_some hr
      · exact hdevice h
      · exact hoverlap h
    · exact nofun
  · exact nofun

end

/-- Why an input may be refused. -/
inductive MayRefuse (s : State) : Input → Refusal → Prop
  | srcWrite {index : Word} {b : Byte} : s.regs.busy = true → MayRefuse s (.srcWrite index b) .bufferHazard
  | dstWrite {index : Word} {b : Byte} : s.regs.busy = true → MayRefuse s (.dstWrite index b) .bufferHazard
  | bind {p : Placement} : s.regs.busy = true → MayRefuse s (.bind p) .bufferHazard
  | overlap {v : Word} : v = 1#32 ∨ v = 2#32 → s.regs.busy = false → s.overlaps = true →
      MayRefuse s (.write 0x0C#6 .word v) .bufferOverlap
  | device {i : Input} : s.regs.busy = false → s.place.plain = false → MayRefuse s i .deviceBuffer

theorem execWord_allowed (v : Word) (s : State) :
    Allowed (MayRefuse s (.write 0x0C#6 .word v)) s (exec (decodeWord v) s) := by
  have hstart (c : Command) (hv : v = 1#32 ∨ v = 2#32) (hb : s.regs.busy = false) :
      Allowed (MayRefuse s (.write 0x0C#6 .word v)) s (start c s) := start_allowed c (.device hb) (.overlap hv hb)
  unfold decodeWord
  split_ifs with h0 h1 h2
  · exact unlessBusy_allowed fun _ => id
  · exact unlessBusy_allowed (hstart .compress (.inl h1))
  · exact unlessBusy_allowed (hstart .decompress (.inr h2))
  · exact unlessBusy_allowed fun _ => nofun

/-! ## The outside -/

theorem unlessRunning_allowed {P : Refusal → Prop} {s : State} {o : Out} (hbusy : s.regs.busy = true → P .bufferHazard)
    (h : s.regs.busy = false → Allowed P s o) : Allowed P s (unlessRunning s o) := by
  unfold unlessRunning
  split
  · exact hbusy ‹_›
  · exact h (Bool.eq_false_of_not_eq_true ‹_›)

theorem bufferAccess_allowed {P : Refusal → Prop} {s : State} {o : Out}
    (hdevice : s.place.plain = false → P .deviceBuffer) (h : Allowed P s o) : Allowed P s (bufferAccess s o) := by
  unfold bufferAccess
  split
  · exact h
  · exact hdevice (Bool.eq_false_of_not_eq_true ‹_›)

/-- No command runs on a device (70_reset R283). -/
theorem Inv.idle_of_device {s : State} (hi : Inv s) (h : s.place.plain = false) : s.regs.busy = false := by
  refine Bool.eq_false_of_not_eq_true fun hb => ?_
  obtain ⟨hplain, -⟩ := State.misplaced_eq_none.1 (hi.placed hb)
  simp [h] at hplain

theorem HostFrame.allowed {P : Refusal → Prop} {s t : State} (f : HostFrame s t) : Allowed P s (.next t) :=
  fun h => f.err ▸ h

theorem hostStep_allowed (i : Input) {s : State} (hi : Inv s) : Allowed (MayRefuse s i) s (hostStep i s) := by
  cases i with
  | engine => exact engineStep_allowed hi
  | write off width v =>
    simp only [hostStep, busWrite]
    split
    · rename_i r hr
      by_cases hcmd : r = .cmd
      · subst hcmd
        obtain ⟨rfl, rfl⟩ := accessReg_eq_cmd hr
        exact execWord_allowed v s
      · obtain ⟨regs, u, hw, herr⟩ := writeReg_of_ne_cmd hcmd v s
        rw [hw]
        exact fun h => herr ▸ h
    · exact id
  | read off width => exact (hostFrame_busRead off width s).allowed
  | srcWrite index b =>
    exact unlessRunning_allowed .srcWrite fun hb => bufferAccess_allowed (.device hb) (hostFrame_putSrc _ b s).allowed
  | dstWrite index b =>
    exact unlessRunning_allowed .dstWrite fun hb => bufferAccess_allowed (.device hb) (hostFrame_putDst _ b s).allowed
  | dstRead index =>
    exact bufferAccess_allowed (fun h => .device (hi.idle_of_device h) h) (hostFrame_readDst _ s).allowed
  | bind p => exact unlessRunning_allowed .bind fun _ => id
  | waitDone =>
    simp only [hostStep]
    split
    · exact (hostFrame_readStatus s).allowed
    · exact engineStep_allowed (s := { readStatus s with host.inputs := .waitDone :: s.host.inputs })
        ((hostFrame_read s _ s.regs.done s.draws).inv hi)
  | waitIrq =>
    simp only [hostStep]
    split
    · exact id
    · exact engineStep_allowed (s := { s with host.inputs := .waitIrq :: s.host.inputs })
        ((hostFrame_read s _ false s.draws).inv hi)
  | reset => exact nofun

theorem step_allowed {s : State} (hi : Inv s) :
    Allowed (fun r => ∃ i rest, s.host.inputs = i :: rest ∧ MayRefuse { s with host.inputs := rest } i r) s (step s) := by
  unfold step
  split
  case h_1 => exact engineStep_allowed hi
  case h_2 i rest hin =>
    have h := hostStep_allowed i ((hostFrame_read s { s.host with inputs := rest } false s.draws).inv hi)
    exact Allowed.mono (fun r hr => ⟨i, rest, hin, hr⟩) h

end Sys2Proof.Machine

open Sys2Proof.Machine

/-- Settles O53: every outcome of a step is one of those allowed. -/
theorem noFaultUnderInvariant : Obligations.NoFaultUnderInvariant := by
  intro s hi
  have h := step_allowed hi
  refine ⟨fun r hr => ?_, fun t ht => ?_, fun r hr => ?_⟩
  · rw [hr] at h
    exact h
  · rw [ht] at h
    exact h
  · rw [hr] at h
    obtain ⟨i, rest, hin, hmay⟩ := h
    cases hmay with
    | srcWrite hb => exact .inl ⟨rfl, hb, _, _, s.place, rest, .inl hin⟩
    | dstWrite hb => exact .inl ⟨rfl, hb, _, _, s.place, rest, .inr (.inl hin)⟩
    | bind hb => exact .inl ⟨rfl, hb, 0#32, 0#8, _, rest, .inr (.inr hin)⟩
    | overlap hv hb ho => exact .inr (.inl ⟨rfl, hb, ho, _, rest, hv, hin⟩)
    | device hb hd => exact .inr (.inr ⟨rfl, hb, hd⟩)

end

section
/-! PROOFS. 30_encoding R72: a field's bits and the value they read as. -/

namespace Sys2Proof.Machine

/-! ## Fields (R72): the MSB order is the LSB order read backwards -/

theorem fieldBits_lsb_succ (w v : Nat) : fieldBits .lsb (w + 1) v = v.testBit 0 :: fieldBits .lsb w (v / 2) := by
  simp [fieldBits, List.range_succ_eq_map, Nat.testBit_succ]

theorem fieldBits_msb (w v : Nat) : fieldBits .msb w v = (fieldBits .lsb w v).reverse :=
  List.ext_getElem (by simp [fieldBits]) fun i _ _ => by simp [fieldBits]

theorem fieldValue_lsb_cons (b : Bool) (bits : List Bool) :
    fieldValue .lsb (b :: bits) = b.toNat + 2 * fieldValue .lsb bits := rfl

theorem fieldValue_msb (bits : List Bool) : fieldValue .msb bits = fieldValue .lsb bits.reverse := by
  simp [fieldValue, List.foldr_reverse, Nat.add_comm]

/-- A value that fits its field is read back from the field's bits. -/
theorem fieldValue_fieldBits (o : BitOrder) {w v : Nat} (h : v < 2 ^ w) : fieldValue o (fieldBits o w v) = v := by
  have hlsb : fieldValue .lsb (fieldBits .lsb w v) = v := by
    induction w generalizing v with
    | zero => exact (Nat.lt_one_iff.1 h).symm
    | succ w ih =>
      have hhalf : fieldValue .lsb (fieldBits .lsb w (v / 2)) = v / 2 := ih (by rw [Nat.pow_succ] at h; omega)
      have hlow : (v.testBit 0).toNat = v % 2 := by rw [Nat.toNat_testBit]; simp
      calc fieldValue .lsb (fieldBits .lsb (w + 1) v)
          = (v.testBit 0).toNat + 2 * fieldValue .lsb (fieldBits .lsb w (v / 2)) := by
            rw [fieldBits_lsb_succ, fieldValue_lsb_cons]
        _ = v := by omega
  cases o with
  | lsb => exact hlsb
  | msb => rw [fieldBits_msb, fieldValue_msb, List.reverse_reverse, hlsb]

/-- Any w bits are the field of the value they read as. -/
theorem fieldBits_fieldValue (o : BitOrder) (bits : List Bool) :
    fieldBits o bits.length (fieldValue o bits) = bits := by
  have hlsb (bits : List Bool) : fieldBits .lsb bits.length (fieldValue .lsb bits) = bits := by
    induction bits with
    | nil => rfl
    | cons b bits ih =>
      have hlow : (b.toNat + 2 * fieldValue .lsb bits).testBit 0 = b := by cases b <;> simp [Nat.testBit_zero]
      have hhalf : (b.toNat + 2 * fieldValue .lsb bits) / 2 = fieldValue .lsb bits := by
        have := b.toNat_le
        omega
      rw [List.length_cons, fieldValue_lsb_cons, fieldBits_lsb_succ, hlow, hhalf, ih]
  cases o with
  | lsb => exact hlsb bits
  | msb =>
    have h := hlsb bits.reverse
    rw [List.length_reverse] at h
    rw [fieldBits_msb, fieldValue_msb, h, List.reverse_reverse]

theorem fieldBits_lsb_getD {w i : Nat} (v : Nat) (h : i < w) : (fieldBits .lsb w v).getD i false = v.testBit i := by
  simp [fieldBits, h]

theorem fieldBits_msb_getD {w i : Nat} (v : Nat) (h : i < w) :
    (fieldBits .msb w v).getD i false = v.testBit (w - 1 - i) := by
  simp [fieldBits, h]

theorem fieldValue_lsb_eq_sum (s : List Bool) :
    fieldValue .lsb s = ∑ i ∈ Finset.range s.length, (s.getD i false).toNat * 2 ^ i := by
  induction s with
  | nil => rfl
  | cons b s ih =>
    rw [fieldValue_lsb_cons, ih, List.length_cons, Finset.sum_range_succ', Finset.mul_sum]
    simp [Nat.pow_succ', Nat.mul_left_comm, Nat.add_comm]

theorem fieldValue_msb_eq_sum (s : List Bool) :
    fieldValue .msb s = ∑ i ∈ Finset.range s.length, (s.getD i false).toNat * 2 ^ (s.length - 1 - i) := by
  rw [fieldValue_msb, fieldValue_lsb_eq_sum, List.length_reverse, ← Finset.sum_range_reflect]
  refine Finset.sum_congr rfl fun i hi => ?_
  have hi := Finset.mem_range.1 hi
  have hlt : s.length - 1 - i < s.length := by omega
  have hback : s.length - 1 - (s.length - 1 - i) = i := by omega
  simp [List.getD_eq_getElem?_getD, List.getElem?_reverse hlt, hback]

end Sys2Proof.Machine

open Sys2Proof Sys2Proof.Machine

/-- Settles O4: the field's bits one by one, and its value as the sum over them. -/
theorem fieldLayout : Obligations.FieldLayout := by
  intro w v hv
  refine ⟨fun o => ⟨fieldBits_length o w v, fieldValue_fieldBits o hv, fun b => ?_⟩, fun i => fieldBits_lsb_getD v,
    fun i => fieldBits_msb_getD v, ?_⟩
  · cases o <;> cases b <;> rfl
  · rintro s rfl
    exact ⟨fieldValue_lsb_eq_sum s, fieldValue_msb_eq_sum s⟩

end

section
/-! PROOFS. 30_encoding R74 to R79, R84: the token decoder and the encoders are each other's inverse. -/

namespace Sys2Proof.Machine

/-! ## Fields taken from a stream -/

@[simp] theorem takeField_fieldBits_append (o : BitOrder) (w v : Nat) (rest : List Bool) :
    takeField w (fieldBits o w v ++ rest) = some (fieldBits o w v, rest) := by
  simp [takeField, fieldBits_length]

theorem takeField_eq_some {w : Nat} {bits a rest : List Bool} (h : takeField w bits = some (a, rest)) :
    a.length = w ∧ bits = a ++ rest := by
  unfold takeField at h
  split at h
  · cases h
    simp [*]
  · cases h

/-- What the payload decoder accepts: one field of 8 bits, or one of EI bits and one of EJ. -/
theorem decodePayload_ok {o : BitOrder} {pr : Params} {flag : Bool} {bits rest : List Bool} {i : Instr}
    (h : decodePayload o pr flag bits = .ok (i, rest)) :
    (flag = true ∧ ∃ c, c.length = 8 ∧ bits = c ++ rest ∧ i = .lit (BitVec.ofNat 8 (fieldValue o c))) ∨
    (flag = false ∧ ∃ off len, off.length = pr.ei ∧ len.length = pr.ej ∧ bits = off ++ (len ++ rest) ∧
      i = .matchTok (offOperand (fieldValue o off)) (lenOperand pr (fieldValue o len))) := by
  unfold decodePayload at h
  split at h
  · split at h
    · cases h
    · rename_i c _ hc
      cases h
      obtain ⟨hlen, hbits⟩ := takeField_eq_some hc
      exact .inl ⟨rfl, c, hlen, hbits, rfl⟩
  · split at h
    · cases h
    · rename_i off _ hoff
      obtain ⟨hei, rfl⟩ := takeField_eq_some hoff
      split at h
      · cases h
      · rename_i len _ hlen
        cases h
        obtain ⟨hej, rfl⟩ := takeField_eq_some hlen
        exact .inr ⟨rfl, off, len, hei, hej, rfl, rfl⟩

/-- R79: the payload's width, as the flag gives it, is all the decoder needs and all it takes. -/
theorem decodePayload_of_le (o : BitOrder) {pr : Params} {flag : Bool} {bits : List Bool}
    (h : payloadWidth pr flag ≤ bits.length) :
    ∃ i, decodePayload o pr flag bits = .ok (i, bits.drop (payloadWidth pr flag)) := by
  cases flag with
  | true =>
    have h8 : 8 ≤ bits.length := h
    simp [decodePayload, takeField, payloadWidth, h8]
  | false =>
    have hw : pr.ei + pr.ej ≤ bits.length := h
    have hei : pr.ei ≤ bits.length := by omega
    have hej : pr.ej ≤ bits.length - pr.ei := by omega
    simp [decodePayload, takeField, payloadWidth, hei, hej]

theorem decodePayload_of_lt (o : BitOrder) {pr : Params} {flag : Bool} {bits : List Bool}
    (h : bits.length < payloadWidth pr flag) : ∃ e, decodePayload o pr flag bits = .error e := by
  cases hd : decodePayload o pr flag bits with
  | error e => exact ⟨e, rfl⟩
  | ok answer =>
    obtain ⟨i, rest⟩ := answer
    rcases decodePayload_ok hd with ⟨rfl, c, hc, rfl, -⟩ | ⟨rfl, off, len, hoff, hlen, rfl, -⟩
    · simp [payloadWidth, hc] at h
    · simp [payloadWidth, hoff, hlen, ← Nat.add_assoc] at h

/-! ## Operands and their fields (R76 to R78) -/

theorem offEncodable_iff {pr : Params} {off : Nat} : offEncodable pr off = true ↔ 1 ≤ off ∧ off ≤ 2 ^ pr.ei := by
  simp [offEncodable]

theorem offEncodable_offOperand {pr : Params} {offm1 : Nat} (h : offm1 < 2 ^ pr.ei) :
    offEncodable pr (offOperand offm1) = true := offEncodable_iff.2 ⟨Nat.succ_pos _, h⟩

theorem lenField_lenOperand (pr : Params) (lenf : Nat) : lenField pr (lenOperand pr lenf) = lenf := by
  unfold lenField lenOperand
  split <;> omega

theorem lenEncodable_lenOperand {pr : Params} {lenf : Nat} (h : lenf < 2 ^ pr.ej) :
    lenEncodable pr (lenOperand pr lenf) = true := by
  unfold lenEncodable lenOperand
  split
  · simp; omega
  · simpa using h

/-- A length that has a field is that field's operand. -/
theorem lenOperand_lenField {pr : Params} {len : Nat} (h : lenEncodable pr len = true) :
    lenField pr len < 2 ^ pr.ej ∧ lenOperand pr (lenField pr len) = len := by
  cases hr : pr.rless with
  | true =>
    simp only [lenEncodable, lenField, lenOperand, hr, if_true, Bool.and_eq_true, decide_eq_true_eq] at h ⊢
    omega
  | false =>
    simpa [lenEncodable, lenField, lenOperand, hr] using h

/-! ## Tokens -/

theorem decodeToken_litBits_append (o : BitOrder) (pr : Params) (c : Byte) (rest : List Bool) :
    decodeToken o pr (litBits o c ++ rest) = .ok (.lit c, rest) := by
  simp [decodeToken, litBits, decodePayload, fieldValue_fieldBits o c.isLt]

theorem decodeToken_matchBits_append (o : BitOrder) {pr : Params} {off len : Nat} (hoff : offEncodable pr off = true)
    (hlen : lenEncodable pr len = true) (rest : List Bool) :
    decodeToken o pr (matchBits o pr off len ++ rest) = .ok (.matchTok off len, rest) := by
  obtain ⟨hoff1, hoffN⟩ := offEncodable_iff.1 hoff
  obtain ⟨hlenf, hlenOperand⟩ := lenOperand_lenField hlen
  have hoffOperand : offOperand (off - 1) = off := Nat.succ_pred_eq_of_pos hoff1
  have hoffField : off - 1 < 2 ^ pr.ei := by omega
  simp [decodeToken, matchBits, decodePayload, fieldValue_fieldBits o hoffField, fieldValue_fieldBits o hlenf,
    hoffOperand, hlenOperand]

/-- A well-formed token at the head of a stream is read as itself, and nothing after it is touched. -/
theorem decodeToken_tokenBits_append (o : BitOrder) {pr : Params} {i : Instr} (htok : i.isToken = true)
    (hwf : i.wf pr = true) (rest : List Bool) : decodeToken o pr (tokenBits o pr i ++ rest) = .ok (i, rest) := by
  cases i with
  | lit c => exact decodeToken_litBits_append o pr c rest
  | matchTok off len =>
    obtain ⟨hoff, hlen⟩ := (Bool.and_eq_true _ _).mp hwf
    exact decodeToken_matchBits_append o hoff hlen rest
  | nop => cases htok
  | compress => cases htok
  | decompress => cases htok
  | reserved w => cases htok

theorem decode_stream {o : BitOrder} {pr : Params} {bits : List Bool} {i : Instr}
    (h : decodeToken o pr bits = .ok (i, [])) : decode o pr (.stream bits) = some i := by
  simp [decode, h]

theorem litBits_fieldValue (o : BitOrder) {c : List Bool} (h : c.length = 8) :
    litBits o (BitVec.ofNat 8 (fieldValue o c)) = true :: c := by
  have hlt := fieldValue_lt o c
  rw [h] at hlt
  rw [litBits, BitVec.toNat_ofNat, Nat.mod_eq_of_lt hlt, ← h, fieldBits_fieldValue]

theorem matchBits_fieldValue (o : BitOrder) {pr : Params} {off len : List Bool} (hoff : off.length = pr.ei)
    (hlen : len.length = pr.ej) :
    matchBits o pr (offOperand (fieldValue o off)) (lenOperand pr (fieldValue o len)) = false :: (off ++ len) := by
  rw [matchBits, lenField_lenOperand, ← hoff, ← hlen, offOperand, Nat.add_sub_cancel, fieldBits_fieldValue,
    fieldBits_fieldValue]

end Sys2Proof.Machine

open Sys2Proof Sys2Proof.Machine

/-- Settles O1: a token is read whole with no bit left, and a command word is compared as it stands. -/
theorem decodeInvertsEncode : Obligations.DecodeInvertsEncode := by
  intro o pr i hwf
  have htoken (htok : i.isToken = true) : decodeToken o pr (tokenBits o pr i) = .ok (i, []) := by
    simpa using decodeToken_tokenBits_append o htok hwf []
  cases i with
  | lit c => exact decode_stream (htoken rfl)
  | matchTok off len => exact decode_stream (htoken rfl)
  | nop => rfl
  | compress => rfl
  | decompress => rfl
  | reserved w => exact congrArg some ((Laws.CodeWidth.reserved w o pr).2 hwf)

/-- Settles O2: the fields the decoder took are the fields of the operands it answers. -/
theorem decodedTokenReencodes : Obligations.DecodedTokenReencodes := by
  intro o pr bits rest i h
  cases bits with
  | nil => cases h
  | cons flag bits =>
    rcases decodePayload_ok h with ⟨rfl, c, hc, rfl, rfl⟩ | ⟨rfl, off, len, hoff, hlen, rfl, rfl⟩
    · exact ⟨rfl, rfl, congrArg (· ++ rest) (litBits_fieldValue o hc).symm⟩
    · have hoffLt := fieldValue_lt o off
      have hlenLt := fieldValue_lt o len
      rw [hoff] at hoffLt
      rw [hlen] at hlenLt
      refine ⟨rfl, ?_, ?_⟩
      · exact (Bool.and_eq_true _ _).mpr ⟨offEncodable_offOperand hoffLt, lenEncodable_lenOperand hlenLt⟩
      · show _ = matchBits o pr _ _ ++ rest
        rw [matchBits_fieldValue o hoff hlen]
        simp

/-- Settles O3: the payload's width is 8 or EI + EJ, as the flag says. -/
theorem tokenLengthFromFlag : Obligations.TokenLengthFromFlag := by
  intro o pr flag bits
  have hlen : (if flag then 9 else 1 + pr.ei + pr.ej) = payloadWidth pr flag + 1 := by
    cases flag
    · show 1 + pr.ei + pr.ej = pr.ei + pr.ej + 1
      omega
    · rfl
  simp only [hlen, List.length_cons, List.drop_succ_cons]
  exact ⟨fun h => decodePayload_of_le o (Nat.le_of_succ_le_succ h),
    fun h => decodePayload_of_lt o (Nat.lt_of_succ_lt_succ h)⟩

end

section
/-! PROOFS. 30_encoding R84, R85 and 20_memory R55: command words. -/

namespace Sys2Proof.Machine

theorem decodeWord_of_three_le {w : Word} (h : 3 ≤ w.toNat) : decodeWord w = .reserved w :=
  (Laws.CodeWidth.reserved w .lsb tableParams).2 (decide_eq_true h)

theorem lane_getLsbD (w : Word) {j : Nat} (k : Nat) (h : j < 8) : (lane w k).getLsbD j = w.getLsbD (8 * k + j) := by
  simp [lane, h]

/-- The four lanes put together again (20_memory R55). -/
theorem wordOfLanes_lane (w : Word) : wordOfLanes (lane w 0) (lane w 1) (lane w 2) (lane w 3) = w := by
  have low : lane w 1 ++ lane w 0 = w.extractLsb' 0 16 := BitVec.extractLsb'_append_extractLsb'_eq_extractLsb' rfl
  have high : lane w 3 ++ lane w 2 = w.extractLsb' 16 16 := BitVec.extractLsb'_append_extractLsb'_eq_extractLsb' rfl
  have whole : w.extractLsb' 16 16 ++ w.extractLsb' 0 16 = w.extractLsb' 0 32 :=
    BitVec.extractLsb'_append_extractLsb'_eq_extractLsb' rfl
  rw [wordOfLanes, high, BitVec.append_assoc, low]
  exact whole.trans BitVec.extractLsb'_eq_self

end Sys2Proof.Machine

open Sys2Proof Sys2Proof.Machine

/-- Settles O7: the four comparisons, and the lanes' word is the word written. -/
theorem commandWordsDecode : Obligations.CommandWordsDecode := by
  intro w
  refine ⟨?_, ?_, ?_, decodeWord_of_three_le, fun k j _ hj => lane_getLsbD w k hj, ?_⟩
  · rintro rfl
    rfl
  · rintro rfl
    rfl
  · rintro rfl
    rfl
  · rw [decodeLanes, wordOfLanes_lane]

/-- Settles O8, by evaluation of the decoder. -/
theorem writtenOutWordsDecode : Obligations.WrittenOutWordsDecode := by
  unfold Obligations.WrittenOutWordsDecode
  decide

end

section
/-! PROOFS. 30_encoding R73: where the stream's bits lie in its bytes. -/

namespace Sys2Proof.Machine

/-- The eight stream bits of byte k, zero bits after the stream's end. -/
def octet (bits : List Bool) (k : Nat) : List Bool := (List.range 8).map fun j => bits.getD (8 * k + j) false

@[simp] theorem octet_length (bits : List Bool) (k : Nat) : (octet bits k).length = 8 := by simp [octet]

theorem octet_getD (bits : List Bool) {j : Nat} (k : Nat) (h : j < 8) :
    (octet bits k).getD j false = bits.getD (8 * k + j) false := by
  simp [octet, h]

theorem bitsOfByte_eq (o : BitOrder) (b : Byte) : bitsOfByte o b = fieldBits o 8 b.toNat := by
  cases o with
  | lsb => rfl
  | msb => rfl

theorem posIn_mod (o : BitOrder) (t : Nat) : posIn o (t % 8) = posIn o t := by
  cases o <;> simp [posIn]

/-- The weights of a field of width 8 are those of the positions in a byte (R72, R73). -/
theorem fieldValue_eq_sum_posIn (o : BitOrder) {s : List Bool} (h : s.length = 8) :
    fieldValue o s = ∑ j ∈ Finset.range 8, (s.getD j false).toNat * 2 ^ posIn o j := by
  have hmod {j : Nat} (hj : j ∈ Finset.range 8) : j % 8 = j := Nat.mod_eq_of_lt (Finset.mem_range.1 hj)
  cases o with
  | lsb =>
    rw [fieldValue_lsb_eq_sum, h]
    exact Finset.sum_congr rfl fun j hj => by rw [posIn, hmod hj]
  | msb =>
    rw [fieldValue_msb_eq_sum, h]
    exact Finset.sum_congr rfl fun j hj => by rw [posIn, hmod hj]

theorem foldl_range_eq_sum (f : Nat → Nat) (n : Nat) :
    (List.range n).foldl (fun acc j => acc + f j) 0 = ∑ j ∈ Finset.range n, f j := by
  induction n with
  | zero => rfl
  | succ n ih => simp [List.range_succ, Finset.sum_range_succ, ih]

theorem fieldValue_octet (o : BitOrder) (bits : List Bool) (k : Nat) :
    fieldValue o (octet bits k) = ∑ j ∈ Finset.range 8, (bits.getD (8 * k + j) false).toNat * 2 ^ posIn o j := by
  rw [fieldValue_eq_sum_posIn o (octet_length bits k)]
  exact Finset.sum_congr rfl fun j hj => by rw [octet_getD bits k (Finset.mem_range.1 hj)]

/-- A byte of the stream is its eight stream bits read as a field. -/
theorem byteAt_toNat (o : BitOrder) (bits : List Bool) (k : Nat) :
    (byteAt o bits k).toNat = fieldValue o (octet bits k) := by
  have hlt := fieldValue_lt o (octet bits k)
  rw [octet_length] at hlt
  rw [byteAt, foldl_range_eq_sum, ← fieldValue_octet, BitVec.toNat_ofNat, Nat.mod_eq_of_lt hlt]

/-- A stored byte holds its eight stream bits. -/
theorem bitsOfByte_byteAt (o : BitOrder) (bits : List Bool) (k : Nat) : bitsOfByte o (byteAt o bits k) = octet bits k := by
  rw [bitsOfByte_eq, byteAt_toNat]
  simpa using fieldBits_fieldValue o (octet bits k)

theorem bitsOfByte_getD (o : BitOrder) (b : Byte) (t : Nat) :
    (bitsOfByte o b).getD (t % 8) false = b.getLsbD (posIn o t) := by
  have ht : t % 8 < 8 := Nat.mod_lt t (by decide)
  cases o <;> simp [bitsOfByte, posIn, ht]

@[simp] theorem pack_length (o : BitOrder) (bits : List Bool) : (pack o bits).length = bytesFor bits.length := by
  simp [pack]

theorem pack_getD (o : BitOrder) (bits : List Bool) {k : Nat} (h : k < (pack o bits).length) :
    (pack o bits).getD k 0#8 = byteAt o bits k := by
  rw [pack_length] at h
  simp [pack, h]

theorem byteAt_getLsbD_posIn (o : BitOrder) (bits : List Bool) (t : Nat) :
    (byteAt o bits (t / 8)).getLsbD (posIn o t) = bits.getD t false := by
  rw [← bitsOfByte_getD, bitsOfByte_byteAt, octet_getD bits _ (Nat.mod_lt t (by decide)), Nat.div_add_mod]

/-- Eight bits at a byte boundary are that byte's bits. -/
theorem octet_append {before field : List Bool} (after : List Bool) (hb : before.length % 8 = 0) (hf : field.length = 8) :
    octet (before ++ field ++ after) (before.length / 8) = field := by
  have hstart : 8 * (before.length / 8) = before.length := by omega
  refine List.ext_getElem (by simp [hf]) fun j _ hj => ?_
  simp [octet, hstart, List.getElem?_append, hj]

theorem pack_fieldBits_aligned (o : BitOrder) (before after : List Bool) (c : Byte) (hb : before.length % 8 = 0) :
    (pack o (before ++ fieldBits o 8 c.toNat ++ after)).getD (before.length / 8) 0#8 = c := by
  have hlen : (fieldBits o 8 c.toNat).length = 8 := fieldBits_length o 8 _
  rw [pack_getD _ _ (by simp [bytesFor, hlen]; omega)]
  apply BitVec.eq_of_toNat_eq
  rw [byteAt_toNat, octet_append after hb hlen, fieldValue_fieldBits o c.isLt]

end Sys2Proof.Machine

open Sys2Proof Sys2Proof.Machine

/-- Settles O5: each byte of the packed stream is its octet read as a field of width 8. -/
theorem streamBitsLieAtTheirPositions : Obligations.StreamBitsLieAtTheirPositions := by
  refine ⟨fun o bits => ⟨pack_length o bits, fun t ht => ?_, fun k hk => ?_⟩, fun t => ⟨rfl, rfl⟩,
    pack_fieldBits_aligned, rfl, rfl, rfl⟩
  · rw [pack_getD o bits ht, byteAt_getLsbD_posIn]
  · have hpos (j : Nat) : posIn o (8 * k + j) = posIn o j := by
      rw [← posIn_mod, Nat.mul_add_mod, posIn_mod]
    simp only [pack_getD o bits hk, byteAt_toNat, fieldValue_octet, hpos]

end

section
/-! PROOFS. 30_encoding R83: every token COMPRESS writes costs at most max(9 P, 1 + EI + EJ) / P bits for each input byte
it consumes. -/

namespace Sys2Proof.Machine

/-- P times the bits a token may cost for each byte it consumes. -/
def bitRate (pr : Params) : Nat := max (9 * pr.p) (1 + pr.ei + pr.ej)

theorem tokenBits_lit_length (o : BitOrder) (pr : Params) (c : Byte) : (tokenBits o pr (.lit c)).length = 9 := by
  show (litBits o c).length = 9
  simp [litBits, fieldBits_length]

theorem tokenBits_matchTok_length (o : BitOrder) (pr : Params) (off len : Nat) :
    (tokenBits o pr (.matchTok off len)).length = 1 + pr.ei + pr.ej := by
  show (matchBits o pr off len).length = _
  simp [matchBits, fieldBits_length]
  omega

/-- A literal costs 9 bits for one byte, a match 1 + EI + EJ bits for P bytes or more. -/
theorem chooseToken_cost (o : BitOrder) (pr : Params) (f : Nat → Byte) (pos : Nat) (best : Best) :
    pr.p * (tokenBits o pr (chooseToken pr f pos best)).length ≤ bitRate pr * consumed pr best := by
  unfold chooseToken consumed
  split
  case isTrue hp =>
    rw [tokenBits_matchTok_length, Nat.mul_comm (bitRate pr)]
    exact Nat.mul_le_mul hp (Nat.le_max_right _ _)
  case isFalse =>
    rw [tokenBits_lit_length, Nat.mul_one, Nat.mul_comm]
    exact Nat.le_max_left _ _

/-- No token runs past the input. -/
theorem consumed_findMatch_le (pr : Params) (f : Nat → Byte) {n pos : Nat} (h : pos < n) :
    consumed pr (findMatch pr f n pos) ≤ n - pos := by
  have hlen : (findMatch pr f n pos).len ≤ n - pos :=
    (findMatch_bestOk pr f n pos).len.trans (Nat.min_le_right _ _)
  unfold consumed
  split
  · exact hlen
  · omega

theorem greedyTokens_cost (o : BitOrder) (pr : Params) (f : Nat → Byte) (n fuel pos : Nat) :
    pr.p * ((greedyTokens pr f n fuel pos).flatMap (tokenBits o pr)).length ≤ bitRate pr * (n - pos) := by
  induction fuel generalizing pos with
  | zero => exact Nat.zero_le _
  | succ fuel ih =>
    simp only [greedyTokens]
    split
    · have hfit := consumed_findMatch_le pr f ‹pos < n›
      have hfirst := chooseToken_cost o pr f pos (findMatch pr f n pos)
      have hrest := ih (pos + consumed pr (findMatch pr f n pos))
      have hsplit : n - pos =
          consumed pr (findMatch pr f n pos) + (n - (pos + consumed pr (findMatch pr f n pos))) := by omega
      rw [List.flatMap_cons, List.length_append, Nat.mul_add, hsplit, Nat.mul_add]
      exact Nat.add_le_add hfirst hrest
    · exact Nat.zero_le _

theorem worst_eq_ceilDiv (pr : Params) (n : Nat) (h : 1 ≤ pr.p) : worst pr n = (n * bitRate pr) ⌈/⌉ (8 * pr.p) := by
  rw [Nat.ceilDiv_eq_add_pred_div, worst, bitRate, Nat.add_sub_assoc (by omega)]

theorem bytesFor_le_worst {pr : Params} {n t : Nat} (hp : 1 ≤ pr.p) (h : pr.p * t ≤ bitRate pr * n) :
    bytesFor t ≤ worst pr n := by
  have hworst : n * bitRate pr ≤ 8 * pr.p * worst pr n := by
    rw [worst_eq_ceilDiv pr n hp]
    exact le_smul_ceilDiv (Nat.mul_pos (by decide) hp)
  have hbits : t ≤ 8 * worst pr n := by
    refine Nat.le_of_mul_le_mul_left ?_ hp
    calc pr.p * t ≤ bitRate pr * n := h
      _ = n * bitRate pr := Nat.mul_comm _ _
      _ ≤ 8 * pr.p * worst pr n := hworst
      _ = pr.p * (8 * worst pr n) := by ring
  unfold bytesFor
  omega

/-- R83's special case: where a match of P bytes is no dearer than P literals, 9 bits a byte. -/
theorem worst_of_le {pr : Params} (n : Nat) (hp : 1 ≤ pr.p) (h : 1 + pr.ei + pr.ej ≤ 9 * pr.p) :
    worst pr n = n + (n + 7) / 8 := by
  have hsum : n * (9 * pr.p) + (8 * pr.p - 1) = pr.p * (9 * n + 7) + (pr.p - 1) := by
    have : pr.p * (9 * n + 7) = n * (9 * pr.p) + 7 * pr.p := by ring
    omega
  have hquot : (pr.p * (9 * n + 7) + (pr.p - 1)) / pr.p = 9 * n + 7 := by
    rw [Nat.mul_add_div hp, Nat.div_eq_of_lt (by omega), Nat.add_zero]
  rw [worst, Nat.max_eq_left h, hsum, Nat.mul_comm 8, ← Nat.div_div_eq_div_mul, hquot]
  omega

end Sys2Proof.Machine

open Sys2Proof Sys2Proof.Machine

/-- Settles O58: the stream's bits are bounded token by token, and WORST(n) is that bound in bytes. -/
theorem worstCaseBound : Obligations.WorstCaseBound := by
  intro h pr f n cap hlegal hcap
  simp only [legalParams, Bool.and_eq_true, decide_eq_true_eq] at hlegal
  obtain ⟨⟨-, hp⟩, -⟩ := hlegal
  have hbytes : bytesFor (encodeStream h.order pr f n).length ≤ worst pr n :=
    bytesFor_le_worst hp (greedyTokens_cost h.order pr f n n 0)
  refine ⟨⟨pack h.order (encodeStream h.order pr f n), ?_, ?_⟩, worst_of_le n hp⟩
  · exact if_pos (hbytes.trans hcap)
  · rw [pack_length]
    exact hbytes

end

section
/-! PROOFS. 40_window R101 to R105: the window one write at a time, and after the writes of a history. -/

namespace Sys2Proof.Machine

/-! ## Reading back -/

@[simp] theorem winInit_n (s : State) : (winInit s).n = s.n := rfl

@[simp] theorem winWrite_n (b : Byte) (s : State) : (winWrite b s).n = s.n := rfl

theorem winReadback_badOffset {off : Nat} {s : State} (h : off < 1 ∨ s.n < off) :
    winReadback off s = .error (.badOffset, s) := if_pos h

/-- After WIN_INIT every offset reads FILL (R101). -/
theorem winReadback_winInit {off : Nat} {s : State} (h1 : 1 ≤ off) (h2 : off ≤ s.n) :
    winReadback off (winInit s) = .ok s.hw.fill := by
  rw [winReadback_ok (s := winInit s) h1 h2, winInit_entry, winInit_n, if_pos (Nat.mod_lt _ s.n_pos)]

/-- Offset off + 1 from the cursor after a write is offset off from the cursor before it. -/
theorem succ_offset_index {cur off n : Nat} (hc : cur < n) (ho : off < n) :
    ((cur + 1) % n + n - (off + 1)) % n = (cur + n - off) % n := by
  obtain hlt | rfl : cur + 1 < n ∨ cur + 1 = n := by omega
  · rw [Nat.mod_eq_of_lt hlt]
    congr 1
    omega
  · have hwrap : cur + (cur + 1) - off = (0 + (cur + 1) - (off + 1)) + (cur + 1) := by omega
    rw [Nat.mod_self, hwrap, Nat.add_mod_right]

/-- An offset below N does not reach round to the cursor's own entry. -/
theorem offset_index_ne_cursor {cur off n : Nat} (hc : cur < n) (h1 : 1 ≤ off) (ho : off < n) :
    (cur + n - off) % n ≠ cur := by
  by_cases hle : off ≤ cur
  · have hwrap : cur + n - off = (cur - off) + n := by omega
    rw [hwrap, Nat.add_mod_right, Nat.mod_eq_of_lt (by omega)]
    omega
  · rw [Nat.mod_eq_of_lt (by omega)]
    omega

/-- Offset 1 reads the byte written last (R103). -/
theorem winReadback_one_winWrite (b : Byte) {s : State} (hc : s.win.cur < s.n) :
    winReadback 1 (winWrite b s) = .ok b := by
  have hcursor : (s.win.cur + s.n - 0) % s.n = s.win.cur := by
    rw [Nat.sub_zero, Nat.add_mod_right, Nat.mod_eq_of_lt hc]
  rw [winReadback_ok (s := winWrite b s) (Nat.le_refl 1) s.n_pos, winWrite_cur, winWrite_n,
    succ_offset_index hc s.n_pos, winWrite_entry, if_pos hcursor]

/-- A write moves every byte of the window one offset further back, the one at offset N out of it (R102). -/
theorem winReadback_succ_winWrite (b : Byte) {off : Nat} {s : State} (hc : s.win.cur < s.n) (h1 : 1 ≤ off)
    (ho : off < s.n) : winReadback (off + 1) (winWrite b s) = winReadback off s := by
  rw [winReadback_ok (s := winWrite b s) (Nat.succ_pos off) ho, winReadback_ok h1 (Nat.le_of_lt ho), winWrite_cur,
    winWrite_n, succ_offset_index hc ho, winWrite_entry, if_neg (offset_index_ne_cursor hc h1 ho)]

/-- Offset N reads the entry at the cursor, the one the next write replaces (R102). -/
theorem winReadback_n {s : State} (hc : s.win.cur < s.n) : winReadback s.n s = .ok (s.win.entry s.win.cur) := by
  rw [winReadback_ok s.n_pos (Nat.le_refl _), Nat.add_sub_cancel, Nat.mod_eq_of_lt hc]

/-! ## The window after a history (R105) -/

/-- WIN_INIT and the writes of the bytes h, in order. -/
def windowAfter (h : List Byte) (s : State) : State := h.foldl (fun t b => winWrite b t) (winInit s)

@[simp] theorem windowAfter_nil (s : State) : windowAfter [] s = winInit s := rfl

@[simp] theorem windowAfter_concat (h : List Byte) (b : Byte) (s : State) :
    windowAfter (h ++ [b]) s = winWrite b (windowAfter h s) := by simp [windowAfter]

@[simp] theorem windowAfter_n (h : List Byte) (s : State) : (windowAfter h s).n = s.n := by
  induction h using List.reverseRecOn with
  | nil => rfl
  | append_singleton h b ih => rw [windowAfter_concat, winWrite_n, ih]

theorem windowAfter_cursor_lt (h : List Byte) (s : State) : (windowAfter h s).win.cur < (windowAfter h s).n := by
  induction h using List.reverseRecOn with
  | nil => exact s.n_pos
  | append_singleton h b _ =>
    rw [windowAfter_concat]
    exact Nat.mod_lt _ (State.n_pos _)

theorem winReadback_windowAfter (s : State) (h : List Byte) {off : Nat} (h1 : 1 ≤ off) (h2 : off ≤ s.n) :
    winReadback off (windowAfter h s) =
      .ok (if off ≤ h.length then h.getD (h.length - off) 0#8 else s.hw.fill) := by
  induction h using List.reverseRecOn generalizing off with
  | nil =>
    rw [windowAfter_nil, winReadback_winInit h1 h2, if_neg (by simpa using Nat.ne_of_gt h1)]
  | append_singleton h b ih =>
    have hc := windowAfter_cursor_lt h s
    rw [windowAfter_concat, List.length_append, List.length_singleton]
    obtain _ | _ | off := off
    · contradiction
    · simp [winReadback_one_winWrite b hc]
    · have hoff : off + 1 < (windowAfter h s).n := by
        rw [windowAfter_n]
        exact h2
      rw [winReadback_succ_winWrite b hc (Nat.succ_pos off) hoff, ih (Nat.succ_pos off) (Nat.le_of_lt h2)]
      by_cases hlen : off + 1 ≤ h.length
      · rw [if_pos hlen, if_pos (Nat.succ_le_succ hlen), Nat.add_sub_add_right, List.getD_append _ _ _ _ (by omega)]
      · rw [if_neg hlen, if_neg (mt Nat.le_of_succ_le_succ hlen)]

/-! ## What refuses an offset (R104) -/

theorem execMatchTok_badOffset {off : Nat} (len : Nat) {s : State} (h : off < 1 ∨ s.n < off) :
    execMatchTok off len s = .next (abort .badOffset { s with eng.tokOff := off, eng.tokLen := len }) := if_pos h

/-! ## The engine's step in INIT -/

theorem step_of_init {s : State} (hin : s.host.inputs = []) (hp : s.eng.phase = .init) : step s = engineInit s := by
  simp [step, engineStep, hin, hp]

theorem engineInit_compress {s : State} (hc : s.eng.cur = .compress) :
    engineInit s =
      .next { winInit s with eng.obits := 0, eng.oacc := 0#8, eng.pos := 0, eng.phase := .cFind } := by
  simp [engineInit, hc, bwInit]

theorem engineInit_decompress {s : State} (hc : s.eng.cur = .decompress) :
    engineInit s = .next { winInit s with eng.ibits := 0, eng.outn := 0, eng.phase := .dFlag } := by
  simp [engineInit, hc, brInit]

end Sys2Proof.Machine

open Sys2Proof.Machine

/-- Settles O14: by induction on the history, a write moving every offset by one. -/
theorem windowHoldsHistory : Obligations.WindowHoldsHistory :=
  fun s h _ h1 h2 => winReadback_windowAfter s h h1 h2

/-- Settles O12: the entries one by one, and the step of INIT for each command. -/
theorem windowInitFills : Obligations.WindowInitFills := by
  intro s
  refine ⟨fun i hi => ?_, fun i hi => ?_, rfl, rfl, fun hin hp hc => ?_, fun hin hp hc => ?_⟩
  · rw [winInit_entry, if_pos hi]
  · rw [winInit_entry, if_neg (Nat.not_lt.2 hi)]
  · rw [step_of_init hin hp, engineInit_compress hc]
  · rw [step_of_init hin hp, engineInit_decompress hc]

/-- Settles O13: the entry written, the wrap of the cursor, and offset N as the cursor's own entry. -/
theorem windowWriteStores : Obligations.WindowWriteStores := by
  intro b s
  refine ⟨?_, fun i hi => ?_, rfl, fun hlast => ?_, winReadback_n, rfl⟩
  · rw [winWrite_entry, if_pos rfl]
  · rw [winWrite_entry, if_neg hi]
  · rw [winWrite_cur, hlast, Nat.sub_add_cancel s.n_pos, Nat.mod_self]

/-- Settles O15: the guard of WIN_READBACK, and the match's own, which aborts before any access. -/
theorem offsetGuard : Obligations.OffsetGuard := by
  intro s off len h
  exact ⟨winReadback_badOffset h, _, execMatchTok_badOffset len h,
    abort_failed _ nofun rfl rfl rfl rfl rfl rfl fun _ _ => rfl⟩

end

section
/-! PROOFS. 41_framer R135: the stored bytes unpack to the stream and its pad (30_encoding R70, R80), and a token list
is read back from its own bits. -/

namespace Sys2Proof.Machine

/-! ## The stored bytes (R70, R80) -/

/-- The pad bits after a stream of t bits (R80). -/
def padLength (t : Nat) : Nat := 8 * bytesFor t - t

theorem padLength_lt (t : Nat) : padLength t < 8 := by
  unfold padLength bytesFor
  omega

theorem add_padLength (t : Nat) : t + padLength t = 8 * bytesFor t := by
  unfold padLength bytesFor
  omega

theorem flatMap_octet (bits : List Bool) (k : Nat) :
    (List.range k).flatMap (octet bits) = (List.range (8 * k)).map fun t => bits.getD t false := by
  induction k with
  | zero => rfl
  | succ k ih =>
    rw [List.range_succ, List.flatMap_append, ih, Nat.mul_succ, List.range_add, List.map_append, List.map_map,
      List.flatMap_singleton]
    rfl

/-- Reading a list past its end gives pad bits. -/
theorem map_getD_range (bits : List Bool) (k : Nat) :
    (List.range (bits.length + k)).map (fun t => bits.getD t false) = bits ++ List.replicate k false := by
  refine List.ext_getElem (by simp) fun t _ _ => ?_
  by_cases ht : t < bits.length
  · simp [ht]
  · simp [List.getElem_append_right (Nat.le_of_not_lt ht), Nat.le_of_not_lt ht]

/-- The stored bytes hold the stream and its pad of zero bits, and nothing else. -/
theorem unpack_pack (o : BitOrder) (bits : List Bool) :
    unpack o (pack o bits) = bits ++ List.replicate (padLength bits.length) false := by
  calc unpack o (pack o bits)
      = (List.range (bytesFor bits.length)).flatMap (octet bits) := by
        simp only [unpack, pack, List.flatMap_map, bitsOfByte_byteAt]
    _ = (List.range (bits.length + padLength bits.length)).map fun t => bits.getD t false := by
        rw [flatMap_octet, add_padLength]
    _ = bits ++ List.replicate (padLength bits.length) false := map_getD_range bits _

/-! ## Token lists -/

theorem decodeTokens_cons {o : BitOrder} {pr : Params} {k : Nat} {bits rest rest' : List Bool} {i : Instr}
    {is : List Instr} (hi : decodeToken o pr bits = .ok (i, rest)) (his : decodeTokens o pr k rest = .ok (is, rest')) :
    decodeTokens o pr (k + 1) bits = .ok (i :: is, rest') := by
  simp only [decodeTokens, hi, his]

/-- A list of well-formed tokens at the head of a stream is read as itself, and nothing after it is touched. -/
theorem decodeTokens_tokenBits_append (o : BitOrder) {pr : Params} {toks : List Instr}
    (h : ∀ i ∈ toks, i.isToken = true ∧ i.wf pr = true) (rest : List Bool) :
    decodeTokens o pr toks.length (toks.flatMap (tokenBits o pr) ++ rest) = .ok (toks, rest) := by
  induction toks with
  | nil => rfl
  | cons i toks ih =>
    obtain ⟨⟨htok, hwf⟩, htoks⟩ := List.forall_mem_cons.1 h
    rw [List.flatMap_cons, List.append_assoc]
    exact decodeTokens_cons (decodeToken_tokenBits_append o htok hwf _) (ih htoks)

end Sys2Proof.Machine

open Sys2Proof Sys2Proof.Machine

/-- Settles O6: by induction on the tokens, each read from the head of what the bytes unpack to. -/
theorem streamSymmetry : Obligations.StreamSymmetry := by
  intro o pr toks h
  refine ⟨padLength (toks.flatMap (tokenBits o pr)).length, padLength_lt _, ?_⟩
  rw [assemble, unpack_pack]
  exact decodeTokens_tokenBits_append o h _

end

section
/-! PROOFS. 41_framer R131: a field read from SRC, and the bits of its value. -/

namespace Sys2Proof.Machine

theorem State.streamBits_getD (s : State) (t : Nat) {w i : Nat} (h : i < w) :
    (s.streamBits t w).getD i false = s.streamBit (t + i) := by
  simp [State.streamBits, h]

/-- With LSB the first stream bit of a field is its least significant (R72). -/
theorem fieldValue_lsb_testBit {bits : List Bool} {i : Nat} (h : i < bits.length) :
    (fieldValue .lsb bits).testBit i = bits.getD i false := by
  rw [← fieldBits_lsb_getD _ h, fieldBits_fieldValue]

/-- With MSB it is the most significant. -/
theorem fieldValue_msb_testBit {bits : List Bool} {i : Nat} (h : i < bits.length) :
    (fieldValue .msb bits).testBit (bits.length - 1 - i) = bits.getD i false := by
  rw [← fieldBits_msb_getD _ h, fieldBits_fieldValue]

end Sys2Proof.Machine

open Sys2Proof Sys2Proof.Machine

/-- Settles O18: the field's bits one by one, each as it lies in SRC and as it weighs in the value. -/
theorem getBitsReadsField : Obligations.GetBitsReadsField := by
  intro w s
  refine ⟨getBits_of_gt, fun hle => ⟨s.streamBits s.eng.ibits w, getBits_of_le hle, s.streamBits_length _ _, ?_, ?_⟩⟩
  · simpa using fieldValue_lt s.hw.order (s.streamBits s.eng.ibits w)
  · intro i hi
    have hlen : (s.streamBits s.eng.ibits w).length = w := s.streamBits_length _ _
    refine ⟨by omega, s.streamBits_getD _ hi, fun ho => ?_, fun ho => ?_⟩
    · rw [ho, fieldValue_lsb_testBit (hi.trans_eq hlen.symm)]
    · have hbit := fieldValue_msb_testBit (hi.trans_eq hlen.symm)
      rw [hlen] at hbit
      rw [ho, hbit]

end

section
/-! PROOFS. 41_framer R122 to R124, R128: what the writer has written after each bit put, when a bit does not fit, and
the partial byte FLUSH stores. -/

namespace Sys2Proof.Machine

/-! ## One bit (R122) -/

theorem posIn_lt (o : BitOrder) (t : Nat) : posIn o t < 8 := by
  cases o <;> simp only [posIn] <;> omega

theorem setBit_same {p : Nat} (a : Byte) (b : Bool) (h : p < 8) : (setBit a p b).getLsbD p = b := by
  cases b <;> simp [setBit, h]

/-- OACC with the bit put in it has that bit at its position. -/
theorem accBit_oacc_same (b : Bool) (s : State) :
    (accBit b s).eng.oacc.getLsbD (posIn s.hw.order s.eng.obits) = b :=
  setBit_same _ b (posIn_lt _ _)

/-- The earlier bits of the partial byte stay in OACC as they were. -/
theorem accBit_oacc_earlier (b : Bool) {s : State} {t : Nat} (hlt : t < s.eng.obits)
    (hbyte : s.eng.obits / 8 ≤ t / 8) :
    (accBit b s).eng.oacc.getLsbD (posIn s.hw.order t) = s.eng.oacc.getLsbD (posIn s.hw.order t) := by
  refine setBit_other _ b fun he => ?_
  have := posIn_inj he
  omega

theorem putBit_obits {b : Bool} {s t : State} (h : putBit b s = .ok t) : t.eng.obits = s.eng.obits + 1 := by
  rcases putBit_ok h with ⟨-, rfl⟩ | ⟨-, -, rfl⟩ <;> rfl

/-- Where stream bit j lies after a bit is put: in a byte stored before, or in the byte OACC held as the bit came in,
stored by now or not. -/
theorem putBit_writtenBit {b : Bool} {s t : State} (h : putBit b s = .ok t) {j : Nat} (hj : j ≤ s.eng.obits) :
    t.writtenBit j =
      if j / 8 < s.eng.obits / 8 then (s.dst.read (j / 8)).getLsbD (posIn s.hw.order j)
      else (accBit b s).eng.oacc.getLsbD (posIn s.hw.order j) := by
  rcases putBit_ok h with ⟨h8, rfl⟩ | ⟨h8, -, rfl⟩
  · have hdiv : (s.eng.obits + 1) / 8 = s.eng.obits / 8 := by omega
    show (if j / 8 < (s.eng.obits + 1) / 8 then _ else _) = _
    rw [hdiv]
    rfl
  · have hdiv : j / 8 < (s.eng.obits + 1) / 8 := by omega
    unfold State.writtenBit
    dsimp only
    rw [if_pos hdiv, Dest.read_write]
    by_cases hlt : j / 8 < s.eng.obits / 8
    · rw [if_neg (Nat.ne_of_lt hlt), if_pos hlt]
    · have hbyte : j / 8 = s.eng.obits / 8 := by omega
      rw [if_pos hbyte, if_neg hlt]

theorem putBit_writtenBit_last {b : Bool} {s t : State} (h : putBit b s = .ok t) : t.writtenBit s.eng.obits = b := by
  rw [putBit_writtenBit h (Nat.le_refl _), if_neg (Nat.lt_irrefl _), accBit_oacc_same]

theorem putBit_writtenBit_earlier {b : Bool} {s t : State} (h : putBit b s = .ok t) {j : Nat} (hj : j < s.eng.obits) :
    t.writtenBit j = s.writtenBit j := by
  rw [putBit_writtenBit h (Nat.le_of_lt hj), State.writtenBit]
  by_cases hbyte : j / 8 < s.eng.obits / 8
  · rw [if_pos hbyte, if_pos hbyte]
  · rw [if_neg hbyte, if_neg hbyte, accBit_oacc_earlier b hj (Nat.le_of_not_lt hbyte)]

theorem putBit_written {b : Bool} {s t : State} (h : putBit b s = .ok t) : t.written = s.written ++ [b] := by
  have hearlier : (List.range s.eng.obits).map t.writtenBit = s.written :=
    List.map_congr_left fun j hj => putBit_writtenBit_earlier h (List.mem_range.1 hj)
  rw [State.written, putBit_obits h, List.range_succ, List.map_append, hearlier, List.map_singleton,
    putBit_writtenBit_last h]

/-! ## A list of bits (R124) -/

theorem putBits_cons_ok {b : Bool} {bits : List Bool} {s t : State} (h : putBits (b :: bits) s = .ok t) :
    ∃ u, putBit b s = .ok u ∧ putBits bits u = .ok t := by
  simp only [putBits] at h
  split at h
  · exact ⟨_, ‹_›, h⟩
  · cases h

theorem putBits_cons_error {b : Bool} {bits : List Bool} {s : State} {e : ErrCode × State}
    (h : putBits (b :: bits) s = .error e) :
    putBit b s = .error e ∨ ∃ u, putBit b s = .ok u ∧ putBits bits u = .error e := by
  simp only [putBits] at h
  split at h
  · exact .inr ⟨_, ‹_›, h⟩
  · cases h
    exact .inl ‹_›

theorem putBits_written {bits : List Bool} {s t : State} (h : putBits bits s = .ok t) :
    t.written = s.written ++ bits := by
  induction bits generalizing s with
  | nil =>
    obtain rfl : s = t := by simpa [putBits] using h
    simp
  | cons b bits ih =>
    obtain ⟨u, hu, ht⟩ := putBits_cons_ok h
    rw [ih ht, putBit_written hu, List.append_assoc, List.singleton_append]

/-- Bits that fail to be put complete a byte at DST_CAP or above (R123). -/
theorem putBits_error_capacity {bits : List Bool} {s : State} {e : ErrCode × State} (h : putBits bits s = .error e) :
    s.regs.dstCap.toNat < (s.eng.obits + bits.length) / 8 := by
  induction bits generalizing s with
  | nil => cases h
  | cons b bits ih =>
    rw [List.length_cons]
    rcases putBits_cons_error h with he | ⟨u, hu, he⟩
    · obtain ⟨h8, hk, -⟩ := putBit_error he
      omega
    · have hrest := ih he
      rw [(engineFrame_putBit hu).regs, putBit_obits hu] at hrest
      omega

/-! ## FLUSH (R128) -/

theorem storeByte_of_lt {k : Nat} (v : Byte) {s : State} (h : k < s.regs.dstCap.toNat) :
    storeByte k v s = .ok (s.putDst k v) := if_neg (Nat.not_le.2 h)

theorem storeByte_of_le {k : Nat} (v : Byte) {s : State} (h : s.regs.dstCap.toNat ≤ k) :
    storeByte k v s = .error (.capacity, s) := if_pos h

theorem flush_whole {s : State} (h : s.eng.obits % 8 = 0) : flush s = .ok s := if_pos h

theorem flush_partial {s : State} (h : s.eng.obits % 8 ≠ 0) :
    flush s = storeByte (s.eng.obits / 8) s.eng.oacc s := if_neg h

theorem step_of_cFlush {s : State} (hin : s.host.inputs = []) (hp : s.eng.phase = .cFlush) :
    step s = engineFlush s := by
  simp [step, engineStep, hin, hp]

theorem engineFlush_of_error {s : State} {code : ErrCode} {u : State} (h : flush s = .error (code, u)) :
    engineFlush s = .next (abort code u) := by
  simp only [engineFlush, h, settle]

theorem engineFlush_of_ok {s t : State} (h : flush s = .ok t) :
    engineFlush s = .next (succeed (BitVec.ofNat 32 (bytesFor t.eng.obits)) t.regs.srcLen t) := by
  simp only [engineFlush, h]

theorem EngineFrame.succeeded {s u : State} (f : EngineFrame s u) (out used : Word) :
    Succeeded out used s (succeed out used u) :=
  succeed_succeeded out used f.regs f.hw f.src f.place f.host f.unseen f.dstAbove

theorem EngineFrame.failed {s u : State} (f : EngineFrame s u) {code : ErrCode} (hcode : code ≠ .ok) :
    Failed code s (abort code u) :=
  abort_failed code hcode f.regs f.hw f.src f.place f.host f.unseen f.dstAbove

end Sys2Proof.Machine

open Sys2Proof.Machine

/-- Settles O16: by induction on the bits; each stays where PUT_BIT put it, in OACC or in the byte it completes. -/
theorem putBitsAppends : Obligations.PutBitsAppends := by
  intro bits s t hw h
  obtain ⟨hframe, -, hread, -, -⟩ := putBits_frame h
  exact ⟨putBits_written h, putBits_writerOk hw h, hframe, hread⟩

/-- Settles O17: bits put without error fit DST_CAP, and bits that fail do not. -/
theorem putBitsFailsAtCapacity : Obligations.PutBitsFailsAtCapacity := by
  intro bits s hs
  refine ⟨⟨?_, fun hfit => ?_⟩, fun code t h => (putBits_error h).1⟩
  · rintro ⟨t, h⟩
    obtain ⟨-, -, -, -, hfit⟩ := putBits_frame h
    exact hfit hs
  · cases h : putBits bits s with
    | ok t => exact ⟨t, rfl⟩
    | error e => exact absurd (putBits_error_capacity h) (Nat.not_lt.2 hfit)

/-- Settles O23: no partial byte, one that fits, and one that does not. -/
theorem flushCompletesCompress : Obligations.FlushCompletesCompress := by
  intro s hin hp
  simp only [step_of_cFlush hin hp]
  refine ⟨fun hpart hcap => ?_, fun hfit => ?_⟩
  · have hflush := (flush_partial hpart).trans (storeByte_of_le _ hcap)
    exact ⟨_, engineFlush_of_error hflush, (EngineFrame.refl s).failed nofun⟩
  · by_cases hpart : s.eng.obits % 8 = 0
    · have hflush := flush_whole hpart
      refine ⟨_, engineFlush_of_ok hflush, (engineFrame_flush hflush).succeeded _ _, fun a => ?_⟩
      rw [succeed_dst, if_neg fun h => h.1 hpart]
    · have hlt : s.eng.obits / 8 < s.regs.dstCap.toNat := Nat.lt_of_not_le fun hcap => hfit ⟨hpart, hcap⟩
      have hflush := (flush_partial hpart).trans (storeByte_of_lt _ hlt)
      refine ⟨_, engineFlush_of_ok hflush, (engineFrame_flush hflush).succeeded _ _, fun a => ?_⟩
      rw [succeed_dst, State.putDst_read]
      simp only [ne_eq, hpart, not_false_eq_true, true_and]

end

section
/-! PROOFS. 42_match_engine R150 to R156: the match length, the match FIND leaves and the token EMIT chooses from it. -/

namespace Sys2Proof.Machine

/-! ## The match length (R150) -/

theorem commonPrefix_agrees {f : Nat → Byte} {a b cap i : Nat} (h : i < commonPrefix f a b cap) :
    f (a + i) = f (b + i) := by
  induction cap generalizing a b i with
  | zero => exact absurd h (Nat.not_lt_zero i)
  | succ cap ih =>
    simp only [commonPrefix] at h
    split at h
    · cases i with
      | zero => assumption
      | succ i =>
        rw [← Nat.succ_add_eq_add_succ, ← Nat.succ_add_eq_add_succ]
        exact ih (Nat.lt_of_succ_lt_succ h)
    · exact absurd h (Nat.not_lt_zero i)

/-- The run does not stop before the bytes differ. -/
theorem le_commonPrefix {f : Nat → Byte} {a b cap l : Nat} (hl : l ≤ cap)
    (h : ∀ i, i < l → f (a + i) = f (b + i)) : l ≤ commonPrefix f a b cap := by
  induction cap generalizing a b l with
  | zero => exact Nat.le_trans hl (Nat.zero_le _)
  | succ cap ih =>
    cases l with
    | zero => exact Nat.zero_le _
    | succ l =>
      have hfirst : f a = f b := h 0 (Nat.succ_pos l)
      have hrest : l ≤ commonPrefix f (a + 1) (b + 1) cap :=
        ih (Nat.le_of_succ_le_succ hl) fun i hi => by
          rw [Nat.succ_add_eq_add_succ, Nat.succ_add_eq_add_succ]
          exact h (i + 1) (Nat.succ_lt_succ hi)
      rw [commonPrefix, if_pos hfirst]
      exact Nat.succ_le_succ hrest

/-! ## The search (R153, R154) -/

/-- What FIND keeps of the offsets 1..m: the longest match and the smallest offset that has it, or 0 and 0. -/
structure LongestOf (ml : Nat → Nat) (m : Nat) (b : Best) : Prop where
  longest : ∀ x, 1 ≤ x → x ≤ m → ml x ≤ b.len
  found   : (b.len = 0 ∧ b.off = 0) ∨
    (0 < b.len ∧ 1 ≤ b.off ∧ b.off ≤ m ∧ ml b.off = b.len ∧ ∀ x, 1 ≤ x → x < b.off → ml x < b.len)

theorem longestOf_none (ml : Nat → Nat) : LongestOf ml 0 { len := 0, off := 0 } :=
  ⟨fun _ h1 h0 => absurd (Nat.le_trans h1 h0) (by decide), .inl ⟨rfl, rfl⟩⟩

/-- A match that is not longer leaves the best as it is, so that of equal ones the nearest stays. -/
theorem LongestOf.keep {ml : Nat → Nat} {m : Nat} {b : Best} (h : LongestOf ml m b) (hle : ml (m + 1) ≤ b.len) :
    LongestOf ml (m + 1) b := by
  refine ⟨fun x h1 hx => ?_, h.found.imp_right ?_⟩
  · obtain hx | rfl := Nat.le_succ_iff.1 hx
    · exact h.longest x h1 hx
    · exact hle
  · rintro ⟨hpos, h1, hm, hml, hfirst⟩
    exact ⟨hpos, h1, Nat.le_succ_of_le hm, hml, hfirst⟩

theorem LongestOf.replace {ml : Nat → Nat} {m : Nat} {b : Best} (h : LongestOf ml m b) (hlt : b.len < ml (m + 1)) :
    LongestOf ml (m + 1) { len := ml (m + 1), off := m + 1 } := by
  have hshorter (x : Nat) (h1 : 1 ≤ x) (hx : x < m + 1) : ml x < ml (m + 1) :=
    Nat.lt_of_le_of_lt (h.longest x h1 (Nat.le_of_lt_succ hx)) hlt
  refine ⟨fun x h1 hx => ?_, .inr ⟨Nat.zero_lt_of_lt hlt, Nat.succ_pos m, Nat.le_refl _, rfl, hshorter⟩⟩
  obtain hx | rfl := Nat.lt_or_eq_of_le hx
  · exact Nat.le_of_lt (hshorter x h1 hx)
  · exact Nat.le_refl _

theorem scanOffsets_longestOf {ml : Nat → Nat} {m : Nat} (k : Nat) {b : Best} (h : LongestOf ml m b) :
    LongestOf ml (m + k) (scanOffsets ml (m + 1) k b) := by
  induction k generalizing m b with
  | zero => exact h
  | succ k ih =>
    rw [← Nat.succ_add_eq_add_succ, scanOffsets]
    split
    · exact ih (h.replace ‹_›)
    · exact ih (h.keep (Nat.le_of_not_lt ‹_›))

theorem findMatch_of_lt {pr : Params} (f : Nat → Byte) {n pos : Nat} (h : matchCap pr n pos < pr.p) :
    findMatch pr f n pos = { len := 0, off := 0 } := if_neg (Nat.not_le.2 h)

theorem findMatch_longestOf {pr : Params} (f : Nat → Byte) {n pos : Nat} (h : pr.p ≤ matchCap pr n pos) :
    LongestOf (matchLength pr f n pos) (min (winSize pr) pos) (findMatch pr f n pos) := by
  rw [findMatch, if_pos h, ← Nat.zero_add (min (winSize pr) pos)]
  simpa using scanOffsets_longestOf (min (winSize pr) pos) (longestOf_none (matchLength pr f n pos))

theorem step_of_cFind {s : State} (hin : s.host.inputs = []) (hp : s.eng.phase = .cFind) : step s = engineFind s := by
  simp [step, engineStep, hin, hp]

/-- The match FIND leaves in s. -/
def State.found (s : State) : Best := findMatch s.params s.srcByte s.regs.srcLen.toNat s.eng.pos

theorem engineFind_of_lt {s : State} (h : s.eng.pos < s.regs.srcLen.toNat) :
    engineFind s =
      .next { s with eng.bestLen := s.found.len, eng.bestOff := s.found.off, eng.phase := .cEmit } := if_pos h

theorem engineFind_of_le {s : State} (h : s.regs.srcLen.toNat ≤ s.eng.pos) :
    engineFind s = .next { s with eng.phase := .cFlush } := if_neg (Nat.not_lt.2 h)

/-! ## The token (R155, R156) -/

theorem chooseToken_of_le {pr : Params} (f : Nat → Byte) (pos : Nat) {best : Best} (h : pr.p ≤ best.len) :
    chooseToken pr f pos best = .matchTok best.off best.len := if_pos h

theorem chooseToken_of_lt {pr : Params} (f : Nat → Byte) (pos : Nat) {best : Best} (h : best.len < pr.p) :
    chooseToken pr f pos best = .lit (f pos) := if_neg (Nat.not_le.2 h)

theorem consumed_of_le {pr : Params} {best : Best} (h : pr.p ≤ best.len) : consumed pr best = best.len := if_pos h

theorem consumed_of_lt {pr : Params} {best : Best} (h : best.len < pr.p) : consumed pr best = 1 :=
  if_neg (Nat.not_le.2 h)

theorem chooseToken_eq_matchTok {pr : Params} {f : Nat → Byte} {pos off len : Nat} {best : Best}
    (h : chooseToken pr f pos best = .matchTok off len) : pr.p ≤ best.len ∧ best.off = off ∧ best.len = len := by
  unfold chooseToken at h
  split at h
  · cases h
    exact ⟨‹_›, rfl, rfl⟩
  · cases h

/-- A match FIND leaves that is long enough to be emitted has an offset of its own (R155). -/
theorem findMatch_off {pr : Params} {f : Nat → Byte} {n pos : Nat} (hp : 1 ≤ pr.p)
    (h : pr.p ≤ (findMatch pr f n pos).len) :
    1 ≤ (findMatch pr f n pos).off ∧ (findMatch pr f n pos).off ≤ min (winSize pr) pos :=
  (findMatch_bestOk pr f n pos).off (Nat.lt_of_lt_of_le hp h)

end Sys2Proof.Machine

open Sys2Proof Sys2Proof.Machine

/-- Settles O19: the run agrees as far as it goes, and stops at a difference or at the cap. -/
theorem matchLengthIsLongestRun : Obligations.MatchLengthIsLongestRun := by
  intro pr f n pos off _ _ _
  exact ⟨commonPrefix_le f _ _ _, fun _ => commonPrefix_agrees, fun _ => le_commonPrefix⟩

/-- Settles O20: by induction on the offsets scanned, in ascending order. -/
theorem findLeavesLongestAtSmallestOffset : Obligations.FindLeavesLongestAtSmallestOffset := by
  intro s hin hp hpos
  have hstep := (step_of_cFind hin hp).trans (engineFind_of_lt hpos)
  refine ⟨s.found.len, s.found.off, hstep, fun hcap => ?_, fun hcap => ?_⟩
  · rw [State.found, findMatch_of_lt s.srcByte hcap]
    exact ⟨rfl, rfl⟩
  · obtain ⟨hlongest, hfound⟩ := findMatch_longestOf s.srcByte hcap
    exact ⟨hlongest, hfound⟩

/-- Settles O21: no match found is longer than CAP, and only one of P bytes or more is emitted. -/
theorem emittedMatchIsLegal : Obligations.EmittedMatchIsLegal := by
  intro pr f n pos hp _
  have hlen := (findMatch_bestOk pr f n pos).len
  refine ⟨fun off len h => ?_, fun hmax => ?_⟩
  · obtain ⟨hle, rfl, rfl⟩ := chooseToken_eq_matchTok h
    obtain ⟨hoff1, hoff2⟩ := findMatch_off hp hle
    exact ⟨hoff1, hoff2, hle, hlen.trans (Nat.min_le_left _ _), hlen.trans (Nat.min_le_right _ _)⟩
  · exact chooseToken_of_lt f pos (Nat.lt_of_le_of_lt (hlen.trans (matchCap_le_lmax pr n pos)) hmax)

end

section
/-! PROOFS. 42_match_engine R165: the decoder takes the encoder's tokens back to the bytes they consumed, one token at a
time. -/

namespace Sys2Proof.Machine

/-! ## The bytes of a match are those it repeats (R150) -/

/-- A match of P bytes or more was found at the length it has. -/
theorem findMatch_len {pr : Params} {f : Nat → Byte} {n pos : Nat} (hp : 1 ≤ pr.p)
    (h : pr.p ≤ (findMatch pr f n pos).len) :
    matchLength pr f n pos (findMatch pr f n pos).off = (findMatch pr f n pos).len := by
  have hcap : pr.p ≤ matchCap pr n pos := h.trans (findMatch_bestOk pr f n pos).len
  obtain ⟨hnone, -⟩ | ⟨-, -, -, hml, -⟩ := (findMatch_longestOf f hcap).found
  · omega
  · exact hml

theorem findMatch_agrees {pr : Params} {f : Nat → Byte} {n pos i : Nat} (hp : 1 ≤ pr.p)
    (h : pr.p ≤ (findMatch pr f n pos).len) (hi : i < (findMatch pr f n pos).len) :
    f (pos - (findMatch pr f n pos).off + i) = f (pos + i) :=
  commonPrefix_agrees (by rw [← findMatch_len hp h] at hi; exact hi)

/-! ## The copy (43_decoder R190) -/

theorem histByte_of_le {fill : Byte} {h : List Byte} {off : Nat} (hoff : off ≤ h.length) :
    histByte fill h off = h.getD (h.length - off) fill := if_pos hoff

theorem appendMatch_succ {fill : Byte} {dstlen off : Nat} {h : List Byte} (k : Nat) (hlt : h.length < dstlen) :
    appendMatch fill dstlen off (k + 1) h = appendMatch fill dstlen off k (h ++ [histByte fill h off]) := if_pos hlt

/-- In a history that is the input's beginning, an offset within it reads the input's own byte. -/
theorem histByte_take (fill : Byte) {input : List Byte} {pos off : Nat} (h1 : 1 ≤ off) (hoff : off ≤ pos)
    (hpos : pos < input.length) : histByte fill (input.take pos) off = input.getD (pos - off) 0#8 := by
  have hlen : (input.take pos).length = pos := List.length_take_of_le (Nat.le_of_lt hpos)
  have hlt : pos - off < pos := by omega
  rw [histByte_of_le (hoff.trans_eq hlen.symm), hlen]
  simp [List.getD_eq_getElem?_getD, hlt, Nat.lt_trans hlt hpos]

theorem take_concat_getD {input : List Byte} {pos : Nat} (h : pos < input.length) :
    input.take pos ++ [input.getD pos 0#8] = input.take (pos + 1) := by
  rw [List.getD_eq_getElem _ _ h, List.take_concat_get']

/-- Copying from off back, the bytes just copied among them, goes on along the input as far as it agrees with itself off
back (40_window R106). -/
theorem appendMatch_take (fill : Byte) {input : List Byte} {pos off k : Nat} (h1 : 1 ≤ off) (hoff : off ≤ pos)
    (hk : pos + k ≤ input.length)
    (hagree : ∀ i, i < k → input.getD (pos - off + i) 0#8 = input.getD (pos + i) 0#8) :
    appendMatch fill input.length off k (input.take pos) = input.take (pos + k) := by
  induction k generalizing pos with
  | zero => rfl
  | succ k ih =>
    have hpos : pos < input.length := by omega
    have hlen : (input.take pos).length < input.length := by rwa [List.length_take_of_le (Nat.le_of_lt hpos)]
    have hbyte : input.getD (pos - off) 0#8 = input.getD pos 0#8 := hagree 0 (Nat.succ_pos k)
    have hnext := ih (pos := pos + 1) (Nat.le_succ_of_le hoff) (by omega) fun i hi => by
      rw [Nat.sub_add_comm hoff, Nat.succ_add_eq_add_succ, Nat.succ_add_eq_add_succ]
      exact hagree (i + 1) (Nat.succ_lt_succ hi)
    rw [appendMatch_succ k hlen, histByte_take fill h1 hoff hpos, hbyte, take_concat_getD hpos, hnext,
      Nat.succ_add_eq_add_succ]

/-! ## One token -/

/-- LMAX is the longest length that has a field (00_scope R10). -/
theorem lenEncodable_of_le_lmax {pr : Params} {len : Nat} (h1 : pr.p ≤ len) (h2 : len ≤ lmax pr) :
    lenEncodable pr len = true := by
  have := Nat.two_pow_pos pr.ej
  cases hr : pr.rless with
  | true =>
    simp only [lmax, lenEncodable, hr, if_true, Bool.and_eq_true, decide_eq_true_eq] at h2 ⊢
    omega
  | false =>
    simp only [lmax, lenEncodable, hr, Bool.false_eq_true, if_false, decide_eq_true_eq] at h2 ⊢
    omega

section
variable {pr : Params} (hp : 1 ≤ pr.p)
include hp

/-- A token consumes at least one byte (R157). -/
theorem consumed_pos (best : Best) : 1 ≤ consumed pr best := by
  unfold consumed
  split
  · exact hp.trans ‹_›
  · exact Nat.le_refl 1

/-- The token EMIT chooses has an encoding (R155). -/
theorem chooseToken_wf (f : Nat → Byte) (n pos : Nat) :
    (chooseToken pr f pos (findMatch pr f n pos)).isToken = true ∧
      (chooseToken pr f pos (findMatch pr f n pos)).wf pr = true := by
  by_cases hle : pr.p ≤ (findMatch pr f n pos).len
  · rw [chooseToken_of_le f pos hle]
    obtain ⟨hoff1, hoff2⟩ := findMatch_off hp hle
    have hmax := (findMatch_bestOk pr f n pos).len.trans (matchCap_le_lmax pr n pos)
    exact ⟨rfl, (Bool.and_eq_true _ _).mpr
      ⟨offEncodable_iff.2 ⟨hoff1, hoff2.trans (Nat.min_le_left _ _)⟩, lenEncodable_of_le_lmax hle hmax⟩⟩
  · rw [chooseToken_of_lt f pos (Nat.lt_of_not_le hle)]
    exact ⟨rfl, rfl⟩

/-- The decoder's token takes the history on by the bytes the encoder's consumed. -/
theorem applyToken_chooseToken (fill : Byte) {input : List Byte} {pos : Nat} (hpos : pos < input.length) :
    let f := fun i => input.getD i 0#8
    let best := findMatch pr f input.length pos
    applyToken fill pr input.length (chooseToken pr f pos best) (input.take pos) =
      .ok (input.take (pos + consumed pr best)) := by
  intro f best
  by_cases hle : pr.p ≤ best.len
  · obtain ⟨hoff1, hoff2⟩ : 1 ≤ best.off ∧ best.off ≤ min (winSize pr) pos := findMatch_off hp hle
    have hN : ¬ (best.off < 1 ∨ winSize pr < best.off) := by omega
    have hlen : best.len ≤ input.length - pos := consumed_of_le hle ▸ consumed_findMatch_le pr f hpos
    have hfit : pos + best.len ≤ input.length := by omega
    rw [chooseToken_of_le f pos hle, consumed_of_le hle, applyToken, if_neg hN,
      if_neg fun h => Nat.not_lt.2 hle h.2]
    exact congrArg _ (appendMatch_take fill hoff1 (hoff2.trans (Nat.min_le_right _ _)) hfit fun i hi =>
      findMatch_agrees hp hle hi)
  · have hlt : best.len < pr.p := Nat.lt_of_not_le hle
    rw [chooseToken_of_lt f pos hlt, consumed_of_lt hlt, applyToken, take_concat_getD hpos]

end

/-! ## The whole stream -/

theorem greedyTokens_of_lt {pr : Params} {f : Nat → Byte} {n pos : Nat} (fuel : Nat) (h : pos < n) :
    greedyTokens pr f n (fuel + 1) pos =
      chooseToken pr f pos (findMatch pr f n pos) ::
        greedyTokens pr f n fuel (pos + consumed pr (findMatch pr f n pos)) := if_pos h

theorem greedyTokens_of_le {pr : Params} {f : Nat → Byte} {n pos : Nat} (fuel : Nat) (h : n ≤ pos) :
    greedyTokens pr f n fuel pos = [] := by
  cases fuel with
  | zero => rfl
  | succ fuel => exact if_neg (Nat.not_lt.2 h)

theorem tokenBits_length_pos (o : BitOrder) (pr : Params) {i : Instr} (h : i.isToken = true) :
    0 < (tokenBits o pr i).length := by
  cases i with
  | lit c => rw [tokenBits_lit_length]; omega
  | matchTok off len => rw [tokenBits_matchTok_length]; omega
  | nop => cases h
  | compress => cases h
  | decompress => cases h
  | reserved w => cases h

theorem decodeFrom_done {o : BitOrder} {fill : Byte} {pr : Params} {dstlen fuel : Nat} {h : List Byte}
    (bits : List Bool) (hfuel : 0 < fuel) (hlen : h.length = dstlen) :
    decodeFrom o fill pr dstlen fuel h bits = .ok (h, bits) := by
  obtain ⟨fuel, rfl⟩ := Nat.exists_eq_succ_of_ne_zero (Nat.ne_of_gt hfuel)
  exact if_pos hlen

theorem decodeFrom_token {o : BitOrder} {fill : Byte} {pr : Params} {dstlen fuel : Nat} {h h' : List Byte}
    {bits rest : List Bool} {i : Instr} (hlen : h.length ≠ dstlen) (hi : decodeToken o pr bits = .ok (i, rest))
    (happly : applyToken fill pr dstlen i h = .ok h') :
    decodeFrom o fill pr dstlen (fuel + 1) h bits = decodeFrom o fill pr dstlen fuel h' rest := by
  rw [decodeFrom, if_neg hlen]
  simp only [hi, happly]

/-- At the end of the input no token is left. -/
theorem decodeFrom_greedyTokens_end (o : BitOrder) (fill : Byte) (pr : Params) (f : Nat → Byte) {input : List Byte}
    (after : List Bool) (fuel : Nat) {pos dfuel : Nat} (hpos : input.length ≤ pos) (hdfuel : 0 < dfuel) :
    decodeFrom o fill pr input.length dfuel (input.take pos)
      ((greedyTokens pr f input.length fuel pos).flatMap (tokenBits o pr) ++ after) = .ok (input, after) := by
  rw [greedyTokens_of_le fuel hpos, List.take_of_length_le hpos]
  exact decodeFrom_done after hdfuel rfl

/-- From the bytes before pos the decoder goes on to the whole input, and leaves what stands behind the tokens. Every
token consumes a byte and takes a bit, so neither side runs out of fuel. -/
theorem decodeFrom_greedyTokens (o : BitOrder) (fill : Byte) {pr : Params} (hp : 1 ≤ pr.p) (input : List Byte)
    (after : List Bool) {fuel pos dfuel : Nat} (hfuel : input.length - pos ≤ fuel) :
    let bits := (greedyTokens pr (fun i => input.getD i 0#8) input.length fuel pos).flatMap (tokenBits o pr)
    bits.length < dfuel →
      decodeFrom o fill pr input.length dfuel (input.take pos) (bits ++ after) = .ok (input, after) := by
  induction fuel generalizing pos dfuel with
  | zero =>
    intro bits hdfuel
    exact decodeFrom_greedyTokens_end o fill pr _ after 0 (by omega) (Nat.zero_lt_of_lt hdfuel)
  | succ fuel ih =>
    intro bits hdfuel
    by_cases hlt : pos < input.length
    · obtain ⟨dfuel, rfl⟩ := Nat.exists_eq_succ_of_ne_zero (Nat.ne_zero_of_lt hdfuel)
      have hstep := consumed_pos hp (findMatch pr (fun i => input.getD i 0#8) input.length pos)
      have htake := applyToken_chooseToken hp fill hlt
      obtain ⟨htok, hwf⟩ := chooseToken_wf hp (fun i => input.getD i 0#8) input.length pos
      have hbit := tokenBits_length_pos o pr htok
      have hmore : (input.take pos).length ≠ input.length := by
        rw [List.length_take_of_le (Nat.le_of_lt hlt)]
        exact Nat.ne_of_lt hlt
      simp only [bits, greedyTokens_of_lt fuel hlt, List.flatMap_cons, List.length_append,
        List.append_assoc] at hdfuel ⊢
      rw [decodeFrom_token hmore (decodeToken_tokenBits_append o htok hwf _) htake]
      exact ih (by omega) (by omega)
    · exact decodeFrom_greedyTokens_end o fill pr _ after (fuel + 1) (Nat.le_of_not_lt hlt) (Nat.zero_lt_of_lt hdfuel)

theorem encodeBytes_ok {o : BitOrder} {pr : Params} {f : Nat → Byte} {n cap : Nat} {output : List Byte}
    (h : encodeBytes o pr f n cap = .ok output) : output = pack o (encodeStream o pr f n) := by
  simp only [encodeBytes] at h
  split at h
  · exact (Except.ok.inj h).symm
  · cases h

end Sys2Proof.Machine

open Sys2Proof Sys2Proof.Machine

/-- Settles O57: by induction on the tokens; what the decoder leaves of the output's bits is the pad. -/
theorem roundTrip : Obligations.RoundTrip := by
  intro h pr fill input output cap hlegal hencode
  simp only [legalParams, Bool.and_eq_true, decide_eq_true_eq] at hlegal
  obtain ⟨⟨-, hp⟩, -⟩ := hlegal
  obtain rfl := encodeBytes_ok hencode
  let bits := encodeStream h.order pr (fun i => input.getD i 0#8) input.length
  let pad := List.replicate (padLength bits.length) false
  have hbits : bits.length < (bits ++ pad).length + 1 := by
    rw [List.length_append]
    omega
  have hdecode : decodeFrom h.order fill pr input.length ((bits ++ pad).length + 1) [] (bits ++ pad) =
      .ok (input, pad) := decodeFrom_greedyTokens h.order fill hp input pad (Nat.sub_le _ _) hbits
  have hused : (bits ++ pad).length - pad.length = bits.length := by
    rw [List.length_append, Nat.add_sub_cancel]
  have hunpack : unpack h.order (pack h.order bits) = bits ++ pad := unpack_pack h.order bits
  simp only [decodeBytes, pack_length]
  rw [hunpack, hdecode]
  simp only [hused, bits]

end

section
/-! PROOFS. 42_match_engine R157 and 40_window R108: the step of C_EMIT. -/

namespace Sys2Proof.Machine

/-! ## The window's history goes on by the bytes written -/

theorem windowHolds_iff {s : State} {h : List Byte} :
    WindowHolds s h ↔ ∀ off, 1 ≤ off → off ≤ s.n → winReadback off s = .ok (histByte s.hw.fill h off) :=
  forall_congr' fun off => forall_congr' fun h1 => forall_congr' fun h2 => by
    rw [winReadback_ok h1 h2, Except.ok.injEq]

theorem WindowHolds.congr {s t : State} {h : List Byte} (hw : WindowHolds s h) (a : SameArgs s t)
    (hwin : t.win = s.win) : WindowHolds t h := by
  intro off h1 h2
  rw [State.n_eq a.cfg] at h2 ⊢
  rw [hwin, a.hw]
  exact hw off h1 h2

theorem histByte_one_concat (fill : Byte) (h : List Byte) (b : Byte) : histByte fill (h ++ [b]) 1 = b := by
  simp [histByte]

theorem histByte_succ_concat (fill : Byte) (h : List Byte) (b : Byte) {off : Nat} (h1 : 1 ≤ off) :
    histByte fill (h ++ [b]) (off + 1) = histByte fill h off := by
  simp only [histByte, List.length_append, List.length_singleton, Nat.add_le_add_iff_right, Nat.add_sub_add_right]
  split
  · exact List.getD_append _ _ _ _ (by omega)
  · rfl

theorem windowHolds_winWrite {s : State} {h : List Byte} (b : Byte) (hw : WindowHolds s h) (hc : s.win.cur < s.n) :
    WindowHolds (winWrite b s) (h ++ [b]) := by
  rw [windowHolds_iff] at *
  intro off h1 h2
  obtain _ | _ | off := off
  · contradiction
  · rw [histByte_one_concat]
    exact winReadback_one_winWrite b hc
  · rw [histByte_succ_concat _ _ _ (Nat.succ_pos off), winReadback_succ_winWrite b hc (Nat.succ_pos off) h2]
    exact hw (off + 1) (Nat.succ_pos off) (Nat.le_of_lt h2)

/-- The bytes a token consumes come after the window's history, in order. -/
theorem windowHolds_winConsume {s : State} {h : List Byte} (i k : Nat) (hw : WindowHolds s h) (hc : s.win.cur < s.n) :
    WindowHolds (winConsume i k s) (h ++ (List.range k).map fun j => s.srcByte (i + j)) := by
  induction k generalizing i s h with
  | zero => simpa [winConsume] using hw
  | succ k ih =>
    have hnext := ih (i + 1) (windowHolds_winWrite (s.srcByte i) hw hc) (Nat.mod_lt _ s.n_pos)
    have hsrc (j : Nat) : (winWrite (s.srcByte i) s).srcByte (i + 1 + j) = s.srcByte (i + (j + 1)) := by
      rw [Nat.succ_add_eq_add_succ]
      rfl
    simpa [winConsume, List.range_succ_eq_map, hsrc, Function.comp_def] using hnext

/-! ## The engine's step in C_EMIT -/

theorem step_of_cEmit {s : State} (hin : s.host.inputs = []) (hp : s.eng.phase = .cEmit) : step s = engineEmit s := by
  simp [step, engineStep, hin, hp]

theorem State.emitBits_eq (s : State) :
    s.emitBits = if s.params.p ≤ s.eng.bestLen then matchBits s.hw.order s.params s.eng.bestOff s.eng.bestLen
      else litBits s.hw.order (s.srcByte s.eng.pos) := by
  unfold State.emitBits chooseToken
  split <;> rfl

theorem State.emitCount_eq (s : State) :
    s.emitCount = if s.params.p ≤ s.eng.bestLen then s.eng.bestLen else 1 := rfl

/-- The state after EMIT: u has the token's bits written. -/
def State.emitted (s u : State) : State :=
  { winConsume s.eng.pos s.emitCount u with eng.pos := s.eng.pos + s.emitCount, eng.phase := .cFind }

theorem FoundOk.engineEmit_eq {s : State} (h : FoundOk s) : engineEmit s = settle (emit s) := if_pos h.emitCount_le

/-- What FIND left is emitted when the token's bits fit DST. -/
theorem engineEmit_of_fits {s : State} (hf : FoundOk s)
    (h : (s.eng.obits + s.emitBits.length) / 8 ≤ s.regs.dstCap.toNat) :
    ∃ u, putBits s.emitBits s = .ok u ∧ engineEmit s = .next (s.emitted u) := by
  cases hput : putBits s.emitBits s with
  | error e => exact absurd (putBits_error_capacity hput) (Nat.not_lt.2 h)
  | ok u =>
    refine ⟨u, rfl, ?_⟩
    unfold State.emitBits at hput
    rw [hf.engineEmit_eq, emit]
    simp only [hput]
    rfl

/-- Otherwise the command ends. -/
theorem engineEmit_of_full {s : State} (hf : FoundOk s) (hs : WriterOk s)
    (h : s.regs.dstCap.toNat < (s.eng.obits + s.emitBits.length) / 8) :
    ∃ u, EngineFrame s u ∧ engineEmit s = .next (abort .capacity u) := by
  cases hput : putBits s.emitBits s with
  | ok u =>
    obtain ⟨-, -, -, -, hfit⟩ := putBits_frame hput
    exact absurd (hfit hs.stored) (Nat.not_le.2 h)
  | error e =>
    obtain ⟨code, u⟩ := e
    obtain ⟨rfl, f⟩ := engineFrame_putBits_error hput
    refine ⟨u, f, ?_⟩
    unfold State.emitBits at hput
    rw [hf.engineEmit_eq, emit]
    simp only [hput]
    rfl

theorem engineFrame_emitted {s u : State} (hput : putBits s.emitBits s = .ok u) : EngineFrame s (s.emitted u) :=
  ((engineFrame_putBits hput).trans (engineFrame_winConsume _ _ u)).trans (engineFrame_eng_win _ _ _)

/-- EMIT changes the writer, DST, the window, POS and PHASE. -/
theorem emitted_eq {s u : State} (hput : putBits s.emitBits s = .ok u) :
    s.emitted u =
      { s with dst := (s.emitted u).dst, win := (s.emitted u).win, eng.pos := s.eng.pos + s.emitCount,
               eng.phase := .cFind, eng.obits := s.eng.obits + s.emitBits.length,
               eng.oacc := (s.emitted u).eng.oacc } := by
  have hu := (putBits_frame hput).1
  simp only [State.emitted]
  rw [(winConsume_frame s.eng.pos s.emitCount u).1, hu]

theorem emitted_dst (s u : State) : (s.emitted u).dst = u.dst := by
  rw [State.emitted, (winConsume_frame _ _ u).1]

theorem emitted_written {s u : State} (hput : putBits s.emitBits s = .ok u) :
    (s.emitted u).written = s.written ++ s.emitBits := by
  have hu : u.written = s.written ++ s.emitBits := putBits_written hput
  rw [State.emitted, (winConsume_frame _ _ u).1]
  exact hu

theorem emitted_read {s u : State} (hput : putBits s.emitBits s = .ok u) {a : Nat}
    (ha : a < s.eng.obits / 8 ∨ (s.eng.obits + s.emitBits.length) / 8 ≤ a) :
    (s.emitted u).dst.read a = s.dst.read a := by
  obtain ⟨-, -, hread, -⟩ := putBits_frame hput
  rw [emitted_dst, hread a ha]

/-- The window takes in the bytes of SRC the token consumes: the bits just written lie in no byte of SRC[0..SRC_LEN). -/
theorem emitted_windowHolds {s u : State} {h : List Byte} (hput : putBits s.emitBits s = .ok u)
    (hplaced : s.misplaced = none) (hf : FoundOk s) (hc : s.win.cur < s.n) (hw : WindowHolds s h) :
    WindowHolds (s.emitted u) (h ++ (List.range s.emitCount).map fun i => s.srcByte (s.eng.pos + i)) := by
  have f := engineFrame_putBits hput
  obtain ⟨hwin, -⟩ := putBits_win_cur hput
  have hsrc : (List.range s.emitCount).map (fun i => u.srcByte (s.eng.pos + i)) =
      (List.range s.emitCount).map fun i => s.srcByte (s.eng.pos + i) :=
    List.map_congr_left fun i hi => f.srcByte hplaced (by
      have := hf.emitCount_le
      have := List.mem_range.1 hi
      omega)
  have hcu : u.win.cur < u.n := by
    rw [hwin, State.n_eq f.sameArgs.cfg]
    exact hc
  rw [← hsrc]
  exact (windowHolds_winConsume s.eng.pos s.emitCount (hw.congr f.sameArgs hwin) hcu).congr (.of_regs rfl rfl) rfl

end Sys2Proof.Machine

open Sys2Proof Sys2Proof.Machine

/-- Settles O22: the bits put, then the bytes consumed; or the bits do not fit. -/
theorem emitWritesTokenAndConsumes : Obligations.EmitWritesTokenAndConsumes := by
  intro s h hi hin hp hw
  obtain ⟨henc, hf⟩ : EncoderOk s ∧ FoundOk s := by simpa [PhaseOk, hp] using hi.phase
  have hplaced : s.misplaced = none := hi.placed (hi.busy.2 (by simp [hp]))
  simp only [step_of_cEmit hin hp, ← State.emitBits_eq, ← State.emitCount_eq]
  refine ⟨fun hfits => ?_, fun hfull => ?_⟩
  · obtain ⟨u, hput, hemit⟩ := engineEmit_of_fits hf hfits
    exact ⟨s.emitted u, hemit, emitted_written hput, emitted_windowHolds hput hplaced hf henc.cursor hw,
      emitted_eq hput, fun a => emitted_read hput⟩
  · obtain ⟨u, f, hemit⟩ := engineEmit_of_full hf henc.writer (Nat.lt_of_not_le hfull)
    exact ⟨_, hemit, f.failed nofun⟩

end

section
/-! PROOFS. 42_match_engine R160: an accepted COMPRESS, left alone, takes the steps of ENCODE. -/

namespace Sys2Proof.Machine

/-! ## Runs -/

/-- Left alone, the machine comes from s to t. -/
def Reaches (s t : State) : Prop := ∃ k, Sys2Proof.core.run k s = .next t

theorem Reaches.refl (s : State) : Reaches s s := ⟨0, rfl⟩

theorem Reaches.head {s t u : State} (hstep : step s = .next t) (h : Reaches t u) : Reaches s u := by
  obtain ⟨k, hk⟩ := h
  refine ⟨k + 1, ?_⟩
  simp only [Host.Core.run, Host.Check.core_step, hstep]
  exact hk

theorem reaches_of_step {s t : State} (hstep : step s = .next t) : Reaches s t := (Reaches.refl t).head hstep

/-! ## A command that ends later -/

/-- A failure after steps that changed only what the engine may is the failure of the whole command. -/
theorem EngineFrame.trans_failed {s t u : State} {code : ErrCode} (f : EngineFrame s t) (h : Failed code t u) :
    Failed code s u where
  phase := h.phase
  status := h.status
  outCount := h.outCount
  args := f.regs ▸ h.args
  irqEn := f.regs ▸ h.irqEn
  hw := h.hw.trans f.hw
  src := ⟨h.src.1.trans f.src, h.src.2.trans f.place⟩
  host := h.host.trans f.host
  unseen := by rw [h.unseen, f.regs, f.unseen]
  dst a ha := (h.dst a (f.regs ▸ ha)).trans (f.dstAbove a ha)
  srcBytes ho _ hi :=
    State.srcByte_kept (h.src.1.trans f.src) (h.src.2.trans f.place)
      (fun a ha => (h.dst a (f.regs ▸ ha)).trans (f.dstAbove a ha)) ho hi

theorem EngineFrame.trans_succeeded {s t u : State} {out used : Word} (f : EngineFrame s t)
    (h : Succeeded out used t u) : Succeeded out used s u where
  phase := h.phase
  status := h.status
  results := h.results
  args := f.regs ▸ h.args
  irqEn := f.regs ▸ h.irqEn
  hw := h.hw.trans f.hw
  src := ⟨h.src.1.trans f.src, h.src.2.trans f.place⟩
  host := h.host.trans f.host
  unseen := by rw [h.unseen, f.regs, f.unseen]
  srcBytes ho i hi := by
    have hot : t.overlaps = false := (State.overlaps_eq f.place (by rw [f.regs]) (by rw [f.regs])).trans ho
    rw [h.srcBytes hot i (f.regs ▸ hi)]
    exact State.srcByte_kept f.src f.place f.dstAbove ho hi

/-! ## The bytes the writer has stored (41_framer R122, R128) -/

/-- A byte with the stream's bits at their positions is that byte of the stream (30_encoding R73). -/
theorem eq_byteAt {o : BitOrder} {bits : List Bool} {a : Nat} {b : Byte}
    (h : ∀ t, t / 8 = a → b.getLsbD (posIn o t) = bits.getD t false) : b = byteAt o bits a := by
  apply BitVec.eq_of_getLsbD_eq
  intro i hi
  have hpos : posIn o (8 * a + posIn o i) = i := by
    cases o <;> simp only [posIn] <;> omega
  have ha : (8 * a + posIn o i) / 8 = a := by
    have := posIn_lt o i
    omega
  have hbyte := byteAt_getLsbD_posIn o bits (8 * a + posIn o i)
  rw [ha, hpos] at hbyte
  rw [hbyte, ← h _ ha, hpos]

@[simp] theorem State.written_length (s : State) : s.written.length = s.eng.obits := by simp [State.written]

theorem State.written_getD (s : State) {t : Nat} (h : t < s.eng.obits) : s.written.getD t false = s.writtenBit t := by
  simp [State.written, h]

/-- The bytes completed stand in DST. -/
theorem State.read_eq_byteAt (s : State) {a : Nat} (h : a < s.eng.obits / 8) :
    s.dst.read a = byteAt s.hw.order s.written a := by
  refine eq_byteAt fun t ht => ?_
  subst ht
  rw [s.written_getD (by omega), State.writtenBit, if_pos h]

/-- The partial byte stands in OACC, zero after the stream's end (R80). -/
theorem WriterOk.oacc_eq_byteAt {s : State} (h : WriterOk s) :
    s.eng.oacc = byteAt s.hw.order s.written (s.eng.obits / 8) := by
  refine eq_byteAt fun t ht => ?_
  by_cases hlt : t < s.eng.obits
  · rw [s.written_getD hlt, State.writtenBit, if_neg (by omega)]
  · rw [List.getD_eq_default _ _ (by simpa using hlt), ← posIn_mod]
    exact h.clear (t % 8) (by omega) (by omega)

/-! ## How a COMPRESS ends -/

/-- The COMPRESS that s₀ accepted has ended in t as one must whose stream is bits: they stand in DST and nothing else is
written, or they do not fit (R160). -/
def CompressEnds (s₀ : State) (bits : List Bool) (t : State) : Prop :=
  if bytesFor bits.length ≤ s₀.regs.dstCap.toNat then
    Succeeded (BitVec.ofNat 32 (bytesFor bits.length)) s₀.regs.srcLen s₀ t ∧
      ∀ a, t.dst.read a = if a < bytesFor bits.length then byteAt s₀.hw.order bits a else s₀.dst.read a
  else Failed .capacity s₀ t

/-- The COMPRESS that s₀ accepted has come to s, with bits written and no byte beyond them. -/
structure Encoding (s₀ : State) (bits : List Bool) (s : State) : Prop where
  inv     : Inv s
  frame   : EngineFrame s₀ s
  written : s.written = bits
  above   : ∀ a, s.eng.obits / 8 ≤ a → s.dst.read a = s₀.dst.read a

theorem Encoding.length {s₀ s : State} {bits : List Bool} (e : Encoding s₀ bits s) : bits.length = s.eng.obits := by
  rw [← e.written, s.written_length]

/-- A step that goes on but writes nothing. -/
theorem Encoding.of_eng {s₀ s : State} {bits : List Bool} (e : Encoding s₀ bits s) {eng : Engine}
    (hstep : step s = .next { s with eng := eng }) (hobits : eng.obits = s.eng.obits) (hoacc : eng.oacc = s.eng.oacc) :
    Encoding s₀ bits { s with eng := eng } where
  inv := (stepKeepsInvariant _ _ hstep).1 e.inv
  frame := e.frame.trans (engineFrame_eng_win s eng s.win)
  written := by
    rw [← e.written, State.written, hobits]
    exact List.map_congr_left fun t _ => by simp only [State.writtenBit, hobits, hoacc]
  above a ha := e.above a (hobits ▸ ha)

/-- C_FLUSH ends the command (R128). -/
theorem Encoding.of_cFlush {s₀ s : State} {bits : List Bool} (e : Encoding s₀ bits s) (hin : s.host.inputs = [])
    (hp : s.eng.phase = .cFlush) : ∃ t, Reaches s t ∧ CompressEnds s₀ bits t := by
  obtain ⟨henc, -⟩ : EncoderOk s ∧ s.eng.pos = s.regs.srcLen.toNat := by simpa [PhaseOk, hp] using e.inv.phase
  obtain ⟨hfull, hfits⟩ := flushCompletesCompress s hin hp
  have hstored := henc.writer.stored
  have hlen := e.length
  unfold CompressEnds
  rw [← e.frame.regs]
  by_cases hcap : s.eng.obits % 8 ≠ 0 ∧ s.regs.dstCap.toNat ≤ s.eng.obits / 8
  · obtain ⟨t, hstep, hfailed⟩ := hfull hcap.1 hcap.2
    refine ⟨t, reaches_of_step hstep, ?_⟩
    rw [if_neg (by unfold bytesFor; omega)]
    exact e.frame.trans_failed hfailed
  · obtain ⟨t, hstep, hsucceeded, hread⟩ := hfits hcap
    refine ⟨t, reaches_of_step hstep, ?_⟩
    rw [if_pos (by unfold bytesFor; omega), hlen]
    refine ⟨e.frame.trans_succeeded hsucceeded, fun a => ?_⟩
    rw [hread a, ← e.frame.hw, ← e.written]
    by_cases hwhole : a < s.eng.obits / 8
    · rw [if_neg (by omega), if_pos (by unfold bytesFor; omega), s.read_eq_byteAt hwhole]
    · by_cases hpart : s.eng.obits % 8 ≠ 0 ∧ a = s.eng.obits / 8
      · obtain ⟨hpartial, rfl⟩ := hpart
        rw [if_pos ⟨hpartial, rfl⟩, if_pos (by unfold bytesFor; omega), henc.writer.oacc_eq_byteAt]
      · rw [if_neg hpart, if_neg (by unfold bytesFor; omega), e.above a (Nat.le_of_not_lt hwhole)]

/-! ## The loop of R160 -/

/-- C_EMIT writes its token and goes back to C_FIND, or ends the command, which is then one whose stream does not fit,
whatever tokens follow. -/
theorem Encoding.of_cEmit {s₀ s : State} {bits : List Bool} (e : Encoding s₀ bits s) (hin : s.host.inputs = [])
    (hp : s.eng.phase = .cEmit) :
    (∃ u, step s = .next (s.emitted u) ∧ Encoding s₀ (bits ++ s.emitBits) (s.emitted u) ∧
      (s.emitted u).eng.pos = s.eng.pos + s.emitCount) ∨
    ∃ t, step s = .next t ∧ ∀ rest, CompressEnds s₀ (bits ++ (s.emitBits ++ rest)) t := by
  obtain ⟨henc, hf⟩ : EncoderOk s ∧ FoundOk s := by simpa [PhaseOk, hp] using e.inv.phase
  by_cases hfits : (s.eng.obits + s.emitBits.length) / 8 ≤ s.regs.dstCap.toNat
  · obtain ⟨u, hput, hemit⟩ := engineEmit_of_fits hf hfits
    have hstep := (step_of_cEmit hin hp).trans hemit
    have hobits : (s.emitted u).eng.obits = s.eng.obits + s.emitBits.length := by rw [emitted_eq hput]
    refine .inl ⟨u, hstep, ⟨(stepKeepsInvariant _ _ hstep).1 e.inv, e.frame.trans (engineFrame_emitted hput), ?_,
      fun a ha => ?_⟩, rfl⟩
    · rw [emitted_written hput, e.written]
    · rw [hobits] at ha
      rw [emitted_read hput (.inr ha), e.above a (by omega)]
  · obtain ⟨u, f, hemit⟩ := engineEmit_of_full hf henc.writer (Nat.lt_of_not_le hfits)
    refine .inr ⟨_, (step_of_cEmit hin hp).trans hemit, fun rest => ?_⟩
    have hover : ¬ bytesFor (bits ++ (s.emitBits ++ rest)).length ≤ s₀.regs.dstCap.toNat := by
      rw [← e.frame.regs, List.length_append, List.length_append, e.length]
      unfold bytesFor
      omega
    rw [CompressEnds, if_neg hover]
    exact (e.frame.trans f).failed nofun

/-- The stream bits of the tokens ENCODE chooses from pos on. -/
def State.streamFrom (s : State) (fuel pos : Nat) : List Bool :=
  (greedyTokens s.params s.srcByte s.regs.srcLen.toNat fuel pos).flatMap (tokenBits s.hw.order s.params)

/-- The state after a search that finds the input not at its end. -/
def State.searched (s : State) : State :=
  { s with eng.bestLen := s.found.len, eng.bestOff := s.found.off, eng.phase := .cEmit }

/-- What has been written of DST is nothing the search or EMIT reads, so they choose ENCODE's next token. -/
theorem Encoding.streamFrom_succ {s₀ s : State} {bits : List Bool} (e : Encoding s₀ bits s)
    (h₀ : s₀.misplaced = none) (fuel : Nat) (hpos : s.eng.pos < s₀.regs.srcLen.toNat) :
    s₀.streamFrom (fuel + 1) s.eng.pos =
      s.searched.emitBits ++ s₀.streamFrom fuel (s.eng.pos + s.searched.emitCount) := by
  have hsrc (i : Nat) (hi : i < s₀.regs.srcLen.toNat) : s₀.srcByte i = s.srcByte i := (e.frame.srcByte h₀ hi).symm
  have hparams : s.params = s₀.params := State.params_eq e.frame.sameArgs.cfg
  have hfound : findMatch s₀.params s₀.srcByte s₀.regs.srcLen.toNat s.eng.pos = s.found := by
    rw [findMatch_congr hsrc, State.found, hparams, e.frame.regs]
  have hbits : s.searched.emitBits =
      tokenBits s₀.hw.order s₀.params (chooseToken s₀.params s₀.srcByte s.eng.pos s.found) := by
    rw [chooseToken_congr hsrc _ _ hpos, ← hparams, ← e.frame.hw]
    rfl
  have hcount : s.searched.emitCount = consumed s₀.params s.found := by
    rw [← hparams]
    rfl
  rw [hbits, hcount, State.streamFrom, greedyTokens_of_lt fuel hpos, List.flatMap_cons, hfound]
  rfl

/-- With the input at its end C_FIND goes on to C_FLUSH (log entry 30), and ENCODE chooses no token. -/
theorem Encoding.of_cFind_end {s₀ s : State} {bits : List Bool} (e : Encoding s₀ bits s) (hin : s.host.inputs = [])
    (hp : s.eng.phase = .cFind) (fuel : Nat) (hpos : s₀.regs.srcLen.toNat ≤ s.eng.pos) :
    ∃ t, Reaches s t ∧ CompressEnds s₀ (bits ++ s₀.streamFrom fuel s.eng.pos) t := by
  have hstep : step s = .next { s with eng.phase := .cFlush } :=
    (step_of_cFind hin hp).trans (engineFind_of_le (by rwa [e.frame.regs]))
  obtain ⟨t, hreach, hends⟩ := (e.of_eng hstep rfl rfl).of_cFlush hin rfl
  refine ⟨t, hreach.head hstep, ?_⟩
  rw [State.streamFrom, greedyTokens_of_le fuel hpos, List.flatMap_nil, List.append_nil]
  exact hends

/-- From C_FIND on the engine writes the tokens ENCODE chooses from POS on, and flushes. -/
theorem Encoding.of_cFind {s₀ s : State} {bits : List Bool} (e : Encoding s₀ bits s) (h₀ : s₀.misplaced = none)
    (hin : s₀.host.inputs = []) (hp : s.eng.phase = .cFind) {fuel : Nat}
    (hfuel : s₀.regs.srcLen.toNat - s.eng.pos ≤ fuel) :
    ∃ t, Reaches s t ∧ CompressEnds s₀ (bits ++ s₀.streamFrom fuel s.eng.pos) t := by
  have hidle {t : State} (f : EngineFrame s₀ t) : t.host.inputs = [] := by rw [f.host, hin]
  induction fuel generalizing s bits with
  | zero => exact e.of_cFind_end (hidle e.frame) hp 0 (by omega)
  | succ fuel ih =>
    by_cases hpos : s.eng.pos < s₀.regs.srcLen.toNat
    · have hsearch : step s = .next s.searched :=
        (step_of_cFind (hidle e.frame) hp).trans (engineFind_of_lt (by rwa [e.frame.regs]))
      have hsearched : Encoding s₀ bits s.searched := e.of_eng hsearch rfl rfl
      rw [e.streamFrom_succ h₀ fuel hpos]
      obtain ⟨u, hemit, hnext, hmoved⟩ | ⟨t, hemit, hends⟩ := hsearched.of_cEmit (hidle hsearched.frame) rfl
      · obtain ⟨-, -, -, -, hp1, -⟩ := State.legal_iff.1 (e.inv.legal_of_phase (by simp [hp]))
        have hcount : 1 ≤ s.searched.emitCount := consumed_pos hp1 s.found
        have hmoved : (s.searched.emitted u).eng.pos = s.eng.pos + s.searched.emitCount := hmoved
        obtain ⟨t, hreach, hends⟩ := ih hnext rfl (by omega)
        rw [hmoved, List.append_assoc] at hends
        exact ⟨t, (hreach.head hemit).head hsearch, hends⟩
      · exact ⟨t, (reaches_of_step hemit).head hsearch, hends _⟩
    · exact e.of_cFind_end (hidle e.frame) hp (fuel + 1) (Nat.le_of_not_lt hpos)

/-- INIT leaves an empty stream (R121). -/
theorem encoding_of_init {s : State} (hi : Inv s) (hin : s.host.inputs = []) (hp : s.eng.phase = .init)
    (hc : s.eng.cur = .compress) :
    ∃ t, step s = .next t ∧ Encoding s [] t ∧ t.eng.phase = .cFind ∧ t.eng.pos = 0 := by
  have hstep := (step_of_init hin hp).trans (engineInit_compress hc)
  exact ⟨_, hstep, ⟨(stepKeepsInvariant _ _ hstep).1 hi, engineFrame_eng_win s _ _, rfl, fun _ _ => rfl⟩, rfl, rfl⟩

/-- An accepted COMPRESS ends with the stream of ENCODE. -/
theorem compress_ends {s : State} (hi : Inv s) (hin : s.host.inputs = []) (hp : s.eng.phase = .init)
    (hc : s.eng.cur = .compress) :
    ∃ t, Reaches s t ∧
      CompressEnds s (encodeStream s.hw.order s.params s.srcByte s.regs.srcLen.toNat) t := by
  obtain ⟨u, hstep, e, hfind, hpos⟩ := encoding_of_init hi hin hp hc
  have hplaced : s.misplaced = none := hi.placed (hi.busy.2 (by simp [hp]))
  obtain ⟨t, hreach, hends⟩ := e.of_cFind hplaced hin hfind (Nat.sub_le _ _)
  rw [hpos] at hends
  exact ⟨t, hreach.head hstep, hends⟩

theorem encodeBytes_of_le {o : BitOrder} {pr : Params} {f : Nat → Byte} {n cap : Nat}
    (h : bytesFor (encodeStream o pr f n).length ≤ cap) :
    encodeBytes o pr f n cap = .ok (pack o (encodeStream o pr f n)) := if_pos h

theorem encodeBytes_of_gt {o : BitOrder} {pr : Params} {f : Nat → Byte} {n cap : Nat}
    (h : cap < bytesFor (encodeStream o pr f n).length) : encodeBytes o pr f n cap = .error .capacity :=
  if_neg (Nat.not_le.2 h)

end Sys2Proof.Machine

open Sys2Proof Sys2Proof.Machine

/-- Settles O55: by induction on the input left; at each visit of C_FIND the bits written and those ENCODE has yet to
choose make up its stream. -/
theorem compressComputesEncode : Obligations.CompressComputesEncode := by
  intro s hi hin hp hc
  obtain ⟨t, ⟨k, hrun⟩, hends⟩ := compress_ends hi hin hp hc
  refine ⟨k, t, hrun, ?_⟩
  unfold CompressEnds at hends
  split at hends
  · rename_i hfits
    obtain ⟨hsucceeded, hread⟩ := hends
    rw [encodeBytes_of_le hfits]
    simp only [pack_length]
    refine ⟨hsucceeded, hfits, fun a => ?_⟩
    rw [hread a]
    split
    · rw [pack_getD _ _ (by rwa [pack_length])]
    · rfl
  · rename_i hfull
    rw [encodeBytes_of_gt (Nat.lt_of_not_le hfull)]
    exact ⟨rfl, hends⟩

end

section
/-! PROOFS. 43_decoder R181 to R183, R186, R192: the step of D_FLAG, and the step of D_LIT or D_MATCH as the meaning of
the token it reads. -/

namespace Sys2Proof.Machine

/-! ## The engine's step in each phase of the decoder -/

theorem step_of_dFlag {s : State} (hin : s.host.inputs = []) (hp : s.eng.phase = .dFlag) : step s = engineFlag s := by
  simp [step, engineStep, hin, hp]

theorem step_of_dLit {s : State} (hin : s.host.inputs = []) (hp : s.eng.phase = .dLit) :
    step s = engineToken true s := by
  simp [step, engineStep, hin, hp]

theorem step_of_dMatch {s : State} (hin : s.host.inputs = []) (hp : s.eng.phase = .dMatch) :
    step s = engineToken false s := by
  simp [step, engineStep, hin, hp]

theorem step_of_dCopy {s : State} (hin : s.host.inputs = []) (hp : s.eng.phase = .dCopy) : step s = engineCopy s := by
  simp [step, engineStep, hin, hp]

/-! ## The flag (R181) -/

/-- The state after a flag is read. -/
def State.flagged (s : State) : State :=
  { s with eng.tokFlag := s.streamBit s.eng.ibits, eng.ibits := s.eng.ibits + 1,
           eng.phase := if s.streamBit s.eng.ibits then .dLit else .dMatch }

theorem engineFlag_of_done {s : State} (h : s.eng.outn = s.regs.dstCap.toNat) :
    engineFlag s = .next (succeed s.regs.dstCap (BitVec.ofNat 32 (bytesFor s.eng.ibits)) s) := if_pos h

theorem engineFlag_of_lt {s : State} (h : s.eng.outn ≠ s.regs.dstCap.toNat)
    (hbit : s.eng.ibits < 8 * s.regs.srcLen.toNat) : engineFlag s = .next s.flagged := by
  simp only [engineFlag, if_neg h, getFlag, getBits_of_le (w := 1) (Nat.succ_le_of_lt hbit)]
  rfl

theorem engineFlag_of_exhausted {s : State} (h : s.eng.outn ≠ s.regs.dstCap.toNat)
    (hbit : 8 * s.regs.srcLen.toNat ≤ s.eng.ibits) : engineFlag s = .next (abort .srcExhausted s) := by
  simp only [engineFlag, if_neg h, getFlag, getBits_of_gt (w := 1) (Nat.lt_succ_of_le hbit)]
  rfl

theorem step_of_flagged {s : State} (hin : s.host.inputs = []) :
    step s.flagged = engineToken (s.streamBit s.eng.ibits) s.flagged := by
  cases hflag : s.streamBit s.eng.ibits with
  | true => exact step_of_dLit hin (if_pos hflag)
  | false => exact step_of_dMatch hin (if_neg (by simp [hflag]))

/-! ## The token after its flag (R182, R183) -/

theorem engineToken_of_ok {flag : Bool} {s t : State} {i : Instr} (h : fetchToken flag s = .ok (i, t)) :
    engineToken flag s = exec i t := by
  simp only [engineToken, h]

/-- A token cut off by the end of SRC ends the command (R192). -/
theorem engineToken_of_exhausted {flag : Bool} {s : State}
    (h : 8 * s.regs.srcLen.toNat < s.eng.ibits + payloadWidth s.params flag) :
    ∃ t, engineToken flag s = .next t ∧ Failed .srcExhausted s t := by
  obtain ⟨b, hfetch⟩ := fetchToken_error flag s h
  refine ⟨abort .srcExhausted { s with eng.ibits := b }, ?_, (engineFrame_eng_win s _ s.win).failed nofun⟩
  simp only [engineToken, hfetch]
  rfl

/-- The payload's bits are those at IBITS, all of them in SRC. -/
theorem getPayload_of_le {flag : Bool} {s : State}
    (h : s.eng.ibits + payloadWidth s.params flag ≤ 8 * s.regs.srcLen.toNat) :
    getPayload flag s = .ok (s.streamBits s.eng.ibits (payloadWidth s.params flag),
      { s with eng.ibits := s.eng.ibits + payloadWidth s.params flag }) := by
  cases flag with
  | true => exact getBits_of_le h
  | false =>
    let t : State := { s with eng.ibits := s.eng.ibits + s.params.ei }
    have hw : s.eng.ibits + (s.params.ei + s.params.ej) ≤ 8 * s.regs.srcLen.toNat := h
    have hoff : s.eng.ibits + s.params.ei ≤ 8 * s.regs.srcLen.toNat := by omega
    have hlen : getBits s.params.ej t = .ok (s.streamBits (s.eng.ibits + s.params.ei) s.params.ej,
        { s with eng.ibits := s.eng.ibits + s.params.ei + s.params.ej }) :=
      getBits_of_le (s := t) (by rwa [← Nat.add_assoc] at hw)
    simp only [getPayload, getBits_of_le hoff, hlen, t]
    rw [State.streamBits_append, Nat.add_assoc]
    rfl

/-- The token read is the one the payload's bits decode to. -/
theorem fetchToken_of_decodePayload {flag : Bool} {s : State} {i : Instr} {rest : List Bool}
    (h : s.eng.ibits + payloadWidth s.params flag ≤ 8 * s.regs.srcLen.toNat)
    (hi : decodePayload s.hw.order s.params flag (s.streamBits s.eng.ibits (payloadWidth s.params flag)) =
      .ok (i, rest)) :
    fetchToken flag s = .ok (i, { s with eng.ibits := s.eng.ibits + payloadWidth s.params flag }) := by
  simp only [fetchToken, getPayload_of_le h, hi]

/-- A payload decoded with no bit left has its flag's width (30_encoding R79). -/
theorem decodePayload_length {o : BitOrder} {pr : Params} {flag : Bool} {bits : List Bool} {i : Instr}
    (h : decodePayload o pr flag bits = .ok (i, [])) : bits.length = payloadWidth pr flag := by
  rcases decodePayload_ok h with ⟨rfl, c, hc, rfl, -⟩ | ⟨rfl, off, len, hoff, hlen, rfl, -⟩
  · simpa [payloadWidth] using hc
  · simp [payloadWidth, hoff, hlen]

theorem State.streamBits_succ (s : State) (t w : Nat) :
    s.streamBits t (w + 1) = s.streamBit t :: s.streamBits (t + 1) w := by
  rw [Nat.add_comm w 1, ← s.streamBits_append t 1 w]
  rfl

/-! ## The meanings of the tokens -/

theorem execLit_of_lt (c : Byte) {s : State} (h : s.eng.outn < s.regs.dstCap.toNat) :
    exec (.lit c) s = .next { emitByte c s with eng.phase := .dFlag } := if_pos h

theorem execLit_of_le (c : Byte) {s : State} (h : s.regs.dstCap.toNat ≤ s.eng.outn) :
    exec (.lit c) s = .fault .dstOutOfRange := if_neg (Nat.not_lt.2 h)

section
variable {s : State} {off len : Nat} (h1 : 1 ≤ off) (h2 : off ≤ s.n)
include h1 h2

theorem execMatchTok_of_badLength (hr : s.params.rless = false) (hlen : len < s.params.p) :
    exec (.matchTok off len) s = .next (abort .badLength { s with eng.tokOff := off, eng.tokLen := len }) := by
  have hoff : ¬ (off < 1 ∨ s.n < off) := by omega
  exact (if_neg hoff).trans (if_pos ⟨hr, hlen⟩)

theorem execMatchTok_of_le (hlen : s.params.rless = false → s.params.p ≤ len) :
    exec (.matchTok off len) s =
      .next { s with eng.tokOff := off, eng.tokLen := len, eng.copyK := 0, eng.phase := .dCopy } := by
  have hoff : ¬ (off < 1 ∨ s.n < off) := by omega
  exact (if_neg hoff).trans (if_neg fun h => Nat.not_lt.2 (hlen h.1) h.2)

end

/-- The offset field gives an offset of 1..N (30_encoding R77, R188). -/
theorem State.offField_lt (s : State) (t : Nat) : fieldValue s.hw.order (s.streamBits t s.params.ei) < s.n := by
  have hlt := fieldValue_lt s.hw.order (s.streamBits t s.params.ei)
  rwa [State.streamBits_length] at hlt

end Sys2Proof.Machine

open Sys2Proof Sys2Proof.Machine

/-- Settles O24: the count test, the flag, and the end of SRC. -/
theorem flagPhase : Obligations.FlagPhase := by
  intro s hin hp
  simp only [step_of_dFlag hin hp]
  refine ⟨fun hdone => ?_, fun hmore hbit => engineFlag_of_lt hmore hbit, fun hmore hbit => ?_⟩
  · exact ⟨_, engineFlag_of_done hdone, (EngineFrame.refl s).succeeded _ _, rfl⟩
  · exact ⟨_, engineFlag_of_exhausted hmore hbit, (EngineFrame.refl s).failed nofun⟩

/-- Settles O11: the flag's step leaves IBITS at the payload, whose bits decode to the same token. -/
theorem stepRunsDecodedToken : Obligations.StepRunsDecodedToken := by
  intro s w i hin hp hmore hle hdecode
  cases w with
  | zero => cases hdecode
  | succ w =>
    rw [State.streamBits_succ] at hdecode
    have hw : w = payloadWidth s.params (s.streamBit s.eng.ibits) := by simpa using decodePayload_length hdecode
    subst hw
    refine ⟨s.flagged, (step_of_dFlag hin hp).trans (engineFlag_of_lt hmore (by omega)), rfl, ?_⟩
    have hle' : s.flagged.eng.ibits + payloadWidth s.params (s.streamBit s.eng.ibits) ≤ 8 * s.regs.srcLen.toNat := by
      show s.eng.ibits + 1 + _ ≤ _
      omega
    rw [step_of_flagged hin, engineToken_of_ok (fetchToken_of_decodePayload (s := s.flagged) hle' hdecode),
      Nat.add_comm _ 1, ← Nat.add_assoc]
    rfl

/-- Settles O25: the byte written and its frame, in DST and in the window; or the guard. -/
theorem litCompletes : Obligations.LitCompletes := by
  intro s c
  refine ⟨fun hlt => ⟨_, execLit_of_lt c hlt, ?_, fun a ha => ?_, ?_, fun i hi => ?_, rfl, rfl⟩, execLit_of_le c⟩
  · exact (State.putDst_read _ _ c s).trans (if_pos rfl)
  · exact (State.putDst_read _ _ c s).trans (if_neg ha)
  · exact (emitByte_entry c s _).trans (if_pos rfl)
  · exact (emitByte_entry c s i).trans (if_neg hi)

/-- Settles O26: the field read whole is the literal executed. -/
theorem literalPhase : Obligations.LiteralPhase := by
  intro s hin hp hlt
  simp only [step_of_dLit hin hp]
  refine ⟨fun hle => ?_, fun hgt => engineToken_of_exhausted hgt⟩
  rw [engineToken_of_ok (fetchToken_ok true s hle)]
  exact execLit_of_lt (s := { s with eng.ibits := s.eng.ibits + 8 }) _ hlt

/-- Settles O27: an offset in the window leaves only the length to test. -/
theorem matchReadsOperands : Obligations.MatchReadsOperands := by
  intro s off len h1 h2
  refine ⟨execMatchTok_of_le h1 h2, fun hr hlen => ⟨_, execMatchTok_of_badLength h1 h2 hr hlen, ?_⟩⟩
  exact (engineFrame_eng_win s _ s.win).failed nofun

/-- Settles O29: the fields read whole are the operands of the match executed. -/
theorem matchPhase : Obligations.MatchPhase := by
  intro s hin hp pr off lenf len whole
  have hoff : off ≤ s.n := s.offField_lt s.eng.ibits
  have hwidth : s.eng.ibits + payloadWidth s.params false = s.eng.ibits + pr.ei + pr.ej := (Nat.add_assoc _ _ _).symm
  let t : State := { s with eng.ibits := s.eng.ibits + pr.ei + pr.ej }
  have hwhole (h : whole) : step s = exec (.matchTok off len) t := by
    rw [step_of_dMatch hin hp, engineToken_of_ok (fetchToken_ok false s (hwidth.trans_le h)), hwidth]
    rfl
  refine ⟨fun h hbad => ?_, fun h hgood => ?_, fun h => ?_⟩
  · rw [hwhole h, execMatchTok_of_badLength (s := t) (Nat.succ_pos _) hoff hbad.1 hbad.2]
    exact ⟨_, rfl, (engineFrame_eng_win s _ s.win).failed nofun⟩
  · have hlen (hr : pr.rless = false) : pr.p ≤ len := Nat.le_of_not_lt fun hlt => hgood ⟨hr, hlt⟩
    rw [hwhole h, execMatchTok_of_le (s := t) (Nat.succ_pos _) hoff hlen]
  · rw [step_of_dMatch hin hp]
    exact engineToken_of_exhausted ((Nat.lt_of_not_le h).trans_eq hwidth.symm)

end

section
/-! PROOFS. 43_decoder R184 and 40_window R106: the copy of a match writes the bytes of the history from its offset on,
its own among them. -/

namespace Sys2Proof.Machine

/-! ## The bytes a match copies -/

/-- The k bytes a match at off adds to the history h, each the one off back from it (R184). -/
def copiedBytes (fill : Byte) (off : Nat) : Nat → List Byte → List Byte
  | 0, _ => []
  | k + 1, h => histByte fill h off :: copiedBytes fill off k (h ++ [histByte fill h off])

@[simp] theorem copiedBytes_length (fill : Byte) (off k : Nat) (h : List Byte) :
    (copiedBytes fill off k h).length = k := by
  induction k generalizing h with
  | zero => rfl
  | succ k ih => simp [copiedBytes, ih]

/-- Byte j comes from the history where j < off, and from the match's own bytes after that (R106). -/
theorem copiedBytes_getD (fill : Byte) {off k j : Nat} (h : List Byte) (h1 : 1 ≤ off) (hj : j < k) :
    (copiedBytes fill off k h).getD j 0#8 =
      if j < off then histByte fill h (off - j) else (copiedBytes fill off k h).getD (j - off) 0#8 := by
  induction k generalizing h j with
  | zero => cases hj
  | succ k ih =>
    cases j with
    | zero => exact (if_pos h1).symm
    | succ j =>
      have hih := ih (h ++ [histByte fill h off]) (Nat.lt_of_succ_lt_succ hj)
      obtain hlt | rfl | hle : j + 1 < off ∨ off = j + 1 ∨ off ≤ j := by omega
      · have hoff : off - j = (off - (j + 1)) + 1 := by omega
        rw [if_pos (by omega), hoff, histByte_succ_concat _ _ _ (by omega)] at hih
        rw [if_pos hlt]
        exact hih
      · have hone : j + 1 - j = 1 := Nat.add_sub_cancel_left j 1
        rw [if_pos (Nat.lt_succ_self j), hone, histByte_one_concat] at hih
        rw [if_neg (Nat.lt_irrefl _), Nat.sub_self]
        exact hih
      · rw [if_neg (Nat.not_lt.2 hle)] at hih
        rw [if_neg (by omega), Nat.succ_sub hle]
        exact hih

/-- A match appended to the history and cut at dstlen is that many of its bytes (R185, R190). -/
theorem appendMatch_eq (fill : Byte) (dstlen off k : Nat) (h : List Byte) :
    appendMatch fill dstlen off k h = h ++ copiedBytes fill off (min k (dstlen - h.length)) h := by
  induction k generalizing h with
  | zero => simp [appendMatch, copiedBytes]
  | succ k ih =>
    by_cases hlt : h.length < dstlen
    · have hmin : min (k + 1) (dstlen - h.length) = min k (dstlen - (h.length + 1)) + 1 := by omega
      rw [appendMatch_succ k hlt, ih, hmin, List.length_append, List.length_singleton, copiedBytes, List.append_assoc,
        List.singleton_append]
    · have hmin : min (k + 1) (dstlen - h.length) = 0 := by omega
      rw [appendMatch, if_neg hlt, hmin, copiedBytes, List.append_nil]

/-! ## Bytes appended to DST and to the window -/

/-- From s to t the decoder has put bytes in DST at OUTN and in the window after its history h, and has changed nothing
else but the engine's own registers. -/
structure Appends (h bytes : List Byte) (s t : State) : Prop where
  frame  : EngineFrame s t
  outn   : t.eng.outn = s.eng.outn + bytes.length
  new    : ∀ j, j < bytes.length → t.dst.read (s.eng.outn + j) = bytes.getD j 0#8
  old    : ∀ a, a < s.eng.outn ∨ s.eng.outn + bytes.length ≤ a → t.dst.read a = s.dst.read a
  window : WindowHolds t (h ++ bytes)

section
variable {h bytes : List Byte} {s t u : State}

theorem Appends.refl (hw : WindowHolds s h) : Appends h [] s s where
  frame := EngineFrame.refl s
  outn := rfl
  new := nofun
  old _ _ := rfl
  window := by rwa [List.append_nil]

theorem Appends.trans {more : List Byte} (p : Appends h bytes s t) (q : Appends (h ++ bytes) more t u) :
    Appends h (bytes ++ more) s u where
  frame := p.frame.trans q.frame
  outn := by rw [q.outn, p.outn, List.length_append, Nat.add_assoc]
  new j hj := by
    rw [List.length_append] at hj
    have hout := p.outn
    by_cases hlt : j < bytes.length
    · rw [q.old _ (.inl (by omega)), p.new j hlt, List.getD_append _ _ _ _ hlt]
    · have hle := Nat.le_of_not_lt hlt
      have hnew := q.new (j - bytes.length) (by omega)
      rw [List.getD_append_right _ _ _ _ hle, ← hnew, hout]
      congr 1
      omega
  old a ha := by
    rw [List.length_append] at ha
    have hout := p.outn
    rw [q.old a (by omega), p.old a (by omega)]
  window := by
    rw [← List.append_assoc]
    exact q.window

/-- Any register of the engine but OUTN may change besides. -/
theorem Appends.of_eng (p : Appends h bytes s t) (eng : Engine) (hout : eng.outn = t.eng.outn) :
    Appends h bytes s { t with eng := eng } where
  frame := p.frame.trans (engineFrame_eng_win t eng t.win)
  outn := hout.trans p.outn
  new := p.new
  old := p.old
  window := p.window.congr (.of_regs rfl rfl) rfl

/-- One byte out (R182, R184). -/
theorem appends_emitByte (c : Byte) (hw : WindowHolds s h) (hc : s.win.cur < s.n)
    (hlt : s.eng.outn < s.regs.dstCap.toNat) : Appends h [c] s (emitByte c s) where
  frame := engineFrame_emitByte c hlt
  outn := rfl
  new j hj := by
    obtain rfl : j = 0 := Nat.lt_one_iff.1 hj
    exact (State.putDst_read _ _ c s).trans (if_pos rfl)
  old a ha := (State.putDst_read _ _ c s).trans (if_neg (by
    rw [List.length_singleton] at ha
    omega))
  window := (windowHolds_winWrite (s := s.putDst s.eng.outn c) c hw hc).congr (.of_regs rfl rfl) rfl

end

/-! ## The copy (R184) -/

/-- The loop of D_COPY appends the bytes of the match, as many as fit below DST_CAP. -/
theorem copyLoop_appends {s : State} {h : List Byte} (k : Nat) (hw : WindowHolds s h) (hc : s.win.cur < s.n)
    (h1 : 1 ≤ s.eng.tokOff) (h2 : s.eng.tokOff ≤ s.n) :
    ∃ t, copyLoop k s = .ok t ∧
      Appends h (copiedBytes s.hw.fill s.eng.tokOff (min k (s.regs.dstCap.toNat - s.eng.outn)) h) s t := by
  induction k generalizing s h with
  | zero => exact ⟨s, rfl, by simpa [copiedBytes] using Appends.refl hw⟩
  | succ k ih =>
    by_cases hlt : s.eng.outn < s.regs.dstCap.toNat
    · have hread : winReadback s.eng.tokOff s = .ok (histByte s.hw.fill h s.eng.tokOff) := windowHolds_iff.1 hw _ h1 h2
      let c := histByte s.hw.fill h s.eng.tokOff
      let u : State := { emitByte c s with eng.copyK := s.eng.copyK + 1 }
      have hu : Appends h [c] s u := (appends_emitByte c hw hc hlt).of_eng _ rfl
      have hstep : copyLoop (k + 1) s = copyLoop k u := by
        simp only [copyLoop, if_pos hlt, hread, u, c]
      have hmin : min (k + 1) (s.regs.dstCap.toNat - s.eng.outn) =
          min k (s.regs.dstCap.toNat - (s.eng.outn + 1)) + 1 := by omega
      obtain ⟨t, hloop, ht⟩ := ih (s := u) hu.window (Nat.mod_lt _ s.n_pos) h1 h2
      rw [hmin]
      exact ⟨t, hstep.trans hloop, hu.trans ht⟩
    · have hmin : min (k + 1) (s.regs.dstCap.toNat - s.eng.outn) = 0 := by omega
      rw [hmin]
      exact ⟨s, if_neg hlt, Appends.refl hw⟩

/-- D_COPY appends the bytes of the match that fit, counts them in COPY_K and goes to D_FLAG. -/
theorem engineCopy_appends {s : State} {h : List Byte} (hw : WindowHolds s h) (hc : s.win.cur < s.n)
    (h1 : 1 ≤ s.eng.tokOff) (h2 : s.eng.tokOff ≤ s.n) :
    let k := min (s.eng.tokLen - s.eng.copyK) (s.regs.dstCap.toNat - s.eng.outn)
    ∃ t, engineCopy s = .next t ∧ Appends h (copiedBytes s.hw.fill s.eng.tokOff k h) s t ∧
      t = { s with dst := t.dst, win := t.win, eng.outn := s.eng.outn + k, eng.copyK := s.eng.copyK + k,
                   eng.phase := .dFlag } := by
  obtain ⟨v, hloop, happends⟩ := copyLoop_appends (s.eng.tokLen - s.eng.copyK) hw hc h1 h2
  obtain ⟨v', hloop', heq, -⟩ := copyLoop_ok (s.eng.tokLen - s.eng.copyK) s h1 h2
  obtain rfl : v = v' := Except.ok.inj (hloop.symm.trans hloop')
  refine ⟨{ v with eng.phase := .dFlag }, ?_, happends.of_eng _ rfl, ?_⟩
  · simp only [engineCopy, hloop]
  · rw [heq]

end Sys2Proof.Machine

open Sys2Proof Sys2Proof.Machine

/-- Settles O28: by induction on the bytes copied, each put in the window before the next is read. -/
theorem matchCopiesOverlapping : Obligations.MatchCopiesOverlapping := by
  intro s h off len hin hc hw _ h1 h2 hlen k
  let t : State := { s with eng.tokOff := off, eng.tokLen := len, eng.copyK := 0, eng.phase := .dCopy }
  have hwt : WindowHolds t h := hw.congr (.of_regs rfl rfl) rfl
  obtain ⟨u, hcopy, happends, heq⟩ := engineCopy_appends hwt hc h1 h2
  have hbytes : (copiedBytes s.hw.fill off k h).length = k := copiedBytes_length _ _ _ _
  have hstep : step t = .next u := (step_of_dCopy (s := t) hin rfl).trans hcopy
  refine ⟨t, u, copiedBytes s.hw.fill off k h, execMatchTok_of_le h1 h2 hlen, hstep, hbytes,
    fun j hj => copiedBytes_getD _ h h1 hj, fun j hj => happends.new j (hj.trans_eq hbytes.symm),
    fun a ha => happends.old a (by rwa [copiedBytes_length]), happends.window, ?_⟩
  simpa [t] using heq

end

section
/-! PROOFS. 43_decoder R190: an accepted DECOMPRESS, left alone, takes the steps of DECODE. -/

namespace Sys2Proof.Machine

/-! ## Runs -/

theorem run_succ_next {k : Nat} {s t : State} (h : Sys2Proof.core.run (k + 1) s = .next t) :
    ∃ u, step s = .next u ∧ Sys2Proof.core.run k u = .next t := by
  simp only [Host.Core.run, Host.Check.core_step] at h
  split at h
  · exact ⟨_, ‹_›, h⟩
  · cases h
  · cases h

theorem Reaches.inv {s t : State} (h : Reaches s t) (hi : Inv s) : Inv t := by
  obtain ⟨k, hk⟩ := h
  induction k generalizing s with
  | zero => exact Host.Outcome.next.inj hk ▸ hi
  | succ k ih =>
    obtain ⟨u, hstep, hk⟩ := run_succ_next hk
    exact ih ((stepKeepsInvariant _ _ hstep).1 hi) hk

theorem Reaches.trans {s t u : State} (h : Reaches s t) (h' : Reaches t u) : Reaches s u := by
  obtain ⟨k, hk⟩ := h
  induction k generalizing s with
  | zero => exact Host.Outcome.next.inj hk ▸ h'
  | succ k ih =>
    obtain ⟨v, hstep, hk⟩ := run_succ_next hk
    exact (ih hk).head hstep

/-! ## The stream bits left -/

/-- The stream bits from t to the end of SRC. -/
def State.bitsFrom (s : State) (t : Nat) : List Bool := s.streamBits t (8 * s.regs.srcLen.toNat - t)

theorem State.bitsFrom_length (s : State) (t : Nat) : (s.bitsFrom t).length = 8 * s.regs.srcLen.toNat - t :=
  s.streamBits_length _ _

theorem State.bitsFrom_eq_append (s : State) {t w : Nat} (h : t + w ≤ 8 * s.regs.srcLen.toNat) :
    s.bitsFrom t = s.streamBits t w ++ s.bitsFrom (t + w) := by
  rw [State.bitsFrom, State.bitsFrom, State.streamBits_append]
  congr 1
  omega

theorem State.bitsFrom_eq_cons (s : State) {t : Nat} (h : t < 8 * s.regs.srcLen.toNat) :
    s.bitsFrom t = s.streamBit t :: s.bitsFrom (t + 1) := by
  rw [s.bitsFrom_eq_append (w := 1) h]
  rfl

/-- The engine's writes lie in no byte of SRC[0..SRC_LEN). -/
theorem EngineFrame.bitsFrom {s t : State} (f : EngineFrame s t) (h : s.misplaced = none) (b : Nat) :
    t.bitsFrom b = s.bitsFrom b := by
  unfold State.bitsFrom
  rw [f.regs]
  refine List.map_congr_left fun i hi => ?_
  have hi := List.mem_range.1 hi
  simp only [State.streamBit, f.hw, f.srcByte h (i := (b + i) / 8) (by omega)]

theorem State.bitsOfByte_srcByte (s : State) (i : Nat) :
    bitsOfByte s.hw.order (s.srcByte i) = s.streamBits (8 * i) 8 := by
  refine List.map_congr_left fun j hj => ?_
  have hj := List.mem_range.1 hj
  have hdiv : (8 * i + j) / 8 = i := by omega
  have hmod : (8 * i + j) % 8 = j % 8 := by omega
  rw [State.streamBit, hdiv, ← posIn_mod _ (8 * i + j), hmod, posIn_mod]

/-- The SRC bytes DECODE takes hold the stream the engine reads. -/
theorem State.unpack_srcList (s : State) (n : Nat) : unpack s.hw.order (s.srcList n) = s.streamBits 0 (8 * n) := by
  induction n with
  | zero => rfl
  | succ n ih =>
    have hlast : s.srcList (n + 1) = s.srcList n ++ [s.srcByte n] := by simp [State.srcList, List.range_succ]
    have happend : unpack s.hw.order (s.srcList n ++ [s.srcByte n]) =
        unpack s.hw.order (s.srcList n) ++ bitsOfByte s.hw.order (s.srcByte n) := by simp [unpack]
    rw [hlast, happend, ih, s.bitsOfByte_srcByte, Nat.mul_succ, ← s.streamBits_append 0, Nat.zero_add]

/-! ## One token read -/

section
variable {s : State} (hin : s.host.inputs = []) (hp : s.eng.phase = .dFlag)
  (hmore : s.eng.outn ≠ s.regs.dstCap.toNat)
include hin hp hmore

/-- Where the bits left hold no token, SRC is exhausted: at the flag, or at a field of the token (R192). -/
theorem fails_of_decodeToken_error {e : Reject}
    (hdecode : decodeToken s.hw.order s.params (s.bitsFrom s.eng.ibits) = .error e) :
    ∃ t, Reaches s t ∧ Failed .srcExhausted s t := by
  by_cases hbit : s.eng.ibits < 8 * s.regs.srcLen.toNat
  · have hstep := (step_of_dFlag hin hp).trans (engineFlag_of_lt hmore hbit)
    have hcut : 8 * s.regs.srcLen.toNat < s.eng.ibits + 1 + payloadWidth s.params (s.streamBit s.eng.ibits) := by
      by_contra hwhole
      rw [s.bitsFrom_eq_cons hbit] at hdecode
      obtain ⟨i, hi⟩ := decodePayload_of_le s.hw.order (pr := s.params) (flag := s.streamBit s.eng.ibits)
        (bits := s.bitsFrom (s.eng.ibits + 1)) (by rw [s.bitsFrom_length]; omega)
      exact nomatch hi.symm.trans hdecode
    obtain ⟨t, htoken, hfailed⟩ := engineToken_of_exhausted (s := s.flagged) hcut
    exact ⟨t, (reaches_of_step ((step_of_flagged hin).trans htoken)).head hstep,
      (engineFrame_eng_win s _ s.win).trans_failed hfailed⟩
  · exact ⟨_, reaches_of_step ((step_of_dFlag hin hp).trans (engineFlag_of_exhausted hmore (Nat.le_of_not_lt hbit))),
      (EngineFrame.refl s).failed nofun⟩

/-- Where they hold one, it is executed two steps on, with IBITS at the bits that follow it. -/
theorem executes_of_decodeToken_ok {i : Instr} {rest : List Bool}
    (hdecode : decodeToken s.hw.order s.params (s.bitsFrom s.eng.ibits) = .ok (i, rest)) :
    i.isToken = true ∧ i.wf s.params = true ∧
      ∃ eng v, step s = .next v ∧ step v = exec i { s with eng := eng } ∧ eng.outn = s.eng.outn ∧
        s.eng.ibits < eng.ibits ∧ s.bitsFrom eng.ibits = rest := by
  obtain ⟨htok, hwf, hbits⟩ := decodedTokenReencodes _ _ _ _ _ hdecode
  have hlen := congrArg List.length hbits
  have hpos := tokenBits_length_pos s.hw.order s.params htok
  rw [s.bitsFrom_length, List.length_append] at hlen
  have hle : s.eng.ibits + (tokenBits s.hw.order s.params i).length ≤ 8 * s.regs.srcLen.toNat := by omega
  rw [s.bitsFrom_eq_append hle] at hbits
  obtain ⟨htoken, hrest⟩ := List.append_inj hbits (s.streamBits_length _ _)
  have hwhole : decodeToken s.hw.order s.params (s.streamBits s.eng.ibits (tokenBits s.hw.order s.params i).length) =
      .ok (i, []) := by
    rw [htoken, ← List.append_nil (tokenBits s.hw.order s.params i)]
    exact decodeToken_tokenBits_append _ htok hwf []
  obtain ⟨v, hflag, rfl, hexec⟩ := stepRunsDecodedToken s _ i hin hp hmore hle hwhole
  exact ⟨htok, hwf, _, _, hflag, hexec, rfl, Nat.lt_add_of_pos_right hpos, hrest⟩

end

/-! ## One token executed -/

/-- From u, where the token i is executed with the history h, the engine comes to the next flag with the bytes DECODE
appends, or ends the command with DECODE's error. -/
def TokenEnds (u : State) (h : List Byte) (i : Instr) : Prop :=
  ∃ v t, exec i u = .next v ∧ Reaches v t ∧
    match applyToken u.hw.fill u.params u.regs.dstCap.toNat i h with
    | .ok h' => ∃ bytes, h' = h ++ bytes ∧ Appends h bytes u t ∧ t.eng.phase = .dFlag ∧ t.eng.ibits = u.eng.ibits
    | .error code => Failed code u t

section
variable {u : State} {h : List Byte} (hw : WindowHolds u h) (hc : u.win.cur < u.n)
include hw hc

theorem tokenEnds_lit (c : Byte) (hlt : u.eng.outn < u.regs.dstCap.toNat) : TokenEnds u h (.lit c) :=
  ⟨_, _, execLit_of_lt c hlt, Reaches.refl _, [c], rfl, (appends_emitByte c hw hc hlt).of_eng _ rfl, rfl, rfl⟩

/-- The copy reads back the bytes DECODE appends: an offset in the window reaches them all (R106, R190). -/
theorem tokenEnds_matchTok {off : Nat} (len : Nat) (hin : u.host.inputs = []) (hout : u.eng.outn = h.length)
    (h1 : 1 ≤ off) (h2 : off ≤ u.n) : TokenEnds u h (.matchTok off len) := by
  have hoff : ¬ (off < 1 ∨ winSize u.params < off) := not_or.2 ⟨Nat.not_lt.2 h1, Nat.not_lt.2 h2⟩
  by_cases hbad : u.params.rless = false ∧ len < u.params.p
  · refine ⟨_, _, execMatchTok_of_badLength h1 h2 hbad.1 hbad.2, Reaches.refl _, ?_⟩
    rw [applyToken, if_neg hoff, if_pos hbad]
    exact (engineFrame_eng_win u _ u.win).failed nofun
  · let v : State := { u with eng.tokOff := off, eng.tokLen := len, eng.copyK := 0, eng.phase := .dCopy }
    have hexec : exec (.matchTok off len) u = .next v :=
      execMatchTok_of_le h1 h2 fun hr => Nat.le_of_not_lt fun hlt => hbad ⟨hr, hlt⟩
    obtain ⟨t, hcopy, happends, heq⟩ := engineCopy_appends (s := v) (hw.congr (.of_regs rfl rfl) rfl) hc h1 h2
    refine ⟨v, t, hexec, reaches_of_step ((step_of_dCopy (s := v) hin rfl).trans hcopy), ?_⟩
    rw [applyToken, if_neg hoff, if_neg hbad, appendMatch_eq, ← hout]
    have hv : Appends h [] u v := (Appends.refl hw).of_eng v.eng rfl
    exact ⟨_, rfl, hv.trans (by rwa [List.append_nil]), by rw [heq], by rw [heq]⟩

theorem tokenEnds {i : Instr} (hin : u.host.inputs = []) (hout : u.eng.outn = h.length)
    (hlt : u.eng.outn < u.regs.dstCap.toNat) (htok : i.isToken = true) (hwf : i.wf u.params = true) :
    TokenEnds u h i := by
  cases i with
  | lit c => exact tokenEnds_lit hw hc c hlt
  | matchTok off len =>
    obtain ⟨h1, h2⟩ := offEncodable_iff.1 ((Bool.and_eq_true _ _).mp hwf).1
    exact tokenEnds_matchTok hw hc len hin hout h1 h2
  | nop => cases htok
  | compress => cases htok
  | decompress => cases htok
  | reserved w => cases htok

end

/-! ## The parse of R190 -/

theorem decodeFrom_cut_off {o : BitOrder} {fill : Byte} {pr : Params} {dstlen : Nat} {h : List Byte} {bits : List Bool}
    {e : Reject} (fuel : Nat) (hlen : h.length ≠ dstlen) (he : decodeToken o pr bits = .error e) :
    decodeFrom o fill pr dstlen (fuel + 1) h bits = .error .srcExhausted := by
  rw [decodeFrom, if_neg hlen]
  simp only [he]

theorem decodeFrom_refused {o : BitOrder} {fill : Byte} {pr : Params} {dstlen : Nat} {h : List Byte}
    {bits rest : List Bool} {i : Instr} {code : ErrCode} (fuel : Nat) (hlen : h.length ≠ dstlen)
    (hi : decodeToken o pr bits = .ok (i, rest)) (he : applyToken fill pr dstlen i h = .error code) :
    decodeFrom o fill pr dstlen (fuel + 1) h bits = .error code := by
  rw [decodeFrom, if_neg hlen]
  simp only [hi, he]

/-- The parse of DECODE from a history h and the bits left at t, under the arguments of s. -/
def State.parse (s : State) (fuel : Nat) (h : List Byte) (t : Nat) : Except ErrCode (List Byte × List Bool) :=
  decodeFrom s.hw.order s.hw.fill s.params s.regs.dstCap.toNat fuel h (s.bitsFrom t)

/-- The DECOMPRESS running in s₀ has ended in t as one must whose parse gives r (R190). -/
def DecompressEnds (s₀ : State) (r : Except ErrCode (List Byte × List Bool)) (t : State) : Prop :=
  match r with
  | .ok (bytes, rest) =>
    Succeeded s₀.regs.dstCap (BitVec.ofNat 32 (bytesFor (8 * s₀.regs.srcLen.toNat - rest.length))) s₀ t ∧
      bytes.length = s₀.regs.dstCap.toNat ∧
      ∀ a, t.dst.read a = if a < bytes.length then bytes.getD a 0#8 else s₀.dst.read a
  | .error code => Failed code s₀ t

/-- A DECOMPRESS that INIT has prepared, left alone. -/
structure Prepared (s₀ : State) : Prop where
  placed : s₀.misplaced = none
  inputs : s₀.host.inputs = []
  outn   : s₀.eng.outn = 0

/-- The DECOMPRESS prepared in s₀ has come to s, with the history h written. -/
structure Decoding (s₀ : State) (h : List Byte) (s : State) : Prop where
  inv     : Inv s
  appends : Appends [] h s₀ s

theorem Decoding.ibits_le {s₀ s : State} {h : List Byte} (d : Decoding s₀ h s) (hp : s.eng.phase = .dFlag) :
    s.eng.ibits ≤ 8 * s₀.regs.srcLen.toNat := by
  have hdec : DecoderOk s := by simpa [PhaseOk, hp] using d.inv.phase
  rw [← d.appends.frame.regs]
  exact hdec.ibits

section
variable {s₀ s : State} {h : List Byte} (p : Prepared s₀) (d : Decoding s₀ h s)
include p d

theorem Decoding.outn : s.eng.outn = h.length := by
  rw [d.appends.outn, p.outn, Nat.zero_add]

theorem Decoding.read (a : Nat) : s.dst.read a = if a < h.length then h.getD a 0#8 else s₀.dst.read a := by
  by_cases hlt : a < h.length
  · rw [if_pos hlt, ← d.appends.new a hlt, p.outn, Nat.zero_add]
  · rw [if_neg hlt, d.appends.old a (by rw [p.outn]; omega)]

theorem Decoding.idle : s.host.inputs = [] := by
  rw [d.appends.frame.host, p.inputs]

/-- With DST_CAP bytes written, D_FLAG ends the command (R185). -/
theorem Decoding.of_done (hp : s.eng.phase = .dFlag) (hdone : h.length = s₀.regs.dstCap.toNat) :
    ∃ t, Reaches s t ∧ DecompressEnds s₀ (.ok (h, s₀.bitsFrom s.eng.ibits)) t := by
  have f := d.appends.frame
  have hbits := d.ibits_le hp
  have hcap : s.eng.outn = s.regs.dstCap.toNat := by rw [d.outn p, hdone, f.regs]
  have hread := d.read p
  refine ⟨_, reaches_of_step ((step_of_dFlag (d.idle p) hp).trans (engineFlag_of_done hcap)), ?_, hdone, hread⟩
  rw [f.regs]
  have hused : 8 * s₀.regs.srcLen.toNat - (s₀.bitsFrom s.eng.ibits).length = s.eng.ibits := by
    rw [s₀.bitsFrom_length]
    omega
  rw [hused]
  exact f.succeeded _ _

/-- A token of the bits left takes the engine to the next flag, or ends the command, as it takes DECODE. -/
theorem Decoding.of_token (hp : s.eng.phase = .dFlag) (hmore : h.length ≠ s₀.regs.dstCap.toNat) {i : Instr}
    {rest : List Bool} (hdecode : decodeToken s₀.hw.order s₀.params (s₀.bitsFrom s.eng.ibits) = .ok (i, rest)) :
    ∃ t, Reaches s t ∧
      match applyToken s₀.hw.fill s₀.params s₀.regs.dstCap.toNat i h with
      | .ok h' => Decoding s₀ h' t ∧ t.eng.phase = .dFlag ∧ s.eng.ibits < t.eng.ibits ∧ s₀.bitsFrom t.eng.ibits = rest
      | .error code => Failed code s₀ t := by
  have f := d.appends.frame
  have hparams : s.params = s₀.params := State.params_eq f.sameArgs.cfg
  have hdec : DecoderOk s := by simpa [PhaseOk, hp] using d.inv.phase
  have hne : s.eng.outn ≠ s.regs.dstCap.toNat := by rwa [d.outn p, f.regs]
  have hin := d.idle p
  rw [← f.hw, ← hparams, ← f.bitsFrom p.placed] at hdecode
  obtain ⟨htok, hwf, eng, v, hflag, hexec, hout, hbits, hrest⟩ :=
    executes_of_decodeToken_ok hin hp hne hdecode
  let u : State := { s with eng := eng }
  have hu : Appends [] h s₀ u := d.appends.of_eng eng hout
  have hlt : u.eng.outn < u.regs.dstCap.toNat := hout ▸ Nat.lt_of_le_of_ne hdec.outn hne
  obtain ⟨w, t, hnext, hreach, hends⟩ :=
    tokenEnds (u := u) (h := h) hu.window hdec.cursor hin (hout.trans (d.outn p)) hlt htok hwf
  have hreaches : Reaches s t := (hreach.head (hexec.trans hnext)).head hflag
  refine ⟨t, hreaches, ?_⟩
  rw [hu.frame.hw, show u.params = s₀.params from hparams, hu.frame.regs] at hends
  cases happly : applyToken s₀.hw.fill s₀.params s₀.regs.dstCap.toNat i h with
  | error code =>
    rw [happly] at hends
    exact hu.frame.trans_failed hends
  | ok h' =>
    rw [happly] at hends
    obtain ⟨bytes, rfl, happends, hphase, hibits⟩ := hends
    have hibits : t.eng.ibits = eng.ibits := hibits
    refine ⟨⟨hreaches.inv d.inv, hu.trans happends⟩, hphase, by rwa [hibits], ?_⟩
    rw [hibits, ← f.bitsFrom p.placed, hrest]

end

/-- From D_FLAG on the engine takes the tokens of the bits left as DECODE does. -/
theorem Decoding.of_dFlag {s₀ s : State} {h : List Byte} (p : Prepared s₀) (d : Decoding s₀ h s)
    (hp : s.eng.phase = .dFlag) {fuel : Nat} (hfuel : 8 * s₀.regs.srcLen.toNat - s.eng.ibits < fuel) :
    ∃ t, Reaches s t ∧ DecompressEnds s₀ (s₀.parse fuel h s.eng.ibits) t := by
  induction fuel generalizing s h with
  | zero => cases hfuel
  | succ fuel ih =>
    have f := d.appends.frame
    unfold State.parse
    by_cases hdone : h.length = s₀.regs.dstCap.toNat
    · rw [decodeFrom_done _ (Nat.succ_pos fuel) hdone]
      exact d.of_done p hp hdone
    cases hdecode : decodeToken s₀.hw.order s₀.params (s₀.bitsFrom s.eng.ibits) with
    | error e =>
      rw [decodeFrom_cut_off fuel hdone hdecode]
      rw [← f.hw, ← State.params_eq f.sameArgs.cfg, ← f.bitsFrom p.placed] at hdecode
      obtain ⟨t, hreach, hfailed⟩ := fails_of_decodeToken_error (d.idle p) hp (by rwa [d.outn p, f.regs]) hdecode
      exact ⟨t, hreach, f.trans_failed hfailed⟩
    | ok token =>
      obtain ⟨i, rest⟩ := token
      obtain ⟨t, hreach, hends⟩ := d.of_token p hp hdone hdecode
      cases happly : applyToken s₀.hw.fill s₀.params s₀.regs.dstCap.toNat i h with
      | error code =>
        rw [decodeFrom_refused fuel hdone hdecode happly]
        rw [happly] at hends
        exact ⟨t, hreach, hends⟩
      | ok h' =>
        rw [decodeFrom_token hdone hdecode happly]
        rw [happly] at hends
        obtain ⟨dnext, hphase, hbits, rfl⟩ := hends
        have hend : t.eng.ibits ≤ 8 * s₀.regs.srcLen.toNat := dnext.ibits_le hphase
        obtain ⟨z, hz, hends⟩ := ih dnext hphase (by omega)
        exact ⟨z, hreach.trans hz, hends⟩

/-! ## From INIT -/

/-- The state INIT leaves of a DECOMPRESS (R101, R130). -/
def State.prepared (s : State) : State := { winInit s with eng.ibits := 0, eng.outn := 0, eng.phase := .dFlag }

theorem windowHolds_winInit (s : State) : WindowHolds (winInit s) [] := by
  rw [windowHolds_iff]
  intro off h1 h2
  exact (winReadback_winInit (s := s) h1 h2).trans (congrArg _ (if_neg (Nat.not_le.2 h1)).symm)

/-- An accepted DECOMPRESS ends with the parse of DECODE. -/
theorem decompress_ends {s : State} (hi : Inv s) (hin : s.host.inputs = []) (hp : s.eng.phase = .init)
    (hc : s.eng.cur = .decompress) :
    ∃ t, Reaches s t ∧ DecompressEnds s.prepared (s.parse (8 * s.regs.srcLen.toNat + 1) [] 0) t := by
  have hstep : step s = .next s.prepared := (step_of_init hin hp).trans (engineInit_decompress hc)
  have p : Prepared s.prepared := ⟨hi.placed (hi.busy.2 (by simp [hp])), hin, rfl⟩
  have hw : WindowHolds s.prepared [] := (windowHolds_winInit s).congr (.of_regs rfl rfl) rfl
  have d : Decoding s.prepared [] s.prepared := ⟨(stepKeepsInvariant _ _ hstep).1 hi, Appends.refl hw⟩
  obtain ⟨t, hreach, hends⟩ := d.of_dFlag p rfl (Nat.lt_succ_self _)
  exact ⟨t, hreach.head hstep, hends⟩

end Sys2Proof.Machine

open Sys2Proof Sys2Proof.Machine

/-- Settles O56: by induction on the bits left; at each visit of D_FLAG the history in DST and in the window is the one
DECODE has parsed. -/
theorem decompressComputesDecode : Obligations.DecompressComputesDecode := by
  intro s hi hin hp hc
  obtain ⟨t, ⟨k, hrun⟩, hends⟩ := decompress_ends hi hin hp hc
  have f : EngineFrame s s.prepared := engineFrame_eng_win s _ _
  refine ⟨k, t, hrun, ?_⟩
  have hbits : unpack s.hw.order (s.srcList s.regs.srcLen.toNat) = s.bitsFrom 0 := s.unpack_srcList _
  have hlen : (s.bitsFrom 0).length = 8 * s.regs.srcLen.toNat := s.bitsFrom_length 0
  simp only [decodeBytes, hbits, hlen]
  simp only [State.parse] at hends
  cases hparse : decodeFrom s.hw.order s.hw.fill s.params s.regs.dstCap.toNat (8 * s.regs.srcLen.toNat + 1) []
      (s.bitsFrom 0) with
  | error code =>
    rw [hparse] at hends
    exact f.trans_failed hends
  | ok r =>
    rw [hparse] at hends
    obtain ⟨hsucceeded, hlength, hread⟩ := hends
    exact ⟨f.trans_succeeded hsucceeded, hlength, hread⟩

end

section
/-! PROOFS. 43_decoder R185: a DECOMPRESS succeeds in D_FLAG by the count, and at no other point. -/

namespace Sys2Proof.Machine

/-! ## What the decoder's phases leave of the host registers -/

/-- D_LIT and D_MATCH read their token whole and go on, or end the command with an error. -/
theorem engineToken_next {flag : Bool} {s t : State} (h : engineToken flag s = .next t) :
    (∃ code u, code ≠ .ok ∧ t = abort code u) ∨
    (s.eng.ibits + payloadWidth s.params flag ≤ 8 * s.regs.srcLen.toNat ∧ t.regs = s.regs ∧
      t.eng.ibits = s.eng.ibits + payloadWidth s.params flag ∧ t.eng.phase = if flag then .dFlag else .dCopy) := by
  unfold engineToken at h
  by_cases hle : s.eng.ibits + payloadWidth s.params flag ≤ 8 * s.regs.srcLen.toNat
  · rw [fetchToken_ok flag s hle] at h
    cases flag with
    | true =>
      obtain ⟨-, rfl⟩ := execLit_next h
      exact .inr ⟨hle, rfl, rfl, rfl⟩
    | false =>
      obtain ⟨code, hcode, rfl⟩ | ⟨-, -, -, rfl⟩ := execMatchTok_next h
      · exact .inl ⟨code, _, hcode, rfl⟩
      · exact .inr ⟨hle, rfl, rfl, rfl⟩
  · obtain ⟨b, hb⟩ := fetchToken_error flag s (Nat.lt_of_not_le hle)
    rw [hb] at h
    obtain rfl := Host.Outcome.next.inj h
    exact .inl ⟨.srcExhausted, _, nofun, rfl⟩

/-- D_COPY goes on to the next flag. -/
theorem engineCopy_next {s t : State} (hm : MatchOk s) (h : engineCopy s = .next t) :
    t.regs = s.regs ∧ t.eng.ibits = s.eng.ibits ∧ t.eng.phase = .dFlag := by
  obtain ⟨v, hloop, heq, -⟩ := copyLoop_ok (s.eng.tokLen - s.eng.copyK) s hm.off.1 hm.off.2
  simp only [engineCopy, hloop] at h
  obtain rfl := Host.Outcome.next.inj h
  rw [heq]
  exact ⟨rfl, rfl, rfl⟩

theorem engineInit_regs {s t : State} (h : engineInit s = .next t) : t.regs = s.regs := by
  cases hc : s.eng.cur with
  | compress => exact Host.Outcome.next.inj ((engineInit_compress hc).symm.trans h) ▸ rfl
  | decompress => exact Host.Outcome.next.inj ((engineInit_decompress hc).symm.trans h) ▸ rfl

/-- The engine's step of a DECOMPRESS that succeeds is the one of D_FLAG with DST_CAP bytes written. -/
theorem engineStep_succeeds {s t : State} (hi : Inv s) (hb : s.regs.busy = true) (hc : s.eng.cur = .decompress)
    (h : engineStep s = .next t) (hdone : t.regs.done = true) (hok : t.regs.err = .ok) :
    s.eng.phase = .dFlag ∧ s.eng.outn = s.regs.dstCap.toNat ∧ ∃ used, t = succeed s.regs.dstCap used s := by
  have hsame (hregs : t.regs = s.regs) : False := hi.notBoth ⟨hb, hregs ▸ hdone⟩
  have habort {code : ErrCode} {u : State} (hcode : code ≠ .ok) (ht : t = abort code u) : False := by
    subst ht
    exact hcode hok
  have hcompress (he : EncoderOk s) : False := by simp [he.cur] at hc
  have hphase := hi.phase
  have htoken {flag : Bool} (h : engineToken flag s = .next t) : False := by
    obtain ⟨code, u, hcode, ht⟩ | ⟨-, ht, -⟩ := engineToken_next h
    · exact habort hcode ht
    · exact hsame ht
  unfold engineStep at h
  cases hp : s.eng.phase <;> simp only [hp, PhaseOk] at h hphase
  case idle => exact absurd hp (hi.busy.1 hb)
  case init => exact (hsame (engineInit_regs h)).elim
  case cFind => exact (hcompress hphase).elim
  case cEmit => exact (hcompress hphase.1).elim
  case cFlush => exact (hcompress hphase.1).elim
  case dFlag =>
    by_cases hcount : s.eng.outn = s.regs.dstCap.toNat
    · rw [engineFlag_of_done hcount] at h
      exact ⟨rfl, hcount, _, (Host.Outcome.next.inj h).symm⟩
    by_cases hbit : s.eng.ibits < 8 * s.regs.srcLen.toNat
    · rw [engineFlag_of_lt hcount hbit] at h
      exact (hsame (Host.Outcome.next.inj h ▸ rfl)).elim
    · rw [engineFlag_of_exhausted hcount (Nat.le_of_not_lt hbit)] at h
      exact (habort (code := .srcExhausted) nofun (Host.Outcome.next.inj h).symm).elim
  case dLit => exact (htoken h).elim
  case dMatch => exact (htoken h).elim
  case dCopy => exact (hsame (engineCopy_next hphase.2 h).1).elim

/-! ## Only the engine completes a running command -/

section
variable {s t : State} (hi : Inv s) (hb : s.regs.busy = true)
include hi hb

theorem HostFrame.not_done (f : HostFrame s t) : t.regs.done = false :=
  Bool.eq_false_of_not_eq_true fun h => hi.notBoth ⟨hb, f.done h⟩

theorem CommandOutcome.not_done (o : CommandOutcome s t) : t.regs.done = false := by
  cases o with
  | ignored => exact (HostFrame.refl s).not_done hi hb
  | accepted hidle => simp [hb] at hidle
  | badParam hidle => simp [hb] at hidle
  | badCmd hidle => simp [hb] at hidle

/-- What the outside does while a command runs leaves DONE = 0, unless the engine takes the step. -/
theorem hostStep_engine_or_not_done {i : Input} (h : hostStep i s = .next t) :
    t.regs.done = false ∨ ∃ o b, engineStep { s with host := o, unseen := s.unseen.seeIf b } = .next t := by
  have hframe {u : State} (f : HostFrame s u) (h : .next u = (.next t : Out)) : t.regs.done = false :=
    Host.Outcome.next.inj h ▸ f.not_done hi hb
  have hrefused {o : Out} (h : unlessRunning s o = .next t) : t.regs.done = false :=
    absurd hb (by simp [(unlessRunning_next h).1])
  cases i with
  | engine => exact .inr ⟨s.host, false, h⟩
  | write off width v =>
    simp only [hostStep, busWrite] at h
    split at h
    · exact .inl ((writeReg_cases h).elim (·.not_done hi hb) (·.not_done hi hb))
    · exact .inl (hframe (HostFrame.refl s) h)
  | read off width => exact .inl (hframe (hostFrame_busRead off width s) h)
  | srcWrite index b => exact .inl (hrefused h)
  | dstWrite index b => exact .inl (hrefused h)
  | dstRead index => exact .inl (hframe (hostFrame_readDst _ s) (bufferAccess_next h).2)
  | bind p => exact .inl (hrefused h)
  | waitDone =>
    simp only [hostStep] at h
    split at h
    · exact .inl (hframe (hostFrame_readStatus s) h)
    · exact .inr ⟨_, s.regs.done, h⟩
  | waitIrq =>
    simp only [hostStep] at h
    split at h
    · exact .inl (hframe (HostFrame.refl s) h)
    · exact .inr ⟨_, false, h⟩
  | reset =>
    obtain rfl := Host.Outcome.next.inj h
    exact .inl rfl

theorem step_engine_or_not_done (h : step s = .next t) :
    t.regs.done = false ∨ ∃ o b, engineStep { s with host := o, unseen := s.unseen.seeIf b } = .next t := by
  unfold step at h
  split at h
  case h_1 => exact .inr ⟨s.host, false, h⟩
  case h_2 i rest _ =>
    have hinv : Inv { s with host.inputs := rest } := (hostFrame_read s _ false s.draws).inv hi
    obtain hdone | ⟨o, b, hengine⟩ := hostStep_engine_or_not_done hinv hb h
    · exact .inl hdone
    · exact .inr ⟨o, b, hengine⟩

end

end Sys2Proof.Machine

open Sys2Proof.Machine

/-- Settles O30: whatever the input, the step is the engine's, and no phase but D_FLAG succeeds. -/
theorem decompressSucceedsOnlyByCount : Obligations.DecompressSucceedsOnlyByCount := by
  intro s t hi hb hc h hdone hok
  obtain hnot | ⟨o, b, hengine⟩ := step_engine_or_not_done hi hb h
  · simp [hnot] at hdone
  · obtain ⟨hp, hcount, used, rfl⟩ :=
      engineStep_succeeds ((hostFrame_read s o b s.draws).inv hi) hb hc hengine hdone hok
    exact ⟨hp, hcount, rfl, rfl⟩

end

section
/-! PROOFS. 43_decoder R193, 42_match_engine R157, 70_reset R286: every step of a running command leaves less of SRC to
encode or to decode, so it completes. -/

namespace Sys2Proof.Machine

/-! ## The work left -/

/-- A bound on the steps a running command has yet to take: two for each token of the SRC bytes, or bits, left. -/
def State.workLeft (s : State) : Nat :=
  match s.eng.phase with
  | .idle => 0
  | .init => 16 * s.regs.srcLen.toNat + 3
  | .cFind => 2 * (s.regs.srcLen.toNat - s.eng.pos) + 2
  | .cEmit => 2 * (s.regs.srcLen.toNat - s.eng.pos) + 1
  | .cFlush => 1
  | .dFlag => 2 * (8 * s.regs.srcLen.toNat - s.eng.ibits) + 1
  | .dLit => 2 * (8 * s.regs.srcLen.toNat - s.eng.ibits) + 2
  | .dMatch => 2 * (8 * s.regs.srcLen.toNat - s.eng.ibits) + 2
  | .dCopy => 2 * (8 * s.regs.srcLen.toNat - s.eng.ibits) + 2

/-- A step from s to t has ended the command or left less work. -/
def Progresses (s t : State) : Prop := t.eng.phase = .idle ∨ t.workLeft < s.workLeft

section
variable {s t : State}

theorem engineInit_progresses (hp : s.eng.phase = .init) (h : engineInit s = .next t) : Progresses s t := by
  refine .inr ?_
  cases hc : s.eng.cur with
  | compress =>
    obtain rfl := Host.Outcome.next.inj ((engineInit_compress hc).symm.trans h)
    simp only [State.workLeft, hp, winInit_regs]
    omega
  | decompress =>
    obtain rfl := Host.Outcome.next.inj ((engineInit_decompress hc).symm.trans h)
    simp only [State.workLeft, hp, winInit_regs]
    omega

theorem engineFind_progresses (hp : s.eng.phase = .cFind) (h : engineFind s = .next t) : Progresses s t := by
  refine .inr ?_
  by_cases hpos : s.eng.pos < s.regs.srcLen.toNat
  · obtain rfl := Host.Outcome.next.inj ((engineFind_of_lt hpos).symm.trans h)
    simp only [State.workLeft, hp]
    omega
  · obtain rfl := Host.Outcome.next.inj ((engineFind_of_le (Nat.le_of_not_lt hpos)).symm.trans h)
    simp only [State.workLeft, hp]
    omega

/-- A token consumes at least one SRC byte (R157). -/
theorem engineEmit_progresses (hp : s.eng.phase = .cEmit) (hlegal : s.legal = true) (hf : FoundOk s)
    (h : engineEmit s = .next t) : Progresses s t := by
  obtain ⟨-, ⟨u, hput, rfl⟩ | ⟨u, -, rfl⟩⟩ := engineEmit_next h
  · have hregs := (engineFrame_emitted hput).regs
    obtain ⟨-, -, -, -, hp1, -⟩ := State.legal_iff.1 hlegal
    have hcount : 1 ≤ s.emitCount := consumed_pos hp1 _
    have hmore := hf.more
    refine .inr ?_
    show 2 * ((s.emitted u).regs.srcLen.toNat - (s.eng.pos + s.emitCount)) + 2 < s.workLeft
    simp only [State.workLeft, hp, hregs]
    omega
  · exact .inl rfl

theorem engineFlush_progresses (h : engineFlush s = .next t) : Progresses s t := by
  refine .inl ?_
  unfold engineFlush at h
  split at h
  · exact Host.Outcome.next.inj h ▸ rfl
  · exact Host.Outcome.next.inj h ▸ rfl

theorem engineFlag_progresses (hp : s.eng.phase = .dFlag) (h : engineFlag s = .next t) : Progresses s t := by
  by_cases hcount : s.eng.outn = s.regs.dstCap.toNat
  · rw [engineFlag_of_done hcount] at h
    exact .inl (Host.Outcome.next.inj h ▸ rfl)
  by_cases hbit : s.eng.ibits < 8 * s.regs.srcLen.toNat
  · obtain rfl := Host.Outcome.next.inj ((engineFlag_of_lt hcount hbit).symm.trans h)
    refine .inr ?_
    cases hflag : s.streamBit s.eng.ibits with
    | true =>
      simp only [State.workLeft, State.flagged, hp, hflag, if_true]
      omega
    | false =>
      simp only [State.workLeft, State.flagged, hp, hflag, Bool.false_eq_true, if_false]
      omega
  · rw [engineFlag_of_exhausted hcount (Nat.le_of_not_lt hbit)] at h
    exact .inl (Host.Outcome.next.inj h ▸ rfl)

/-- A payload has at least one bit (30_encoding R79). -/
theorem engineToken_progresses {flag : Bool} (hp : s.eng.phase = if flag then .dLit else .dMatch)
    (hlegal : s.legal = true) (h : engineToken flag s = .next t) : Progresses s t := by
  obtain ⟨code, u, -, rfl⟩ | ⟨hle, hregs, hbits, hphase⟩ := engineToken_next h
  · exact .inl rfl
  · obtain ⟨hei, -⟩ := State.legal_iff.1 hlegal
    refine .inr ?_
    cases flag with
    | true =>
      simp only [State.workLeft, hp, hphase, hregs, hbits, if_true]
      omega
    | false =>
      have hwidth : payloadWidth s.params false = s.params.ei + s.params.ej := rfl
      simp only [State.workLeft, hp, hphase, hregs, hbits, Bool.false_eq_true, if_false]
      omega

theorem engineCopy_progresses (hp : s.eng.phase = .dCopy) (hm : MatchOk s) (h : engineCopy s = .next t) :
    Progresses s t := by
  obtain ⟨hregs, hbits, hphase⟩ := engineCopy_next hm h
  refine .inr ?_
  simp only [State.workLeft, hp, hphase, hregs, hbits]
  omega

theorem engineStep_progresses (hi : Inv s) (hrun : s.eng.phase ≠ .idle) (h : engineStep s = .next t) :
    Progresses s t := by
  have hlegal := hi.legal_of_phase hrun
  have hphase := hi.phase
  unfold engineStep at h
  cases hp : s.eng.phase <;> simp only [hp, PhaseOk] at h hphase
  case idle => exact absurd hp hrun
  case init => exact engineInit_progresses hp h
  case cFind => exact engineFind_progresses hp h
  case cEmit => exact engineEmit_progresses hp hlegal hphase.2 h
  case cFlush => exact engineFlush_progresses h
  case dFlag => exact engineFlag_progresses hp h
  case dLit => exact engineToken_progresses (flag := true) hp hlegal h
  case dMatch => exact engineToken_progresses (flag := false) hp hlegal h
  case dCopy => exact engineCopy_progresses hp hphase.2 h

/-! ## Completion -/

/-- A step of the engine that comes to IDLE has completed the command. -/
theorem EngineOutcome.completes (o : EngineOutcome s t) (hs : s.eng.phase ≠ .idle) (ht : t.eng.phase = .idle) :
    t.regs.busy = false ∧ t.regs.done = true := by
  cases o with
  | waits hp => exact absurd hp hs
  | goesOn hg => exact absurd ht hg.running
  | aborted _ _ => exact ⟨rfl, rfl⟩
  | succeeded _ => exact ⟨rfl, rfl⟩

/-- One that does not leaves the outside as it was. -/
theorem EngineOutcome.host_of_running (o : EngineOutcome s t) (ht : t.eng.phase ≠ .idle) : t.host = s.host := by
  cases o with
  | waits hp => exact absurd hp ht
  | goesOn hg => exact hg.frame.host
  | aborted _ _ => exact absurd rfl ht
  | succeeded _ => exact absurd rfl ht

/-- Left alone, the machine always has a next state. -/
theorem engineStep_next (hi : Inv s) : ∃ t, engineStep s = .next t := by
  have hallowed : Allowed (fun _ => False) s (engineStep s) := engineStep_allowed hi
  cases hstep : engineStep s with
  | next t => exact ⟨t, rfl⟩
  | fault r => rw [hstep] at hallowed; exact hallowed.elim
  | refused r => rw [hstep] at hallowed; exact hallowed.elim

end

theorem step_of_no_input {s : State} (hin : s.host.inputs = []) : step s = engineStep s := by
  simp [step, hin]

theorem completes {s : State} (hi : Inv s) (hin : s.host.inputs = []) (hrun : s.eng.phase ≠ .idle) :
    ∃ t, Reaches s t ∧ t.regs.busy = false ∧ t.regs.done = true ∧ t.eng.phase = .idle := by
  induction hwork : s.workLeft using Nat.strong_induction_on generalizing s with
  | _ work ih =>
    obtain ⟨t, hengine⟩ := engineStep_next hi
    have hstep : step s = .next t := (step_of_no_input hin).trans hengine
    have outcome := engineStep_outcome hengine
    by_cases hidle : t.eng.phase = .idle
    · obtain ⟨hbusy, hdone⟩ := outcome.completes hrun hidle
      exact ⟨t, reaches_of_step hstep, hbusy, hdone, hidle⟩
    · have hless : t.workLeft < work := hwork ▸ (engineStep_progresses hi hrun hengine).resolve_left hidle
      have hin' : t.host.inputs = [] := by rw [outcome.host_of_running hidle, hin]
      obtain ⟨z, hreach, hends⟩ := ih _ hless (outcome.inv hi) hin' hidle rfl
      exact ⟨z, hreach.head hstep, hends⟩

end Sys2Proof.Machine

open Sys2Proof.Machine

/-- Settles O60: by strong induction on the work left. -/
theorem commandsComplete : Obligations.CommandsComplete := by
  intro s hi hin hb
  obtain ⟨t, ⟨k, hrun⟩, hends⟩ := completes hi hin (hi.busy.1 hb)
  exact ⟨k, t, hrun, hends⟩

end

section
/-! PROOFS. 44_host_commands: what each whole-word access to REG does (R211, R216, R218, R219), and the command words
that complete or are accepted in one step (R212 to R217). -/

namespace Sys2Proof.Machine

/-! ## The step of a register access -/

section
variable {s : State} {off : BitVec 6} {width : Width} {v : Word} {rest : List Input} (r : Reg)

theorem step_of_write (hin : s.host.inputs = .write off width v :: rest) (hreg : accessReg off width = some r) :
    step s = writeReg r v { s with host.inputs := rest } := by
  simp only [step, hin, hostStep, busWrite, hreg]

theorem step_of_read (hin : s.host.inputs = .read off width :: rest) (hreg : accessReg off width = some r) :
    step s = .next (readReg r { s with host.inputs := rest }) := by
  simp only [step, hin, hostStep, busRead, hreg]

end

/-- The offsets above CAPS hold no register (10_state R30). -/
theorem accessReg_eq_reserved {off : BitVec 6} (hge : 0x24 ≤ off.toNat) (haligned : off.toNat % 4 = 0) :
    accessReg off .word = some .reserved := by
  revert off
  decide

/-! ## What a write does -/

/-- R219: a 1 in bit 1 of a write to STATUS clears DONE. -/
theorem writeReg_status (v : Word) (s : State) :
    writeReg .status v s = .next { s with regs.done := s.regs.done && !v.getLsbD 1 } := by
  unfold writeReg
  cases v.getLsbD 1 <;> simp

section
variable {s : State} (v : Word)

theorem writeReg_cfg_idle (hb : s.regs.busy = false) :
    writeReg .cfg v s = .next { s with regs.cfg := Cfg.ofWord v } := if_neg (by simp [hb])

theorem writeReg_srcLen_idle (hb : s.regs.busy = false) :
    writeReg .srcLen v s = .next { s with regs.srcLen := v } := if_neg (by simp [hb])

theorem writeReg_dstCap_idle (hb : s.regs.busy = false) :
    writeReg .dstCap v s = .next { s with regs.dstCap := v } := if_neg (by simp [hb])

/-- R216: the arguments of a running command cannot be written. -/
theorem writeReg_arg_busy {r : Reg} (hb : s.regs.busy = true) (hr : r = .cfg ∨ r = .srcLen ∨ r = .dstCap) :
    writeReg r v s = .next s := by
  obtain rfl | rfl | rfl := hr <;> exact if_pos hb

end

/-! ## What a read returns -/

section
variable {s : State}

theorem readReg_status_of_not_done (hd : s.regs.done = false) :
    readReg .status s = returnData (statusWord s.regs) s := by
  simp only [readReg, readStatus, hd, Unseen.seeIf]
  rfl

theorem Inv.not_done (hi : Inv s) (hb : s.regs.busy = true) : s.regs.done = false :=
  Bool.eq_false_of_not_eq_true fun h => hi.notBoth ⟨hb, h⟩

/-- R218: STATUS of a running command is 0x0000_0001. -/
theorem Inv.statusWord_busy (hi : Inv s) (hb : s.regs.busy = true) : statusWord s.regs = 0x00000001#32 := by
  simp only [statusWord, hb, hi.not_done hb, hi.noErr hb]
  decide

theorem State.hidesResults_iff : s.hidesResults = true ↔ s.regs.busy = true ∨ s.unseen.last ≠ none := by
  simp [State.hidesResults, Option.isSome_iff_ne_none]

theorem State.not_hidesResults (hb : s.regs.busy = false) (hu : s.unseen.last = none) : ¬ s.hidesResults = true := by
  simp [State.hidesResults_iff, hb, hu]

theorem readReg_outCount_of_seen (hb : s.regs.busy = false) (hu : s.unseen.last = none) :
    readReg .outCount s = returnData s.regs.outCount s := if_neg (State.not_hidesResults hb hu)

theorem readReg_srcUsed_of_seen (hb : s.regs.busy = false) (hu : s.unseen.last = none) :
    readReg .srcUsed s = returnData s.regs.srcUsed s := if_neg (State.not_hidesResults hb hu)

theorem readReg_result_of_hidden {r : Reg} (h : s.regs.busy = true ∨ s.unseen.last ≠ none)
    (hr : r = .outCount ∨ r = .srcUsed) : readReg r s = returnFree s := by
  obtain rfl | rfl := hr <;> exact if_pos (State.hidesResults_iff.2 h)

theorem ctrlWord_eq (r : Regs) : ctrlWord r = if r.irqEn then 1#32 else 0#32 := by
  cases h : r.irqEn <;> simp only [ctrlWord, h] <;> decide

end

/-- Once the host sees a command complete, it may rely on the bytes that command wrote too, and on nothing more
(20_memory R63). -/
theorem Unseen.see_hides_iff (u : Unseen) (i : Nat) :
    u.see.hides i = true ↔ u.hides i = true ∧ ∀ w, u.last = some w → w ≤ i := by
  cases h : u.last with
  | none => simp [Unseen.see_of_none h]
  | some w => simp [Unseen.see_hides h, and_comm]

/-! ## The command words -/

section
variable {s : State}

theorem unlessBusy_idle (hb : s.regs.busy = false) (o : Out) : unlessBusy s o = o := if_neg (by simp [hb])

/-- R212: a command with a legal parameter set is accepted where its buffers are well placed. -/
theorem start_of_legal (c : Command) (hl : s.legal = true) (hm : s.misplaced = none) :
    start c s = .next (accept c s) := by
  simp [start_eq, hl, hm]

theorem State.idle_eta (hb : s.regs.busy = false) (hp : s.eng.phase = .idle) :
    { s with regs.busy := false, eng.phase := .idle } = s := by rw [← hb, ← hp]

end

end Sys2Proof.Machine

open Sys2Proof Sys2Proof.Machine

/-- Settles O10: CMD is the register the write reaches. -/
theorem stepRunsCommandWord : Obligations.StepRunsCommandWord := fun _ _ _ hin => step_of_write .cmd hin rfl

/-- Settles O31: NOP is ignored while BUSY = 1, and does nothing else. -/
theorem nopChangesNothing : Obligations.NopChangesNothing := fun _ => ite_self _

/-- Settles O32: the three ranges and the width of P make the parameter set legal. -/
theorem commandsAreAccepted : Obligations.CommandsAreAccepted := by
  intro s hb hm hei heiMax hej hejMax hp
  have hp255 : s.regs.cfg.p.toNat ≤ 255 := Nat.le_of_lt_succ s.regs.cfg.p.isLt
  have hl : s.legal = true := State.legal_iff.2 ⟨hei, heiMax, hej, hejMax, hp, hp255⟩
  have haccepted (c : Command) : unlessBusy s (start c s) = .next (accept c s) := by
    rw [unlessBusy_idle hb, start_of_legal c hl hm]
  exact ⟨haccepted .compress, haccepted .decompress⟩

/-- Settles O34: the word is rejected, which leaves BUSY and PHASE as they are in IDLE. -/
theorem reservedWordCompletes : Obligations.ReservedWordCompletes := by
  intro s w _ hb hp
  refine ⟨Config.freeWord s.draws, (unlessBusy_idle hb _).trans ?_⟩
  conv_rhs => rw [← State.idle_eta hb hp]
  rfl

/-- Settles O36: register by register. -/
theorem registerWrites : Obligations.RegisterWrites := by
  intro s off v rest hin
  refine ⟨?status, ?cfg, ?srcLen, ?dstCap, ?busy, ?ctrl, ?readOnly⟩
  case status =>
    rintro rfl
    refine ⟨_, (step_of_write .status hin rfl).trans (writeReg_status v _), rfl, fun h1 => ?_, fun hi hb => ?_⟩
    · simp [State.irq, h1]
    · have hd : s.regs.done = false := hi.not_done hb
      simp only [hd, Bool.false_and]
      rw [← hd]
  case cfg =>
    rintro hb rfl
    exact (step_of_write .cfg hin rfl).trans (writeReg_cfg_idle v hb)
  case srcLen =>
    rintro hb rfl
    exact (step_of_write .srcLen hin rfl).trans (writeReg_srcLen_idle v hb)
  case dstCap =>
    rintro hb rfl
    exact (step_of_write .dstCap hin rfl).trans (writeReg_dstCap_idle v hb)
  case busy =>
    rintro hb (rfl | rfl | rfl)
    · exact (step_of_write .cfg hin rfl).trans (writeReg_arg_busy v hb (.inl rfl))
    · exact (step_of_write .srcLen hin rfl).trans (writeReg_arg_busy v hb (.inr (.inl rfl)))
    · exact (step_of_write .dstCap hin rfl).trans (writeReg_arg_busy v hb (.inr (.inr rfl)))
  case ctrl =>
    rintro rfl
    exact ⟨_, step_of_write .ctrl hin rfl, rfl, rfl⟩
  case readOnly =>
    rintro (rfl | rfl | ⟨hge, haligned⟩)
    · exact step_of_write .outCount hin rfl
    · exact step_of_write .srcUsed hin rfl
    · by_cases hcaps : off = 0x20#6
      · subst hcaps
        exact step_of_write .caps hin rfl
      · have hne : off.toNat ≠ 0x20 := fun h => hcaps (BitVec.eq_of_toNat_eq h)
        exact step_of_write .reserved hin (accessReg_eq_reserved (by omega) haligned)

/-- Settles O37: register by register. -/
theorem registerReads : Obligations.RegisterReads := by
  intro s off rest hin
  refine ⟨?cfg, ?srcLen, ?dstCap, ?cmd, ?status, ?statusBusy, ?outCount, ?srcUsed, ?hidden, ?ctrl, ?caps, ?reserved⟩
  case cfg => rintro rfl; exact step_of_read .cfg hin rfl
  case srcLen => rintro rfl; exact step_of_read .srcLen hin rfl
  case dstCap => rintro rfl; exact step_of_read .dstCap hin rfl
  case cmd => rintro rfl; exact step_of_read .cmd hin rfl
  case status =>
    rintro rfl
    refine ⟨_, step_of_read .status hin rfl, rfl, fun hd => ?_, fun hd => ?_⟩
    · have hseen : (readStatus { s with host.inputs := rest }).unseen = s.unseen.see := if_pos hd
      simp only [readReg, hseen]
      exact ⟨s.unseen.see_last, s.unseen.see_hides_iff⟩
    · exact if_neg (by simp [hd])
  case statusBusy =>
    rintro hi hb rfl
    rw [← hi.statusWord_busy hb]
    exact (step_of_read .status hin rfl).trans (congrArg _ (readReg_status_of_not_done (hi.not_done hb)))
  case outCount =>
    rintro hb hu rfl
    exact (step_of_read .outCount hin rfl).trans (congrArg _ (readReg_outCount_of_seen hb hu))
  case srcUsed =>
    rintro hb hu rfl
    exact (step_of_read .srcUsed hin rfl).trans (congrArg _ (readReg_srcUsed_of_seen hb hu))
  case hidden =>
    rintro hh (rfl | rfl)
    · exact ⟨_, (step_of_read .outCount hin rfl).trans (congrArg _ (readReg_result_of_hidden hh (.inl rfl)))⟩
    · exact ⟨_, (step_of_read .srcUsed hin rfl).trans (congrArg _ (readReg_result_of_hidden hh (.inr rfl)))⟩
  case ctrl =>
    rintro rfl
    rw [← ctrlWord_eq]
    exact step_of_read .ctrl hin rfl
  case caps => rintro rfl; exact step_of_read .caps hin rfl
  case reserved =>
    intro hge haligned
    exact step_of_read .reserved hin (accessReg_eq_reserved hge haligned)

end

section
/-! PROOFS. 44_host_commands R212, 10_state R31: what a running command keeps while it goes on. -/

namespace Sys2Proof.Machine

/-- The host registers but IRQ_EN, and the WIN entries at N and above, are as they were. -/
structure KeepsArguments (s t : State) : Prop where
  regs    : t.regs = { s.regs with irqEn := t.regs.irqEn }
  entries : ∀ i, s.n ≤ i → t.win.entry i = s.win.entry i

theorem keepsArguments_of_eq {s t : State} (hregs : t.regs = s.regs) (hwin : t.win = s.win) : KeepsArguments s t :=
  ⟨by rw [hregs], fun i _ => by rw [hwin]⟩

/-! ## The engine's phases -/

/-- A step of the engine after which the command still runs has written no host register. -/
theorem EngineOutcome.regs_of_busy {s t : State} (o : EngineOutcome s t) (hbt : t.regs.busy = true) :
    t.regs = s.regs := by
  cases o with
  | waits _ => rfl
  | goesOn hg => exact hg.frame.regs
  | aborted _ _ => cases hbt
  | succeeded _ => cases hbt

section
variable {s t : State} {i : Nat} (hge : s.n ≤ i)
include hge

theorem engineInit_entry (h : engineInit s = .next t) : t.win.entry i = s.win.entry i := by
  have hfill : (winInit s).win.entry i = s.win.entry i := by rw [winInit_entry, if_neg (Nat.not_lt.2 hge)]
  cases hc : s.eng.cur with
  | compress => exact Host.Outcome.next.inj ((engineInit_compress hc).symm.trans h) ▸ hfill
  | decompress => exact Host.Outcome.next.inj ((engineInit_decompress hc).symm.trans h) ▸ hfill

theorem engineEmit_entry (hcur : s.win.cur < s.n) (h : engineEmit s = .next t) (hbt : t.regs.busy = true) :
    t.win.entry i = s.win.entry i := by
  obtain ⟨-, ⟨u, hu, rfl⟩ | ⟨u, -, rfl⟩⟩ := engineEmit_next h
  · have hwin : u.win = s.win := (putBits_win_cur hu).1
    have hn : u.n = s.n := State.n_eq (congrArg Regs.cfg (engineFrame_putBits hu).regs)
    obtain ⟨-, -, -, hcells⟩ := winConsume_frame s.eng.pos s.emitCount u
    obtain ⟨-, hentries, -⟩ := hcells (by rwa [hwin, hn])
    exact (hentries i (hn ▸ hge)).trans (by rw [hwin])
  · cases hbt

theorem engineToken_entry {flag : Bool} (hcur : s.win.cur < s.n) (h : engineToken flag s = .next t)
    (hbt : t.regs.busy = true) : t.win.entry i = s.win.entry i := by
  unfold engineToken at h
  by_cases hle : s.eng.ibits + payloadWidth s.params flag ≤ 8 * s.regs.srcLen.toNat
  · rw [fetchToken_ok flag s hle] at h
    cases flag with
    | true =>
      obtain ⟨-, rfl⟩ := execLit_next h
      exact (emitByte_entry _ _ i).trans (if_neg (Nat.ne_of_gt (Nat.lt_of_lt_of_le hcur hge)))
    | false =>
      obtain ⟨code, -, rfl⟩ | ⟨-, -, -, rfl⟩ := execMatchTok_next h
      · cases hbt
      · rfl
  · obtain ⟨b, hb⟩ := fetchToken_error flag s (Nat.lt_of_not_le hle)
    rw [hb] at h
    obtain rfl := Host.Outcome.next.inj h
    cases hbt

theorem engineCopy_entry (hcur : s.win.cur < s.n) (hm : MatchOk s) (h : engineCopy s = .next t) :
    t.win.entry i = s.win.entry i := by
  obtain ⟨v, hloop, -, -, -, -, -, -, hcells⟩ :=
    copyLoop_ok (s.eng.tokLen - s.eng.copyK) s hm.off.1 hm.off.2
  obtain ⟨-, hentries, -⟩ := hcells hcur
  simp only [engineCopy, hloop] at h
  exact Host.Outcome.next.inj h ▸ hentries i hge

end

theorem engineFind_win {s t : State} (h : engineFind s = .next t) : t.win = s.win := by
  unfold engineFind at h
  split at h <;> exact Host.Outcome.next.inj h ▸ rfl

theorem engineFlush_not_busy {s t : State} (h : engineFlush s = .next t) : t.regs.busy = false := by
  unfold engineFlush at h
  split at h <;> exact Host.Outcome.next.inj h ▸ rfl

theorem engineFlag_win {s t : State} (h : engineFlag s = .next t) (hbt : t.regs.busy = true) : t.win = s.win := by
  unfold engineFlag at h
  split at h
  · obtain rfl := Host.Outcome.next.inj h
    cases hbt
  · obtain ⟨-, flag, hf⟩ | hf := getFlag_cases s <;> simp only [hf] at h <;> obtain rfl := Host.Outcome.next.inj h
    · rfl
    · cases hbt

/-! ## The outside -/

@[simp] theorem busRead_regs (off : BitVec 6) (width : Width) (s : State) : (busRead off width s).regs = s.regs := by
  unfold busRead
  split
  · rw [readReg_eq]
  · rfl

theorem CommandOutcome.keepsArguments {s t : State} (hb : s.regs.busy = true) (o : CommandOutcome s t) :
    KeepsArguments s t := by
  cases o with
  | ignored => exact keepsArguments_of_eq rfl rfl
  | accepted hidle => simp [hb] at hidle
  | badParam hidle => simp [hb] at hidle
  | badCmd hidle => simp [hb] at hidle

section
variable {s t : State} (hi : Inv s) (hb : s.regs.busy = true)
include hi hb

theorem writeReg_keepsArguments {r : Reg} {v : Word} (h : writeReg r v s = .next t) : KeepsArguments s t := by
  have hsame (h : Host.Outcome.next s = (.next t : Out)) : KeepsArguments s t :=
    Host.Outcome.next.inj h ▸ keepsArguments_of_eq rfl rfl
  cases r with
  | cmd => exact (execWord_outcome h).keepsArguments hb
  | cfg => exact hsame ((writeReg_arg_busy v hb (.inl rfl)).symm.trans h)
  | srcLen => exact hsame ((writeReg_arg_busy v hb (.inr (.inl rfl))).symm.trans h)
  | dstCap => exact hsame ((writeReg_arg_busy v hb (.inr (.inr rfl))).symm.trans h)
  | status =>
    obtain rfl := Host.Outcome.next.inj ((writeReg_status v s).symm.trans h)
    refine keepsArguments_of_eq ?_ rfl
    simp only [hi.not_done hb, Bool.false_and]
    rw [← hi.not_done hb]
  | ctrl =>
    obtain rfl := Host.Outcome.next.inj h
    exact ⟨rfl, fun _ _ => rfl⟩
  | outCount | srcUsed | caps | reserved => exact hsame h

variable (hbt : t.regs.busy = true)
include hbt

/-! ## Every step -/

/-- The cursor lies below N, so no phase writes an entry at N or above. -/
theorem engineStep_entry (h : engineStep s = .next t) {i : Nat} (hge : s.n ≤ i) :
    t.win.entry i = s.win.entry i := by
  have hcur := hi.cursor_lt (hi.busy.1 hb)
  have hphase := hi.phase
  unfold engineStep at h
  cases hp : s.eng.phase <;> simp only [hp, PhaseOk] at h hphase
  case idle => exact absurd hp (hi.busy.1 hb)
  case init => exact engineInit_entry hge h
  case cFind => rw [engineFind_win h]
  case cEmit => exact engineEmit_entry hge (hcur (by simp [hp])) h hbt
  case cFlush => simp [engineFlush_not_busy h] at hbt
  case dFlag => rw [engineFlag_win h hbt]
  case dLit => exact engineToken_entry (flag := true) hge (hcur (by simp [hp])) h hbt
  case dMatch => exact engineToken_entry (flag := false) hge (hcur (by simp [hp])) h hbt
  case dCopy => exact engineCopy_entry hge (hcur (by simp [hp])) hphase.2 h

theorem engineStep_keepsArguments (h : engineStep s = .next t) : KeepsArguments s t :=
  ⟨by rw [(engineStep_outcome h).regs_of_busy hbt], fun _ hge => engineStep_entry hi hb hbt h hge⟩

/-- A wait that is not over gives the engine its step; the invariant does not see the wait. -/
theorem engineStep_keepsArguments_of_wait {o : Outside} {b : Bool}
    (h : engineStep { s with host := o, unseen := s.unseen.seeIf b } = .next t) : KeepsArguments s t := by
  obtain ⟨hregs, hentries⟩ := engineStep_keepsArguments ((hostFrame_read s o b s.draws).inv hi) hb hbt h
  exact ⟨hregs, hentries⟩

theorem hostStep_keepsArguments {i : Input} (h : hostStep i s = .next t) : KeepsArguments s t := by
  have heq {u : State} (hregs : u.regs = s.regs) (hwin : u.win = s.win) (h : .next u = (.next t : Out)) :
      KeepsArguments s t := Host.Outcome.next.inj h ▸ keepsArguments_of_eq hregs hwin
  have hrefused {o : Out} (h : unlessRunning s o = .next t) : KeepsArguments s t :=
    absurd hb (by simp [(unlessRunning_next h).1])
  cases i with
  | engine => exact engineStep_keepsArguments hi hb hbt h
  | write off width v =>
    simp only [hostStep, busWrite] at h
    split at h
    · exact writeReg_keepsArguments hi hb h
    · exact heq rfl rfl h
  | read off width => exact heq (busRead_regs off width s) (hostFrame_busRead off width s).win h
  | srcWrite index b => exact hrefused h
  | dstWrite index b => exact hrefused h
  | dstRead index => exact heq (readDst_regs _ s) (readDst_win _ s) (bufferAccess_next h).2
  | bind p => exact hrefused h
  | waitDone =>
    simp only [hostStep] at h
    split at h
    · exact heq (u := readStatus s) rfl rfl h
    · exact engineStep_keepsArguments_of_wait hi hb hbt h
  | waitIrq =>
    simp only [hostStep] at h
    split at h
    · exact heq rfl rfl h
    · exact engineStep_keepsArguments_of_wait (b := false) hi hb hbt h
  | reset =>
    obtain rfl := Host.Outcome.next.inj h
    cases hbt

theorem step_keepsArguments (h : step s = .next t) : KeepsArguments s t := by
  unfold step at h
  split at h
  case h_1 => exact engineStep_keepsArguments hi hb hbt h
  case h_2 i rest _ =>
    have hinv : Inv { s with host.inputs := rest } := (hostFrame_read s _ false s.draws).inv hi
    obtain ⟨hregs, hentries⟩ := hostStep_keepsArguments hinv hb hbt h
    exact ⟨hregs, hentries⟩

end

end Sys2Proof.Machine

open Sys2Proof.Machine

/-- Settles O45: phase by phase and input by input; a running command's cursor stays below N by the invariant. -/
theorem runningCommandKeepsItsArguments : Obligations.RunningCommandKeepsItsArguments := by
  intro s t hi hb h hbt
  obtain ⟨hregs, hentries⟩ := step_keepsArguments hi hb hbt h
  have hn : t.n = s.n := State.n_eq (by rw [hregs])
  have hinv : Inv t := (stepKeepsInvariant s t h).1 hi
  exact ⟨hregs, (step_writesInside hb h).place, hentries, fun hp => hn ▸ hinv.cursor_lt (hinv.busy.1 hbt) hp⟩

end

section
/-! PROOFS. 44_host_commands R220: what a command gives is a function of its registers, its SRC bytes and the build. -/

namespace Sys2Proof.Machine

/-! ## What the codec gives -/

theorem applyToken_error_ne_ok {fill : Byte} {pr : Params} {dstlen : Nat} {i : Instr} {h : List Byte} {code : ErrCode}
    (he : applyToken fill pr dstlen i h = .error code) : code ≠ .ok := by
  cases i with
  | matchTok off len =>
    simp only [applyToken] at he
    split_ifs at he <;> cases he <;> nofun
  | lit | nop | compress | decompress | reserved => cases he

theorem decodeFrom_error_ne_ok {o : BitOrder} {fill : Byte} {pr : Params} {dstlen fuel : Nat} {h : List Byte}
    {bits : List Bool} {code : ErrCode} (he : decodeFrom o fill pr dstlen fuel h bits = .error code) : code ≠ .ok := by
  induction fuel generalizing h bits with
  | zero => cases he; nofun
  | succ fuel ih =>
    simp only [decodeFrom] at he
    split at he
    · cases he
    · split at he
      · cases he; nofun
      · split at he
        · cases he; exact applyToken_error_ne_ok ‹_›
        · exact ih he

theorem encodeBytes_error_ne_ok {o : BitOrder} {pr : Params} {f : Nat → Byte} {n cap : Nat} {code : ErrCode}
    (he : encodeBytes o pr f n cap = .error code) : code ≠ .ok := by
  simp only [encodeBytes] at he
  split at he <;> cases he
  nofun

theorem decodeBytes_error_ne_ok {o : BitOrder} {fill : Byte} {pr : Params} {src : List Byte} {dstlen : Nat}
    {code : ErrCode} (he : decodeBytes o fill pr src dstlen = .error code) : code ≠ .ok := by
  simp only [decodeBytes] at he
  split at he <;> cases he
  exact decodeFrom_error_ne_ok ‹_›

/-- What the accepted command is to give: the DST bytes and SRC_USED, or the error. -/
def State.commandResult (s : State) : Except ErrCode (List Byte × Word) :=
  match s.eng.cur with
  | .compress =>
    (encodeBytes s.hw.order s.params s.srcByte s.regs.srcLen.toNat s.regs.dstCap.toNat).map
      fun bytes => (bytes, s.regs.srcLen)
  | .decompress =>
    (decodeBytes s.hw.order s.hw.fill s.params (s.srcList s.regs.srcLen.toNat) s.regs.dstCap.toNat).map
      fun d => (d.bytes, BitVec.ofNat 32 d.srcUsed)

/-- It takes nothing from WIN, the working registers or DST. -/
theorem State.commandResult_congr {s s' : State} (hcur : s.eng.cur = s'.eng.cur) (hhw : s.hw = s'.hw)
    (hregs : s.regs = s'.regs) (hsrc : ∀ i, i < s.regs.srcLen.toNat → s.srcByte i = s'.srcByte i) :
    s.commandResult = s'.commandResult := by
  have hparams : s.params = s'.params := State.params_eq (congrArg Regs.cfg hregs)
  have hlist : s.srcList s.regs.srcLen.toNat = s'.srcList s.regs.srcLen.toNat :=
    List.map_congr_left fun i hi => hsrc i (List.mem_range.1 hi)
  unfold State.commandResult
  rw [encodeBytes_congr hsrc, hlist, hcur, hhw, hparams, hregs]

/-! ## What the machine leaves -/

/-- The command accepted in s has ended in t with the result r. -/
def EndsWith (s : State) (r : Except ErrCode (List Byte × Word)) (t : State) : Prop :=
  match r with
  | .ok (bytes, used) =>
    Succeeded (BitVec.ofNat 32 bytes.length) used s t ∧ ∀ a, a < bytes.length → t.dst.read a = bytes.getD a 0#8
  | .error code => code ≠ .ok ∧ Failed code s t

/-- Every accepted command, left alone, ends with its result (42_match R160, 43_decoder R190). -/
theorem command_ends {s : State} (hi : Inv s) (hin : s.host.inputs = []) (hp : s.eng.phase = .init) :
    ∃ k t, Sys2Proof.core.run k s = .next t ∧ EndsWith s s.commandResult t := by
  cases hc : s.eng.cur with
  | compress =>
    obtain ⟨k, t, hrun, hends⟩ := compressComputesEncode s hi hin hp hc
    refine ⟨k, t, hrun, ?_⟩
    simp only [State.commandResult, hc]
    split at hends
    · rename_i bytes hr
      obtain ⟨hsucceeded, -, hread⟩ := hends
      rw [hr]
      exact ⟨hsucceeded, fun a ha => (hread a).trans (if_pos ha)⟩
    · rename_i code hr
      rw [hr]
      exact ⟨encodeBytes_error_ne_ok hr, hends.1 ▸ hends.2⟩
  | decompress =>
    obtain ⟨k, t, hrun, hends⟩ := decompressComputesDecode s hi hin hp hc
    refine ⟨k, t, hrun, ?_⟩
    simp only [State.commandResult, hc]
    split at hends
    · rename_i d hr
      obtain ⟨hsucceeded, hlength, hread⟩ := hends
      have hcount : BitVec.ofNat 32 d.bytes.length = s.regs.dstCap := by simp [hlength]
      rw [hr]
      exact ⟨hcount ▸ hsucceeded, fun a ha => (hread a).trans (if_pos ha)⟩
    · rename_i code hr
      rw [hr]
      exact ⟨decodeBytes_error_ne_ok hr, hends⟩

/-- The host registers and the DST bytes that carry a result are fixed by it. -/
theorem EndsWith.agree {s s' t t' : State} {r : Except ErrCode (List Byte × Word)} (h : EndsWith s r t)
    (h' : EndsWith s' r t') :
    t.regs.done = true ∧ t'.regs.done = true ∧ t.regs.err = t'.regs.err ∧ t.regs.outCount = t'.regs.outCount ∧
      (t.regs.err = .ok → t.regs.srcUsed = t'.regs.srcUsed ∧
        ∀ a, a < t.regs.outCount.toNat → t.dst.read a = t'.dst.read a) := by
  match r, h, h' with
  | .ok (bytes, used), ⟨h, hread⟩, ⟨h', hread'⟩ =>
    obtain ⟨-, hdone, herr⟩ := h.status
    obtain ⟨-, hdone', herr'⟩ := h'.status
    obtain ⟨hout, hused⟩ := h.results
    obtain ⟨hout', hused'⟩ := h'.results
    refine ⟨hdone, hdone', herr.trans herr'.symm, hout.trans hout'.symm, fun _ => ⟨hused.trans hused'.symm, ?_⟩⟩
    intro a ha
    have ha : a < bytes.length := by
      rw [hout, BitVec.toNat_ofNat] at ha
      exact Nat.lt_of_lt_of_le ha (Nat.mod_le _ _)
    rw [hread a ha, hread' a ha]
  | .error code, ⟨hcode, h⟩, ⟨_, h'⟩ =>
    obtain ⟨-, hdone, herr⟩ := h.status
    obtain ⟨-, hdone', herr'⟩ := h'.status
    exact ⟨hdone, hdone', herr.trans herr'.symm, h.outCount.trans h'.outCount.symm,
      fun hok => absurd (herr.symm.trans hok) hcode⟩

end Sys2Proof.Machine

open Sys2Proof.Machine

/-- Settles O59: both commands end with the same result, the one ENCODE or DECODE gives. -/
theorem commandsAreIndependent : Obligations.CommandsAreIndependent := by
  intro s s' hi hi' hin hin' hp hp' hcur hhw hregs hsrc
  obtain ⟨k, t, hrun, hends⟩ := command_ends hi hin hp
  obtain ⟨k', t', hrun', hends'⟩ := command_ends hi' hin' hp'
  rw [← State.commandResult_congr hcur hhw hregs hsrc] at hends'
  exact ⟨k, t, k', t', hrun, hrun', hends.agree hends'⟩

end

section
/-! PROOFS. 60_exceptions R255, R241, R248: whose turn a step is, a command with an illegal parameter set, and what makes
irq fall. -/

namespace Sys2Proof.Machine

section
variable {s : State} {rest : List Input}

theorem step_of_engine (hin : s.host.inputs = .engine :: rest) :
    step s = engineStep { s with host.inputs := rest } := by
  simp only [step, hin, hostStep]

theorem step_of_reset (hin : s.host.inputs = .reset :: rest) :
    step s = .next (applyReset { s with host.inputs := rest }) := by
  simp only [step, hin, hostStep]

/-- R255: the engine waits in IDLE. -/
theorem engineStep_idle (hp : s.eng.phase = .idle) : engineStep s = .next s := by
  simp only [engineStep, hp]

/-- R210: the ranges a legal parameter set must keep; P cannot exceed its 8 bits. -/
theorem State.legal_eq_false
    (h : s.regs.cfg.ei.toNat < 1 ∨ s.hw.eiMax < s.regs.cfg.ei.toNat ∨ s.regs.cfg.ej.toNat < 1 ∨
      s.hw.ejMax < s.regs.cfg.ej.toNat ∨ s.regs.cfg.p.toNat < 1) : s.legal = false := by
  refine Bool.eq_false_of_not_eq_true fun hl => ?_
  have hranges := State.legal_iff.1 hl
  simp only [State.params, Cfg.params] at hranges
  omega

/-- R241: with an illegal parameter set the command ends at its acceptance, wherever the buffers stand. -/
theorem start_of_illegal (c : Command) (hl : s.legal = false) : start c s = .next (reject .param (accept c s)) := by
  simp [start_eq, hl]

end

end Sys2Proof.Machine

open Sys2Proof Sys2Proof.Machine

/-- Settles O9: by what step does with the next input, and with none. -/
theorem engineTurn : Obligations.EngineTurn := fun _ =>
  ⟨step_of_no_input, fun _ => step_of_engine, fun hin hp => (step_of_no_input hin).trans (engineStep_idle hp)⟩

/-- Settles O33: the acceptance finds LEGAL(CFG) false and rejects the command. -/
theorem illegalParametersAreRejected : Obligations.IllegalParametersAreRejected := by
  intro s hb hrange
  have hrejected (c : Command) : ∃ t, unlessBusy s (start c s) = .next t ∧ Rejected .param s t :=
    ⟨_, (unlessBusy_idle hb _).trans (start_of_illegal c (State.legal_eq_false hrange)), reject_rejected .param c s nofun⟩
  exact ⟨hrejected .compress, hrejected .decompress⟩

/-- Settles O47: a write of 1 to STATUS bit 1, an acceptance and reset each leave DONE = 0; a write to CTRL leaves DONE. -/
theorem irqIsDoneAndEnabled : Obligations.IrqIsDoneAndEnabled := by
  intro s
  refine ⟨rfl, ?status, ?ctrl, ?reset, ?accepted⟩
  case status =>
    intro v rest hin hclear
    exact ⟨_, (step_of_write .status hin rfl).trans (writeReg_status v _), by simp [State.irq, hclear]⟩
  case ctrl => exact fun v rest hin => ⟨_, step_of_write .ctrl hin rfl, rfl, rfl⟩
  case reset => exact fun rest hin => ⟨_, step_of_reset hin, rfl⟩
  case accepted =>
    intro hb hl hm
    have haccepted (c : Command) : unlessBusy s (start c s) = .next (accept c s) :=
      (unlessBusy_idle hb _).trans (start_of_legal c hl hm)
    exact ⟨_, _, haccepted .compress, rfl, haccepted .decompress, rfl⟩

end

section
/-! PROOFS. 60_exceptions R243, R244, R246: a running command stops, but for reset, by the engine's completion; what that
and a command word that ends at once leave. -/

namespace Sys2Proof.Machine

/-! ## Only the engine and reset stop a running command -/

section
variable {s t : State}

theorem CommandOutcome.busy_of_busy (o : CommandOutcome s t) (hb : s.regs.busy = true) : t.regs.busy = true := by
  cases o with
  | ignored => exact hb
  | accepted _ => rfl
  | badParam hidle => simp [hb] at hidle
  | badCmd hidle => simp [hb] at hidle

/-- What an input other than reset does: the outside changes what it may, a word is written to CMD, or the engine takes
the step from where a wait's read of STATUS has left the state. -/
theorem hostStep_cases {i : Input} (hreset : i ≠ .reset) (h : hostStep i s = .next t) :
    HostFrame s t ∨ CommandOutcome s t ∨ ∃ o b, engineStep { s with host := o, unseen := s.unseen.seeIf b } = .next t := by
  have hhost {u : State} (f : HostFrame s u) (h : .next u = (.next t : Out)) : HostFrame s t :=
    Host.Outcome.next.inj h ▸ f
  cases i with
  | engine => exact .inr (.inr ⟨s.host, false, h⟩)
  | write off width v =>
    simp only [hostStep, busWrite] at h
    split at h
    · exact (writeReg_cases h).imp_right .inl
    · exact .inl (hhost (HostFrame.refl s) h)
  | read off width => exact .inl (hhost (hostFrame_busRead off width s) h)
  | srcWrite index b => exact .inl (hhost (hostFrame_putSrc _ b s) (bufferAccess_next (unlessRunning_next h).2).2)
  | dstWrite index b => exact .inl (hhost (hostFrame_putDst _ b s) (bufferAccess_next (unlessRunning_next h).2).2)
  | dstRead index => exact .inl (hhost (hostFrame_readDst _ s) (bufferAccess_next h).2)
  | bind p =>
    obtain ⟨hb, h⟩ := unlessRunning_next h
    exact .inl (hhost (hostFrame_args hb s.regs.cfg s.regs.srcLen s.regs.dstCap p) h)
  | waitDone =>
    simp only [hostStep] at h
    split at h
    · exact .inl (hhost (hostFrame_readStatus s) h)
    · exact .inr (.inr ⟨_, s.regs.done, h⟩)
  | waitIrq =>
    simp only [hostStep] at h
    split at h
    · exact .inl (hhost (HostFrame.refl s) h)
    · exact .inr (.inr ⟨_, false, h⟩)
  | reset => exact absurd rfl hreset

theorem step_engine_of_stops (hb : s.regs.busy = true) (hreset : ∀ rest, s.host.inputs ≠ .reset :: rest)
    (h : step s = .next t) (hbt : t.regs.busy = false) :
    ∃ o b, engineStep { s with host := o, unseen := s.unseen.seeIf b } = .next t := by
  have hrunning (hbt' : t.regs.busy = true) : False := by simp [hbt] at hbt'
  unfold step at h
  split at h
  case h_1 => exact ⟨s.host, false, h⟩
  case h_2 i rest hin =>
    have hi : i ≠ .reset := fun hi => hreset rest (hi ▸ hin)
    obtain f | o | ⟨o, b, hengine⟩ := hostStep_cases hi h
    · exact (hrunning (f.busy.trans hb)).elim
    · exact (hrunning (o.busy_of_busy hb)).elim
    · exact ⟨o, b, hengine⟩

/-! ## How it stops -/

/-- A step of the engine after which the command no longer runs has ended it, with an error or without. -/
theorem EngineOutcome.ends (o : EngineOutcome s t) (hb : s.regs.busy = true) (hbt : t.regs.busy = false) :
    (∃ code, code ≠ .ok ∧ Failed code s t) ∨ ∃ out used, Succeeded out used s t := by
  cases o with
  | waits _ => simp [hb] at hbt
  | goesOn hg => simp [hg.frame.regs, hb] at hbt
  | aborted hcode f => exact .inl ⟨_, hcode, f.failed hcode⟩
  | succeeded f => exact .inr ⟨_, _, f.succeeded _ _⟩

/-- R243, R246: a command stops, other than by reset, by its completion; the state it is reckoned from differs from s in
what the outside does next and in what it has seen. -/
theorem step_ends (hb : s.regs.busy = true) (hreset : ∀ rest, s.host.inputs ≠ .reset :: rest)
    (h : step s = .next t) (hbt : t.regs.busy = false) :
    ∃ o u, (∃ code, code ≠ .ok ∧ Failed code { s with host := o, unseen := u } t) ∨
      ∃ out used, Succeeded out used { s with host := o, unseen := u } t := by
  obtain ⟨o, b, hengine⟩ := step_engine_of_stops hb hreset h hbt
  exact ⟨o, s.unseen.seeIf b, (engineStep_outcome hengine).ends hb hbt⟩

end

/-! ## What the host has then to see -/

/-- 20_memory R63, 60_exceptions R248: a command that completes from DONE = 0 with DST[0..w) written raises irq where
IRQ_EN = 1, and the host sees it; masked, the host has yet to see it and those bytes. -/
theorem completion_seen {s t : State} {u : Unseen} {w : Nat} (hd : s.regs.done = false) (hdone : t.regs.done = true)
    (hirqEn : t.regs.irqEn = s.regs.irqEn)
    (hunseen : t.unseen = (u.record w).seeIf (s.regs.irqEn && !s.regs.done)) :
    (s.regs.irqEn = true → t.irq = true ∧ t.unseen.last = none) ∧
    (s.regs.irqEn = false → t.unseen.last = some w ∧ ∀ i, i < w → t.unseen.hides i = true) := by
  rw [hunseen]
  constructor <;> intro he
  · exact ⟨by simp [State.irq, hdone, hirqEn, he], by simp [he, hd]⟩
  · have hmasked (v : Unseen) : v.seeIf (s.regs.irqEn && !s.regs.done) = v := by simp [he, Unseen.seeIf]
    rw [hmasked]
    exact ⟨u.record_last w, fun i hi => by simp [hi]⟩

/-! ## A command word that ends at once -/

theorem CommandOutcome.buffers {s t : State} (o : CommandOutcome s t) :
    t.dst = s.dst ∧ t.src = s.src ∧ t.place = s.place := by
  cases o <;> exact ⟨rfl, rfl, rfl⟩

/-- R241, R244: no write to REG changes a byte of DST or SRC, a command word included. -/
theorem busWrite_buffers {off : BitVec 6} {width : Width} {v : Word} {s t : State}
    (h : busWrite off width v s = .next t) : t.dst = s.dst ∧ t.src = s.src ∧ t.place = s.place := by
  unfold busWrite at h
  split at h
  case h_1 r _ =>
    by_cases hr : r = .cmd
    · subst hr
      exact (execWord_outcome h).buffers
    · obtain ⟨regs, u, hw, -⟩ := writeReg_of_ne_cmd hr v s
      obtain rfl := Host.Outcome.next.inj (hw.symm.trans h)
      exact ⟨rfl, rfl, rfl⟩
  case h_2 =>
    obtain rfl := Host.Outcome.next.inj h
    exact ⟨rfl, rfl, rfl⟩

end Sys2Proof.Machine

open Sys2Proof.Machine

/-- Settles O41: the command has failed or succeeded; DONE was 0, so irq rises exactly where IRQ_EN = 1. -/
theorem completionSetsDone : Obligations.CompletionSetsDone := by
  intro s t hi hb h hbt hreset
  have hd : s.regs.done = false := hi.not_done hb
  obtain ⟨o, u, ⟨code, hcode, hf⟩ | ⟨out, used, hs⟩⟩ := step_ends hb hreset h hbt
  · obtain ⟨-, hdone, herr⟩ := hf.status
    have hne : t.regs.err ≠ .ok := herr ▸ hcode
    obtain ⟨henabled, hmasked⟩ := completion_seen (s := s) hd hdone hf.irqEn hf.unseen
    refine ⟨hf.phase, hdone, fun _ => hf.outCount, henabled, fun he => ?_⟩
    obtain ⟨hlast, hhides⟩ := hmasked he
    exact ⟨_, hlast, hhides, (absurd · hne), fun _ => rfl⟩
  · obtain ⟨-, hdone, herr⟩ := hs.status
    obtain ⟨henabled, hmasked⟩ := completion_seen (s := s) hd hdone hs.irqEn hs.unseen
    refine ⟨hs.phase, hdone, (absurd herr ·), henabled, fun he => ?_⟩
    obtain ⟨hlast, hhides⟩ := hmasked he
    exact ⟨_, hlast, hhides, fun _ => by rw [hs.results.1], (absurd herr ·)⟩

/-- Settles O42: DONE = 1 tells the command's completion from a reset, and its ERR from a success. -/
theorem stateAfterError : Obligations.StateAfterError := by
  intro s t hi h herr hdone
  refine ⟨fun hb => ?running, ?word⟩
  case running =>
    have hbt : t.regs.busy = false := Bool.eq_false_of_not_eq_true fun hbt =>
      ((stepKeepsInvariant s t h).1 hi).notBoth ⟨hbt, hdone⟩
    have hreset (rest : List Input) (hin : s.host.inputs = .reset :: rest) : False := by
      obtain rfl := Host.Outcome.next.inj ((step_of_reset hin).symm.trans h)
      cases hdone
    obtain ⟨o, u, ⟨code, -, hf⟩ | ⟨out, used, hs⟩⟩ := step_ends hb hreset h hbt
    · obtain ⟨hsrc, hplace⟩ := hf.src
      exact ⟨hf.outCount, hsrc, hplace, hf.srcBytes (State.misplaced_eq_none.1 (hi.placed hb)).2, hf.dst⟩
    · exact absurd hs.status.2.2 herr
  case word =>
    rintro - ⟨off, v, rest, hin⟩
    simp only [step, hin, hostStep] at h
    exact (busWrite_buffers h :)

end

section
/-! PROOFS. 70_reset R280, R281: the writes a running command ignores, and that its results hold until the next. -/

namespace Sys2Proof.Machine

/-- R281: a command word, whatever it is, starts, queues and cancels nothing while a command runs. -/
theorem execWord_busy (v : Word) {s : State} (hb : s.regs.busy = true) : exec (decodeWord v) s = .next s := by
  obtain hv | hv | hv | hv := decodeWord_cases v <;> rw [hv] <;> exact unlessBusy_busy hb _

/-! ## The results of the last command -/

/-- The results and BUSY are as they were, and nothing of what commands wrote is hidden anew. -/
structure ResultsHold (s t : State) : Prop where
  err      : t.regs.err = s.regs.err
  outCount : t.regs.outCount = s.regs.outCount
  srcUsed  : t.regs.srcUsed = s.regs.srcUsed
  busy     : t.regs.busy = s.regs.busy
  unseen   : ∃ b, t.unseen = s.unseen.seeIf b

/-- A command the host has seen stays seen, and so does each byte of DST it may rely on (20_memory R63). -/
theorem Unseen.hides_of_seeIf {b : Bool} {u : Unseen} {i : Nat} (h : (u.seeIf b).hides i = true) :
    u.hides i = true := by
  cases b with
  | false => exact h
  | true => exact ((u.see_hides_iff i).1 h).1

theorem Unseen.seeIf_of_none {u : Unseen} (b : Bool) (h : u.last = none) : u.seeIf b = u := by
  cases b with
  | false => rfl
  | true => exact Unseen.see_of_none h

section
variable {s t : State}

theorem resultsHold_of_regs (hregs : t.regs = s.regs) (hunseen : ∃ b, t.unseen = s.unseen.seeIf b) :
    ResultsHold s t :=
  ⟨by rw [hregs], by rw [hregs], by rw [hregs], by rw [hregs], hunseen⟩

/-- An access that leaves the registers shows at most a command complete. -/
theorem HostFrame.resultsHold (f : HostFrame s t) (hregs : t.regs = s.regs) : ResultsHold s t :=
  resultsHold_of_regs hregs f.unseen

/-- R216, R219: no register but CMD leads to ERR, OUT_COUNT, SRC_USED or BUSY. -/
theorem writeReg_resultsHold {r : Reg} {v : Word} (hr : r ≠ .cmd) (h : writeReg r v s = .next t) :
    ResultsHold s t := by
  have hsame (h : Host.Outcome.next s = (.next t : Out)) : ResultsHold s t :=
    Host.Outcome.next.inj h ▸ (HostFrame.refl s).resultsHold rfl
  cases r with
  | cmd => exact absurd rfl hr
  | cfg | srcLen | dstCap =>
    obtain rfl | ⟨-, h⟩ := unlessBusy_next h
    · exact hsame rfl
    · exact Host.Outcome.next.inj h ▸ ⟨rfl, rfl, rfl, rfl, false, rfl⟩
  | status =>
    obtain rfl := Host.Outcome.next.inj ((writeReg_status v s).symm.trans h)
    exact ⟨rfl, rfl, rfl, rfl, false, rfl⟩
  | ctrl => exact Host.Outcome.next.inj h ▸ ⟨rfl, rfl, rfl, rfl, _, rfl⟩
  | outCount | srcUsed | caps | reserved => exact hsame h

/-- R280: with the engine in IDLE, what a wait that is not over leaves is the wait and what its read has shown. -/
theorem engineStep_resultsHold {o : Outside} {b : Bool} (hp : s.eng.phase = .idle)
    (h : engineStep { s with host := o, unseen := s.unseen.seeIf b } = .next t) : ResultsHold s t :=
  Host.Outcome.next.inj ((engineStep_idle (s := { s with host := o, unseen := s.unseen.seeIf b }) hp).symm.trans h) ▸
    resultsHold_of_regs rfl ⟨b, rfl⟩

theorem hostStep_resultsHold {i : Input} (hp : s.eng.phase = .idle) (hreset : i ≠ .reset)
    (hcmd : ∀ v, i ≠ .write 0x0C#6 .word v) (h : hostStep i s = .next t) : ResultsHold s t := by
  have hframe {u : State} (f : HostFrame s u) (hregs : u.regs = s.regs) (h : .next u = (.next t : Out)) :
      ResultsHold s t := Host.Outcome.next.inj h ▸ f.resultsHold hregs
  cases i with
  | engine => exact engineStep_resultsHold (b := false) hp h
  | write off width v =>
    simp only [hostStep, busWrite] at h
    split at h
    case h_1 r hr =>
      refine writeReg_resultsHold ?_ h
      rintro rfl
      obtain ⟨rfl, rfl⟩ := accessReg_eq_cmd hr
      exact hcmd v rfl
    case h_2 => exact hframe (HostFrame.refl s) rfl h
  | read off width => exact hframe (hostFrame_busRead off width s) (busRead_regs off width s) h
  | srcWrite index b =>
    exact hframe (hostFrame_putSrc _ b s) (putSrc_regs _ b s) (bufferAccess_next (unlessRunning_next h).2).2
  | dstWrite index b => exact hframe (hostFrame_putDst _ b s) rfl (bufferAccess_next (unlessRunning_next h).2).2
  | dstRead index => exact hframe (hostFrame_readDst _ s) (readDst_regs _ s) (bufferAccess_next h).2
  | bind p =>
    obtain ⟨-, h⟩ := unlessRunning_next h
    exact Host.Outcome.next.inj h ▸ resultsHold_of_regs rfl ⟨false, rfl⟩
  | waitDone =>
    simp only [hostStep] at h
    split at h
    · exact hframe (hostFrame_readStatus s) rfl h
    · exact engineStep_resultsHold hp h
  | waitIrq =>
    simp only [hostStep] at h
    split at h
    · exact hframe (HostFrame.refl s) rfl h
    · exact engineStep_resultsHold (b := false) hp h
  | reset => exact absurd rfl hreset

theorem step_resultsHold (hp : s.eng.phase = .idle) (hreset : ∀ rest, s.host.inputs ≠ .reset :: rest)
    (hcmd : ∀ v rest, s.host.inputs ≠ .write 0x0C#6 .word v :: rest) (h : step s = .next t) : ResultsHold s t := by
  unfold step at h
  split at h
  case h_1 => exact engineStep_resultsHold (b := false) hp h
  case h_2 i rest hin =>
    obtain ⟨herr, hout, hused, hbusy, hunseen⟩ := hostStep_resultsHold (s := { s with host.inputs := rest }) hp
      (fun hi => hreset rest (hi ▸ hin)) (fun v hi => hcmd v rest (hi ▸ hin)) h
    exact ⟨herr, hout, hused, hbusy, hunseen⟩

end

theorem Inv.idle_of_not_busy {s : State} (hi : Inv s) (hb : s.regs.busy = false) : s.eng.phase = .idle := by
  by_contra hp
  simp [hi.busy.2 hp] at hb

end Sys2Proof.Machine

open Sys2Proof Sys2Proof.Machine

/-- Settles O46: BUSY = 0 is IDLE, where the engine waits; of the host's accesses only a command word writes the
results, and the others hide nothing. -/
theorem resultsHoldUntilNextCommand : Obligations.ResultsHoldUntilNextCommand := by
  intro s t hi hb h hcmd hreset
  obtain ⟨herr, hout, hused, hbusy, b, hunseen⟩ := step_resultsHold (hi.idle_of_not_busy hb) hreset hcmd h
  rw [hunseen]
  exact ⟨herr, hout, hused, hbusy.trans hb, Unseen.seeIf_of_none b, fun _ => Unseen.hides_of_seeIf⟩

/-- Settles O35: R216 for the arguments, and every command word for CMD. -/
theorem writesIgnoredWhileBusy : Obligations.WritesIgnoredWhileBusy := by
  intro s hb
  refine ⟨fun off v rest hoff hin => ?_, unlessBusy_busy hb _, unlessBusy_busy hb _, fun _ => unlessBusy_busy hb _⟩
  obtain ⟨-, -, -, -, hargs, -⟩ := registerWrites s off v rest hin
  obtain hcfg | hsrcLen | hdstCap | rfl := hoff
  · exact hargs hb (.inl hcfg)
  · exact hargs hb (.inr (.inl hsrcLen))
  · exact hargs hb (.inr (.inr hdstCap))
  · exact (step_of_write .cmd hin rfl).trans (execWord_busy v hb)

end

section
/-! PROOFS. 70_reset R270, R271: what a reset leaves. -/

namespace Sys2Proof.Machine

/-- R270: with no command running a reset loses nothing of DST. -/
theorem applyReset_dst_of_idle {s : State} (hb : s.regs.busy = false) : (applyReset s).dst = s.dst := by
  simp [applyReset, hb]

end Sys2Proof.Machine

open Sys2Proof.Machine

/-- Settles O48: a reset writes only in the DST of the command it abandons, so SRC[0..SRC_LEN) stands as it did. -/
theorem resetAbandons : Obligations.ResetAbandons := by
  intro s rest hin
  let u : State := { s with host.inputs := rest }
  obtain ⟨hsrc, hplace, hdst⟩ := applyReset_writesInside u
  exact ⟨_, step_of_reset hin, rfl, rfl, rfl, applyReset_hw u, hsrc, hplace,
    fun ho _ hi => State.srcByte_kept hsrc hplace hdst ho hi, applyReset_dst_of_idle (s := u),
    s.unseen.supersede_last, s.unseen.supersede_hides, hdst⟩

end

section
/-! PROOFS. 70_reset R283, 20_memory R60, R61, R63: the runs refused for their buffers, and the outside's accesses to
the buffers. -/

namespace Sys2Proof.Machine

/-! ## Where a command is refused (R283, 93 U6, U8) -/

/-- A span the buffers share has a byte in both exactly when its first byte is one. -/
theorem Placement.overlaps_iff {p : Placement} {srcLen dstCap : Nat} :
    p.overlaps srcLen dstCap = true ↔
      ∃ sp ∈ p.shared, ∃ k, k < sp.len ∧ sp.src + k < srcLen ∧ sp.dst + k < dstCap := by
  simp only [Placement.overlaps, List.any_eq_true, Bool.and_eq_true, decide_eq_true_eq]
  refine exists_congr fun sp => and_congr_right fun _ => ⟨fun ⟨⟨hlen, hsrc⟩, hdst⟩ => ⟨0, hlen, hsrc, hdst⟩, ?_⟩
  rintro ⟨k, hk, hsrc, hdst⟩
  omega

section
variable {s : State}

theorem State.misplaced_of_device (hd : s.place.plain = false) : s.misplaced = some .deviceBuffer := if_pos hd

theorem State.misplaced_of_overlap (hp : s.place.plain = true) (ho : s.overlaps = true) :
    s.misplaced = some .bufferOverlap := by
  simp [State.misplaced, hp, ho]

/-- Both commands are refused where a legal parameter set meets misplaced buffers. -/
theorem commands_refused {r : Refusal} (hb : s.regs.busy = false) (hl : s.legal = true) (hm : s.misplaced = some r) :
    exec .compress s = .refused r ∧ exec .decompress s = .refused r := by
  have hstart (c : Command) : unlessBusy s (start c s) = .refused r := by
    rw [unlessBusy_idle hb]
    simp [start_eq, hl, hm]
  exact ⟨hstart .compress, hstart .decompress⟩

/-! ## What becomes of an access -/

theorem step_of_input {i : Input} {rest : List Input} (hin : s.host.inputs = i :: rest) :
    step s = hostStep i { s with host.inputs := rest } := by
  simp only [step, hin]

theorem unlessRunning_busy (hb : s.regs.busy = true) (o : Out) : unlessRunning s o = .refused .bufferHazard := if_pos hb

theorem unlessRunning_idle (hb : s.regs.busy = false) (o : Out) : unlessRunning s o = o := if_neg (by simp [hb])

theorem bufferAccess_plain (hp : s.place.plain = true) (o : Out) : bufferAccess s o = o := if_pos hp

theorem bufferAccess_device (hp : s.place.plain = false) (o : Out) : bufferAccess s o = .refused .deviceBuffer :=
  if_neg (by simp [hp])

/-! ## What the host may read of DST (R63) -/

theorem State.hidesDst_iff {i : Nat} :
    s.hidesDst i = true ↔ (s.regs.busy = true ∧ s.writesDst i = true) ∨ (∃ w, s.unseen.last = some w ∧ i < w) ∨
      ∃ e ∈ s.unseen.older, e.lo ≤ i ∧ i < e.hi := by
  simp only [State.hidesDst, Bool.or_eq_true, Bool.and_eq_true, Unseen.hides_iff]

theorem State.hidesDst_eq_false {i : Nat} (hrun : s.regs.busy = false ∨ s.writesDst i = false)
    (hlast : ∀ w, s.unseen.last = some w → w ≤ i) (holder : ∀ e ∈ s.unseen.older, i < e.lo ∨ e.hi ≤ i) :
    s.hidesDst i = false := by
  refine Bool.eq_false_of_not_eq_true fun h => ?_
  obtain ⟨hb, hw⟩ | ⟨w, hw, hlt⟩ | ⟨e, he, hlo, hhi⟩ := State.hidesDst_iff.1 h
  · simp [hb, hw] at hrun
  · exact Nat.not_le.2 hlt (hlast w hw)
  · have := holder e he
    omega

/-! ## Which bytes of DST a running command writes (R61) -/

theorem State.writesDst_decompress (hc : s.eng.cur = .decompress) (a : Nat) :
    s.writesDst a = decide (a < s.regs.dstCap.toNat) := by
  simp only [State.writesDst, hc]

theorem State.writesDst_compress {bytes : List Byte} (hc : s.eng.cur = .compress)
    (he : encodeBytes s.hw.order s.params s.srcByte s.regs.srcLen.toNat s.regs.dstCap.toNat = .ok bytes) (a : Nat) :
    s.writesDst a = decide (a < bytes.length) := by
  simp only [State.writesDst, hc, he]

theorem State.writesDst_compress_error {code : ErrCode} (hc : s.eng.cur = .compress)
    (he : encodeBytes s.hw.order s.params s.srcByte s.regs.srcLen.toNat s.regs.dstCap.toNat = .error code) (a : Nat) :
    s.writesDst a = decide (a < s.regs.dstCap.toNat) := by
  simp only [State.writesDst, hc, he]

end

/-- ENCODE gives no more bytes than fit. -/
theorem encodeBytes_length_le {o : BitOrder} {pr : Params} {f : Nat → Byte} {n cap : Nat} {bytes : List Byte}
    (h : encodeBytes o pr f n cap = .ok bytes) : bytes.length ≤ cap := by
  by_cases hfits : bytesFor (encodeStream o pr f n).length ≤ cap
  · rw [encodeBytes_ok h, pack_length]
    exact hfits
  · simp [encodeBytes_of_gt (Nat.lt_of_not_le hfits)] at h

/-- R61: no command writes DST at DST_CAP or above. -/
theorem State.writesDst_lt {s : State} {a : Nat} (h : s.writesDst a = true) : a < s.regs.dstCap.toNat := by
  cases hc : s.eng.cur with
  | decompress => simpa [State.writesDst_decompress hc] using h
  | compress =>
    cases he : encodeBytes s.hw.order s.params s.srcByte s.regs.srcLen.toNat s.regs.dstCap.toNat with
    | error code => simpa [State.writesDst_compress_error hc he] using h
    | ok bytes =>
      have hlt : a < bytes.length := by simpa [State.writesDst_compress hc he] using h
      exact hlt.trans_le (encodeBytes_length_le he)

end Sys2Proof.Machine

open Sys2Proof Sys2Proof.Machine

/-- Settles O50: clause by clause; BUSY and the placement decide whether an access is made, and the laws of the two
buffers and of what the host has seen say what it does. -/
theorem bufferHazardRefused : Obligations.BufferHazardRefused := by
  intro s index b p rest
  let u : State := { s with host.inputs := rest }
  refine ⟨Placement.overlaps_iff, ?overlap, ?device, ?hazard, ?bind, ?deviceAccess, ?srcWrite, ?dstWrite, ?dstRead,
    fun _ => State.writesDst_lt, State.writesDst_decompress, fun hc _ he => State.writesDst_compress hc he⟩
  case overlap => exact fun hb hl hp ho => commands_refused hb hl (State.misplaced_of_overlap hp ho)
  case device => exact fun hb hl hd => commands_refused hb hl (State.misplaced_of_device hd)
  case hazard =>
    rintro hb (hin | hin | hin) <;> exact (step_of_input hin).trans (unlessRunning_busy (s := u) hb _)
  case bind =>
    intro hb hin
    exact (step_of_input hin).trans (unlessRunning_idle (s := u) hb _)
  case deviceAccess =>
    intro hb hd h
    have hstored (o : Out) : unlessRunning u (bufferAccess u o) = .refused .deviceBuffer :=
      (unlessRunning_idle hb _).trans (bufferAccess_device hd o)
    obtain hin | hin | hin := h
    · exact (step_of_input hin).trans (hstored _)
    · exact (step_of_input hin).trans (hstored _)
    · exact (step_of_input hin).trans (bufferAccess_device (s := u) hd _)
  case srcWrite =>
    intro hb hp hin
    have hstep := (step_of_input hin).trans ((unlessRunning_idle (s := u) hb _).trans (bufferAccess_plain hp _))
    exact ⟨_, hstep, putSrc_eq _ b u, fun a => putSrc_srcByte _ a b u, fun a => putSrc_read _ a b u⟩
  case dstWrite =>
    intro hb hp hin
    have hstep := (step_of_input hin).trans ((unlessRunning_idle (s := u) hb _).trans (bufferAccess_plain hp _))
    exact ⟨_, hstep, rfl, fun a => State.putDst_read _ a b u, fun a => putDst_srcByte _ a b u⟩
  case dstRead =>
    intro hp hin
    have hstep : step s = .next (readDst index.toNat u) :=
      (step_of_input hin).trans (bufferAccess_plain (s := u) hp _)
    refine ⟨fun hrun hlast holder => ?_, fun h => ?_⟩
    · exact hstep.trans (congrArg _ (readDst_of_not (State.hidesDst_eq_false (s := u) hrun hlast holder)))
    · exact ⟨_, hstep.trans (congrArg _ (readDst_of_hidden (State.hidesDst_iff (s := u) |>.2 h)))⟩

end
